-- ==== Sys2Proof/Word.lean ====
section
/-!
DEFINITION. The word types of HUFFCODEC (spec/00_scope.md R5, R6, R8).
Every quantity of the block is unsigned (R8) and no rule's arithmetic wraps at these widths (R6, R10).
-/

namespace Sys2Proof

/-- A byte, and a symbol: `SYM_W = 8` bits (R5, R8). -/
abbrev Byte := BitVec 8

/-- A histogram counter: `CNT_W = 64` bits (R5). -/
abbrev Counter := BitVec 64

/-- A length of the input buffer: `LEN_W = 64` bits (R6). -/
abbrev InLen := BitVec 64

/-- A length of the output buffer: `OUTLEN_W = 72` bits (R6). -/
abbrev OutLen := BitVec 72

/-- A node weight, a symbol total or a count of bits: `WEIGHT_W = 72` bits (R6). -/
abbrev Weight := BitVec 72

/-- A node index: `IDX_W = 9` bits (R6). -/
abbrev Idx := BitVec 9

/-- The index sentinel `NONE` = 511 of "no child" and "no tree" (R6, R27). -/
def Idx.none : Idx := 511

/-- A table of `n` entries given entry by entry. Irreducible, so that no unification unrolls a table; its entries are
`getElem_tabulate`'s (Laws/Tables.lean), and the kernel evaluates it as any other definition. -/
@[irreducible] def tabulate {α : Type} (n : Nat) (f : Nat → α) : Vector α n :=
  ⟨((List.range n).map f).toArray, by simp⟩

/-- The 256 symbols in ascending order, as the loops `for s in 0 .. 255` take them. Irreducible for the same reason as
`tabulate`. -/
@[irreducible] def allBytes : List Byte := (List.range 256).map (BitVec.ofNat 8)

end Sys2Proof
end

