-- ==== Sys2Proof/Config.lean ====
section
/-!
DEFINITION. What the spec fixes as constants (spec/00_scope.md R5) and the one free value of the model.
The parameters R7 leaves open (`IN_CAP`, `OUT_CAP`) stand in State as data, so that every statement holds for
every capacity (log entry 4); `TRANSPORT` has no effect on any rule.
-/

namespace Sys2Proof

/-- `HDR_BYTES`: the header's size (R5). -/
abbrev Config.headerBytes : Nat := 2048

/-- `VB_OFF`: the container offset of the valid-bits byte (R5). -/
abbrev Config.validBitsOffset : Nat := 2048

/-- `BODY_OFF`: the container offset of the first body byte, and the least length the decoder accepts (R5, R171). -/
abbrev Config.bodyOffset : Nat := 2049

/-- `MAX_CODE_LEN`: the most bits of a code (R5). -/
abbrev Config.maxCodeLen : Nat := 255

/-- The places whose contents the spec calls unspecified (spec/93_implementation_defined.md U3): after an operation
ends or after a reset (R37, R38), and the bytes of `IN` that nothing has written. One name for each drawn value. -/
inductive Slot where
  | hist (s : Nat)
  | nodeLeaf (i : Nat) | nodeW (i : Nat) | nodeSym (i : Nat) | nodeC0 (i : Nat) | nodeC1 (i : Nat) | nodeInq (i : Nat)
  | codeLen (s : Nat) | codeBits (s : Nat)
  | nleaf | nnode | root
  | acc | nb | iptr | vb | totBits
  | bodyLen | avail | tpos | total | emitted | cur
  | op
  | inByte (a : Nat)
  deriving DecidableEq, Repr

/-- FREE VALUE (log entry 2): what the place `slot` holds where the spec leaves its contents unspecified, for the
`draw`-th time contents became unspecified. It has no body, so nothing can be proved of its value. -/
opaque Config.free (draw : Nat) (slot : Slot) (w : Nat) : BitVec w

end Sys2Proof
end

