-- ==== Sys2Proof/Syntax.lean ====
section
/-!
DEFINITION. The rows of spec/opcode_table.json: two commands (spec/30_encoding.md R70, R71) and eleven stage
operations (R82). No row has an operand: a command's operands are implicit, the bytes `IN[0 .. IN_LEN)` and the
buffer `OUT` (R70, R73).
-/

namespace Sys2Proof

/-- One constructor per row of the opcode table. -/
inductive Instr where
  /-- `COMPRESS`, command word `0x01` (R92). -/
  | compress
  /-- `DECOMPRESS`, command word `0x02` (R93). -/
  | decompress
  /-- `HIST`, phase 1 (R110). -/
  | hist
  /-- `BUILD`, phase 2 (R120). -/
  | build
  /-- `GEN`, phase 3 (R140). -/
  | gen
  /-- `C_HEADER`, phase 4 (R151). -/
  | cHeader
  /-- `C_VALID`, phase 5 (R153). -/
  | cValid
  /-- `C_PACK`, phase 6 (R156). -/
  | cPack
  /-- `D_CHECK`, phase 8 (R171). -/
  | dCheck
  /-- `D_HEADER`, phase 9 (R172). -/
  | dHeader
  /-- `D_VALID`, phase 10 (R173). -/
  | dValid
  /-- `D_SUM`, phase 11 (R175). -/
  | dSum
  /-- `D_WALK`, phase 12 (R178). -/
  | dWalk
  deriving DecidableEq, Repr

/-- The two formats of the opcode table: the 8-bit word of register `CMD` (R70) and the 4-bit code of `PHASE` (R82). -/
inductive Format where
  | cmdw
  | phase
  deriving DecidableEq, Repr

/-- The width in bits of a word of the format. -/
def Format.width : Format → Nat
  | .cmdw => 8
  | .phase => 4

/-- A word of the opcode table: its format and its bits. -/
structure TableWord where
  format : Format
  code : Nat
  deriving DecidableEq, Repr

end Sys2Proof
end

