-- ==== Sys2Proof/WellFormed.lean ====
section
/-!
DEFINITION. Which words and instructions are well formed.
An instruction has no operand (spec/30_encoding.md R70, R82), so each of the 13 is well formed; what can be ill formed
is a word: one with bits outside its format, a reserved command value (R72) or a phase code no stage has (R21).
-/

namespace Sys2Proof

/-- The word has no bit outside its format's width. -/
def TableWord.fits (w : TableWord) : Bool := decide (w.code < 2 ^ w.format.width)

/-- The word is one the opcode table gives an instruction (R71, R82). -/
def TableWord.assigned (w : TableWord) : Bool :=
  match w.format with
  | .cmdw => [1, 2].contains w.code
  | .phase => [1, 2, 3, 4, 5, 6, 8, 9, 10, 11, 12].contains w.code

/-- A word some instruction has. -/
def TableWord.WellFormed (w : TableWord) : Bool := w.fits && w.assigned

/-- An instruction has no field to check. -/
def Instr.WellFormed (_ : Instr) : Bool := true

end Sys2Proof
end

