-- ==== Sys2Proof/Decode.lean ====
section
/-!
DEFINITION. The decoder of command words and of phase codes, and the encoder (spec/30_encoding.md R70 to R72, R82).
-/

namespace Sys2Proof

/-- Why a word is no instruction. -/
inductive Reject where
  /-- A reserved command value, `0x00` or `0x03 .. 0xFF` (R72). -/
  | reservedCommand (v : BitVec 8)
  /-- Phase code 0, `IDLE`: no stage operation (R21). -/
  | idle
  /-- A phase code that is never held: 7, 13, 14, 15 (R21). -/
  | unusedPhase (v : BitVec 4)
  /-- A word with bits outside its format. -/
  | tooWide (w : TableWord)
  deriving DecidableEq, Repr

/-- The command a value written to `CMD` names (R71); all eight bits take part in the match. -/
def decodeCmd (v : BitVec 8) : Except Reject Instr :=
  match v.toNat with
  | 1 => .ok .compress
  | 2 => .ok .decompress
  | _ => .error (.reservedCommand v)

/-- The stage operation a `PHASE` code selects (R21, R82). -/
def decodePhase (v : BitVec 4) : Except Reject Instr :=
  match v.toNat with
  | 0 => .error .idle
  | 1 => .ok .hist
  | 2 => .ok .build
  | 3 => .ok .gen
  | 4 => .ok .cHeader
  | 5 => .ok .cValid
  | 6 => .ok .cPack
  | 8 => .ok .dCheck
  | 9 => .ok .dHeader
  | 10 => .ok .dValid
  | 11 => .ok .dSum
  | 12 => .ok .dWalk
  | _ => .error (.unusedPhase v)

/-- The instruction a word of the opcode table names. -/
def decode (w : TableWord) : Except Reject Instr :=
  if w.fits then
    match w.format with
    | .cmdw => decodeCmd (BitVec.ofNat 8 w.code)
    | .phase => decodePhase (BitVec.ofNat 4 w.code)
  else .error (.tooWide w)

/-- The word of an instruction (R71, R82). -/
def encode : Instr → TableWord
  | .compress => ⟨.cmdw, 0x01⟩
  | .decompress => ⟨.cmdw, 0x02⟩
  | .hist => ⟨.phase, 1⟩
  | .build => ⟨.phase, 2⟩
  | .gen => ⟨.phase, 3⟩
  | .cHeader => ⟨.phase, 4⟩
  | .cValid => ⟨.phase, 5⟩
  | .cPack => ⟨.phase, 6⟩
  | .dCheck => ⟨.phase, 8⟩
  | .dHeader => ⟨.phase, 9⟩
  | .dValid => ⟨.phase, 10⟩
  | .dSum => ⟨.phase, 11⟩
  | .dWalk => ⟨.phase, 12⟩

/-- The word of the opcode table that `nbits` bits of value `w` stand for. A 4-bit word is a `PHASE` code. A byte is a
command word if it is one; a byte that is no command is taken as a `PHASE` row's code in its low four bits, the row's
own width (log entry 9). -/
def tableWord (nbits w : Nat) : TableWord :=
  if nbits ≤ 4 then ⟨.phase, w⟩
  else if TableWord.WellFormed ⟨.cmdw, w⟩ || !TableWord.WellFormed ⟨.phase, w⟩ then ⟨.cmdw, w⟩
  else ⟨.phase, w⟩

/-- The instruction of a row of spec/opcode_table.json whose bits are `w`. -/
def decodeTableWord (nbits w : Nat) : Option Instr :=
  match decode (tableWord nbits w) with
  | .ok i => some i
  | .error _ => none

end Sys2Proof
end

