-- ==== Sys2Proof/Machine/State.lean ====
section
/-!
DEFINITION. The state of HUFFCODEC, as plain data (spec/10_state.md), and its value after reset (R38, R220).
-/

namespace Sys2Proof.Machine

/-- The sequencer's position `PHASE` (R21): an enumeration of twelve values. -/
inductive Phase where
  | idle | hist | build | gen | cHeader | cValid | cPack | dCheck | dHeader | dValid | dSum | dWalk
  deriving DecidableEq, Repr

/-- `STATUS.ERR` (R23, R200): code 3 is never produced, so it has no constructor (spec/93 U2). -/
inductive ErrKind where
  | none | malformedContainer | corruptStream
  deriving DecidableEq, Repr

/-- The latched command `OP` (R33). -/
inductive Op where
  | compress | decompress
  deriving DecidableEq, Repr

/-- An entry of the node arena (R27). The fields a kind of node leaves unspecified (`sym` of an internal node) or has at a
constant (`c0 = c1 = NONE` of a leaf) are not stored; spec/93 U3 has them modelled as absent. -/
inductive Node where
  /-- `leaf = 1`: the weight, the byte value it owns, and whether it is still in the priority structure. -/
  | leaf (w : Weight) (sym : Byte) (inq : Bool)
  /-- `leaf = 0`: the weight, the zero-branch and the one-branch child, and whether it is still in the structure. -/
  | internal (w : Weight) (c0 c1 : Idx) (inq : Bool)
  deriving DecidableEq, Repr

/-- An entry of the code table (R28): the bit string of length `len`, first bit first. The bits of the 255-bit field above
`len` are unspecified and modelled as absent (R143, spec/93 U3; log entry 6). -/
abbrev Code := List Bool

/-- A buffer's contents: the bytes something has written, by address. An address that is not listed has no value. -/
abbrev Memory := List Host.Cell

/-- What the host can do to the block (spec/70_reset_and_hazards.md R230), one transaction each. -/
inductive HostMove where
  /-- Write `v` to `CMD`, CR0 (R22, R90). -/
  | writeCmd (v : BitVec 8)
  /-- Write `v` to `STATUS`, CR1 (R23). -/
  | writeStatus (v : BitVec 8)
  /-- Write `v` to `IN_LEN`, CR2 (R24). -/
  | writeInLen (v : InLen)
  /-- Write `v` to `OUT_LEN`, CR3 (R25). -/
  | writeOutLen (v : OutLen)
  /-- Write the byte `v` to the input buffer at address `a` (R34). -/
  | writeIn (a : Nat) (v : Byte)
  /-- Write the byte `v` to the output buffer at address `a` (R230). -/
  | writeOut (a : Nat) (v : Byte)
  /-- Assert reset (R220, R222). -/
  | reset
  /-- Let the block have the next step: it performs the stage operation `PHASE` selects, or waits. -/
  | turn
  deriving DecidableEq, Repr

/-- The whole state. The model's own fields are `host`, `draws` and `era`; `inCap` and `outCap` are the open parameters
of R7, held as data that no step changes. -/
structure State where
  /-- `PHASE`, 4 bits (R21). -/
  phase : Phase
  /-- `STATUS.DONE` (R23). `STATUS.BUSY` is `PHASE != IDLE` and is not stored. -/
  done : Bool
  /-- `STATUS.ERR` (R23). -/
  err : ErrKind
  /-- `IN_LEN`, 64 bits (R24). -/
  inLen : InLen
  /-- `OUT_LEN`, 72 bits (R25). -/
  outLen : OutLen
  /-- `OP`, 1 bit (R33). -/
  op : Op
  /-- `HIST[0 .. 255]`, 64 bits each (R26). -/
  hist : Vector Counter 256
  /-- `NODE[0 .. 510]` (R27). -/
  node : Vector Node 511
  /-- `CODE[0 .. 255]` (R28). -/
  code : Vector Code 256
  /-- `NLEAF`, 9 bits (R29). -/
  nleaf : Idx
  /-- `NNODE`, 9 bits (R29). -/
  nnode : Idx
  /-- `ROOT`, 9 bits (R29). -/
  root : Idx
  /-- `ACC`, 8 bits (R30). -/
  acc : BitVec 8
  /-- `NB`, 4 bits (R30). -/
  nb : BitVec 4
  /-- `IPTR`, 64 bits (R30). -/
  iptr : BitVec 64
  /-- `VB`, 8 bits (R31). -/
  vb : Byte
  /-- `TOTBITS`, 72 bits (R31). -/
  totBits : Weight
  /-- `BODY_LEN`, 64 bits (R32). -/
  bodyLen : BitVec 64
  /-- `AVAIL`, 72 bits (R32). -/
  avail : Weight
  /-- `TPOS`, 72 bits (R32). -/
  tpos : Weight
  /-- `TOTAL`, 72 bits (R32). -/
  total : Weight
  /-- `EMITTED`, 72 bits (R32). -/
  emitted : Weight
  /-- `CUR`, 9 bits (R32). -/
  cur : Idx
  /-- `IN`, the input buffer (R34). -/
  inMem : Memory
  /-- `OUT`, the output buffer (R34). -/
  outMem : Memory
  /-- `IN_CAP` (R7). -/
  inCap : InLen
  /-- `OUT_CAP` (R7). -/
  outCap : OutLen
  /-- The host's coming transactions, the next one first (log entry 5). -/
  host : List HostMove
  /-- How many times contents have become unspecified: the index of the next free draw (log entry 2). -/
  draws : Nat
  /-- The draw that gives the contents of the bytes of `IN` nothing has written since the last reset (log entry 3). -/
  era : Nat
  deriving DecidableEq, Repr

/-- Reasons the machine stops with a fault. -/
inductive Fault where
  /-- An access to a byte of `IN` or `OUT` at or beyond its capacity: there is no such byte (R34, R50). Raised by the
  stage operations that read `IN` and by the host's buffer writes. Safe: the machine stops. -/
  | noSuchByte
  deriving DecidableEq, Repr

/-- Reasons the machine refuses to go on. -/
inductive Refusal where
  /-- An instruction without a meaning. Raised by exec's refused arms; safe. None is left. -/
  | notModelled (mnemonic : String)
  /-- A command started with `IN_LEN > IN_CAP`: the valid bytes would not exist, refuse at launch (spec/93 U5). Raised by
  COMPRESS and DECOMPRESS; safe. -/
  | inputBeyondCapacity
  /-- A result longer than `OUT_CAP`: undefined, never truncated silently (R7, spec/93 U6). Raised by `emit`; safe. -/
  | outputBeyondCapacity
  /-- The host wrote `IN` or `OUT` while `BUSY = 1`: undefined (R58, spec/93 U4). Raised by the host's buffer writes;
  safe. -/
  | hostBreaksOwnership
  deriving DecidableEq, Repr

/-- The outcome of an operation of this machine. -/
abbrev Outcome := Host.Outcome State Fault Refusal

/-- The state right after reset (R38, R220). `PHASE`, `STATUS`, `IN_LEN` and `OUT_LEN` are the spec's values; every other
register and table is unspecified there and stands at zero here (log entry 1); the buffers list nothing; the
capacities are the largest their widths hold (log entry 4). -/
def State.reset : State where
  phase := .idle
  done := false
  err := .none
  inLen := 0
  outLen := 0
  op := .compress
  hist := tabulate 256 fun _ => 0
  node := tabulate 511 fun _ => .internal 0 0 0 false
  code := tabulate 256 fun _ => []
  nleaf := 0
  nnode := 0
  root := 0
  acc := 0
  nb := 0
  iptr := 0
  vb := 0
  totBits := 0
  bodyLen := 0
  avail := 0
  tpos := 0
  total := 0
  emitted := 0
  cur := 0
  inMem := []
  outMem := []
  inCap := BitVec.allOnes 64
  outCap := BitVec.allOnes 72
  host := []
  draws := 1
  era := 0

end Sys2Proof.Machine
end

