-- ==== Sys2Proof/Machine/Flags.lean ====
section
/-!
DEFINITION. The flags: register `STATUS` (spec/10_state.md R23) and the codes of `PHASE` (R21), `OP` (R33) and `ERR` (R200).
There are no condition codes (R23).
-/

namespace Sys2Proof.Machine

/-- The 4-bit code of a phase (R21). -/
def Phase.code : Phase → BitVec 4
  | .idle => 0
  | .hist => 1
  | .build => 2
  | .gen => 3
  | .cHeader => 4
  | .cValid => 5
  | .cPack => 6
  | .dCheck => 8
  | .dHeader => 9
  | .dValid => 10
  | .dSum => 11
  | .dWalk => 12

/-- The phase whose code is `c`; `IDLE` where no stage has it. -/
def phaseOfCode (c : Nat) : Phase :=
  match c with
  | 1 => .hist
  | 2 => .build
  | 3 => .gen
  | 4 => .cHeader
  | 5 => .cValid
  | 6 => .cPack
  | 8 => .dCheck
  | 9 => .dHeader
  | 10 => .dValid
  | 11 => .dSum
  | 12 => .dWalk
  | _ => .idle

/-- The 2-bit code of `STATUS.ERR` (R23, R200). -/
def ErrKind.code : ErrKind → BitVec 2
  | .none => 0
  | .malformedContainer => 1
  | .corruptStream => 2

/-- The 1-bit code of `OP` (R33). -/
def Op.code : Op → BitVec 1
  | .compress => 0
  | .decompress => 1

/-- `STATUS.BUSY`: 1 exactly while `PHASE != IDLE` (R21, R23). -/
def State.busy (s : State) : Bool := s.phase != .idle

/-- The byte a read of `STATUS` gives: bit 0 `BUSY`, bit 1 `DONE`, bits 3:2 `ERR`, bits 7:4 zero (R23). -/
def State.status (s : State) : BitVec 8 :=
  (0 : BitVec 4) ++ s.err.code ++ BitVec.ofBool s.done ++ BitVec.ofBool s.busy

end Sys2Proof.Machine
end

