-- ==== Sys2Proof/Machine/Ops.lean ====
section
/-!
DEFINITION. The named operations over memory and registers: the buffers' bytes (spec/20_memory.md), appending to `OUT`
(R9 `emit`), starting an operation (R90), ending it (R96), and the error end, which is the block's exception entry (R204).
-/

namespace Sys2Proof.Machine

/-! ## Buffers -/

/-- The canonical form: addresses strictly rising. Every listed byte has a value and an unlisted address has none, so no
entry can equal what an unlisted address reads as. -/
abbrev Memory.wf (m : Memory) : Prop := m.Pairwise fun x y => x.1 < y.1

/-- The byte at address `a`, if something has written one. -/
def Memory.read : Memory → Nat → Option Byte
  | [], _ => none
  | (b, w) :: m, a => if a = b then some w else Memory.read m a

/-- Write the byte `v` at address `a`. -/
def Memory.write : Memory → Nat → Byte → Memory
  | [], a, v => [(a, v)]
  | (b, w) :: m, a, v =>
    if a < b then (a, v) :: (b, w) :: m
    else if a = b then (a, v) :: m
    else (b, w) :: Memory.write m a v

/-- The cells of the bytes `vs` at consecutive addresses from `a`. -/
def cellsFrom (a : Nat) : List Byte → Memory
  | [] => []
  | v :: vs => (a, v) :: cellsFrom (a + 1) vs

/-- Write the bytes `vs` at the addresses from `a`, ascending. -/
def Memory.writeRun (m : Memory) (a : Nat) (vs : List Byte) : Memory :=
  m.filter (fun c => decide (c.1 < a)) ++ cellsFrom a vs ++ m.filter fun c => decide (a + vs.length ≤ c.1)

/-! ## Sequencing of effects -/

/-- Go on with `f` where `o` is a next state; a stop stays. -/
def andThen (o : Outcome) (f : State → Outcome) : Outcome :=
  match o with
  | .next s => f s
  | .fault r => .fault r
  | .refused r => .refused r

/-- `PHASE <- p` (R9). -/
def State.goto (s : State) (p : Phase) : State := { s with phase := p }

/-! ## The output buffer -/

/-- `emit(v)`: `MemWrite(OUT, OUT_LEN, 1, v)`, then `OUT_LEN <- OUT_LEN + 1` (R9, R57). Where `OUT` has no byte at
`OUT_LEN`, the result is longer than `OUT_CAP` (spec/93 U6). -/
def emit (v : Byte) (s : State) : Outcome :=
  if s.outLen < s.outCap then
    .next { s with outMem := s.outMem.write s.outLen.toNat v, outLen := s.outLen + 1 }
  else .refused .outputBeyondCapacity

/-- Emit the bytes of a list, in order: as many `emit`s, taken together (R53: no rule depends on how the bytes are
grouped). -/
def emitAll (vs : List Byte) (s : State) : Outcome :=
  if s.outLen.toNat + vs.length ≤ s.outCap.toNat then
    .next { s with outMem := s.outMem.writeRun s.outLen.toNat vs, outLen := s.outLen + BitVec.ofNat 72 vs.length }
  else .refused .outputBeyondCapacity

/-! ## Unspecified contents -/

/-- An arena entry whose contents are unspecified, drawn free (R37). -/
def freeNode (d i : Nat) : Node :=
  if Config.free d (.nodeLeaf i) 1 = 1 then
    .leaf (Config.free d (.nodeW i) 72) (Config.free d (.nodeSym i) 8) (Config.free d (.nodeInq i) 1 == 1)
  else
    .internal (Config.free d (.nodeW i) 72) (Config.free d (.nodeC0 i) 9) (Config.free d (.nodeC1 i) 9)
      (Config.free d (.nodeInq i) 1 == 1)

/-- A code-table entry whose contents are unspecified, drawn free: any bit string of at most 255 bits (R28, R37). -/
def freeCode (d s : Nat) : Code :=
  (List.range (Config.free d (.codeLen s) 8).toNat).map (Config.free d (.codeBits s) 255).getLsbD

/-- The tables and the working registers of R29 to R33 become unspecified: each holds a free value (R37, log entry 2). -/
def State.retire (s : State) : State :=
  { s with
    draws := s.draws + 1
    op := if Config.free s.draws .op 1 = 0 then .compress else .decompress
    hist := tabulate 256 fun i => Config.free s.draws (.hist i) 64
    node := tabulate 511 (freeNode s.draws)
    code := tabulate 256 (freeCode s.draws)
    nleaf := Config.free s.draws .nleaf 9
    nnode := Config.free s.draws .nnode 9
    root := Config.free s.draws .root 9
    acc := Config.free s.draws .acc 8
    nb := Config.free s.draws .nb 4
    iptr := Config.free s.draws .iptr 64
    vb := Config.free s.draws .vb 8
    totBits := Config.free s.draws .totBits 72
    bodyLen := Config.free s.draws .bodyLen 64
    avail := Config.free s.draws .avail 72
    tpos := Config.free s.draws .tpos 72
    total := Config.free s.draws .total 72
    emitted := Config.free s.draws .emitted 72
    cur := Config.free s.draws .cur 9 }

/-! ## Starting and ending an operation -/

/-- The first stage of a command (R90). -/
def Op.firstPhase : Op → Phase
  | .compress => .hist
  | .decompress => .dCheck

/-- Acceptance of a command, one indivisible event (R90). It clears `DONE` and `ERR`, which is also all that a return from
an error takes (R207). The bytes of `OUT` now lie at addresses `>= OUT_LEN = 0` and have no value (R34). -/
def State.accept (s : State) (c : Op) : State :=
  { s with op := c, done := false, err := .none, outLen := 0, outMem := [], phase := c.firstPhase }

/-- A value of `CMD` that names the command `c` is written: accepted when `BUSY = 0`, without effect when `BUSY = 1`
(R90, R91). A launch with `IN_LEN > IN_CAP` is refused (spec/93 U5). -/
def launch (c : Op) (s : State) : Outcome :=
  if s.busy then .next s
  else if s.inCap < s.inLen then .refused .inputBeyondCapacity
  else .next (s.accept c)

/-- Successful end, `done(OK)` (R96). -/
def State.finish (s : State) : State := { s.retire with err := .none, done := true, phase := .idle }

/-- TAKING AN EXCEPTION: the error end `raise E` (R204). Nothing is saved and there is no handler; the bytes appended to
`OUT` become unspecified, so `OUT` lists nothing. -/
def State.raise (s : State) (e : ErrKind) : State :=
  { s.retire with outLen := 0, outMem := [], err := e, done := true, phase := .idle }

/-- Reset (R220, R222): the state of R38, with the tables, the working registers and both buffers unspecified. The
capacities and the host's coming transactions are not the block's state and stay. -/
def State.resetEvent (s : State) : State :=
  let r := { State.reset with inCap := s.inCap, outCap := s.outCap, host := s.host, draws := s.draws }.retire
  { r with era := s.draws }

end Sys2Proof.Machine
end

