-- ==== Sys2Proof/Machine/Operands.lean ====
section
/-!
DEFINITION. The operand forms: the bytes of `IN` (spec/00_scope.md R9), the counters of a header (R75, R172), the bits of
a body (R52, R177), entries of the tables (R9).
-/

namespace Sys2Proof.Machine

/-- The byte of `IN` at address `a`: below `IN_LEN` what the host wrote there; a byte nothing has written, or one at or
beyond `IN_LEN`, is unspecified (R34, spec/93 U3) and is the free value of that address (log entry 3). The block reads it
so in every stage (R56). That a host read gives the same byte, also while `BUSY = 1`, is the model's choice (DESIGN CHOICE,
log entry 18). -/
def State.inByte (s : State) (a : Nat) : Byte :=
  if a < s.inLen.toNat then (s.inMem.read a).getD (Config.free s.era (.inByte a) 8)
  else Config.free s.era (.inByte a) 8

/-- `MemRead(IN, a, 1)` (R9): no byte exists at or beyond `IN_CAP` (R34). -/
def State.memReadIn (s : State) (a : Nat) : Option Byte :=
  if a < s.inCap.toNat then some (s.inByte a) else none

/-- The input byte sequence `IN[0 .. IN_LEN)`. -/
def State.inBytes (s : State) : List Byte := (List.range s.inLen.toNat).map s.inByte

/-- `HIST[s]`. -/
def histAt (h : Vector Counter 256) (s : Byte) : Counter := h[s.toNat]'s.isLt

/-- `CODE[s]`. -/
def codeAt (t : Vector Code 256) (s : Byte) : Code := t[s.toNat]'s.isLt

/-- `NODE[i]`: the sentinel `NONE` is the only 9-bit index without an entry. -/
def nodeAt (n : Vector Node 511) (i : Idx) : Option Node := n[i.toNat]?

/-- `NODE[i].w` (R27). -/
def Node.w : Node → Weight
  | .leaf w _ _ => w
  | .internal w _ _ _ => w

/-- `NODE[i].inq` (R27). -/
def Node.inq : Node → Bool
  | .leaf _ _ q => q
  | .internal _ _ _ q => q

/-- `NODE[i].leaf` (R27). -/
def Node.isLeaf : Node → Bool
  | .leaf .. => true
  | .internal .. => false

/-- `NODE[i].c0`: `NONE` for a leaf (R27). -/
def Node.c0 : Node → Idx
  | .leaf .. => Idx.none
  | .internal _ c0 _ _ => c0

/-- `NODE[i].c1`: `NONE` for a leaf (R27). -/
def Node.c1 : Node → Idx
  | .leaf .. => Idx.none
  | .internal _ _ c1 _ => c1

/-- `NODE[i].inq <- 0`. -/
def Node.extracted : Node → Node
  | .leaf w sym _ => .leaf w sym false
  | .internal w c0 c1 _ => .internal w c0 c1 false

/-- `CODE[s].len`, 8 bits (R28). -/
def codeLen (c : Code) : BitVec 8 := BitVec.ofNat 8 c.length

/-- The value of `CODE[s].bits[len-1:0]`: the first bit is the most significant (R143). -/
def codeValue (c : Code) : Nat := c.foldl (fun v b => 2 * v + b.toNat) 0

/-- Counter `s` of a header whose byte at offset `a` is `byteAt a`: eight bytes, little-endian (R51, R75, R172). -/
def counterAt (byteAt : Nat → Byte) (s : Nat) : Counter :=
  (List.range 8).foldl (fun v b => v ||| ((byteAt (8 * s + b)).setWidth 64 <<< (8 * b))) 0

/-- The 256 counters of a header (R75, R172). -/
def parseHeader (byteAt : Nat → Byte) : Vector Counter 256 := tabulate 256 (counterAt byteAt)

/-- The eight bytes of a counter, least significant first (R51, R75). -/
def counterBytes (c : Counter) : List Byte := (List.range 8).map fun b => (c >>> (8 * b)).setWidth 8

/-- The 2048 header bytes of a histogram (R75, R151). -/
def headerBytes (h : Vector Counter 256) : List Byte := allBytes.flatMap fun s => counterBytes (histAt h s)

/-- Bit `t` of a body whose byte `j` is `byteAt j`: most significant bit of each byte first (R52). -/
def bodyBitOf (byteAt : Nat → Byte) (t : Nat) : Bool := (byteAt (t / 8)).getLsbD (7 - t % 8)

/-- `bit(t)`: body bit `t` of the container in `IN` (R177). -/
def State.bodyBit (s : State) (t : Nat) : Option Bool :=
  (s.memReadIn (Config.bodyOffset + t / 8)).map fun b => b.getLsbD (7 - t % 8)

/-- `AVAIL`: the walkable bits of a body of `n` bytes whose last byte has `vb` valid bits (R176). -/
def walkableBits (n vb : Nat) : Nat := if n = 0 then 0 else 8 * (n - 1) + vb

/-- The valid-bits value of a body of `tot` bits (R76, R153). -/
def validBitsOf (tot : Nat) : Nat := if tot % 8 = 0 then 8 else tot % 8

end Sys2Proof.Machine
end

