-- ==== Sys2Proof/Machine/Analyzer.lean ====
section
/-!
DEFINITION. Stage HIST, the Frequency Analyzer (spec/41_frequency_analyzer.md).
-/

namespace Sys2Proof.Machine

/-- `HIST[s] <- HIST[s] + 1` (R112). -/
def bump (h : Vector Counter 256) (s : Byte) : Vector Counter 256 := h.set s.toNat (histAt h s + 1) s.isLt

/-- Clear, then count each byte (R111, R112). -/
def histogram (bytes : List Byte) : Vector Counter 256 := bytes.foldl bump (tabulate 256 fun _ => 0)

/-- `HIST` (R110) and its sequencing (R94): an empty input ends the operation, any other goes on to `BUILD`. `IPTR`, the
index of the next input byte, is left at `IN_LEN` (log entry 8). -/
def execHist (s : State) : Outcome :=
  if s.inCap < s.inLen then .fault .noSuchByte
  else
    let s' := { s with hist := histogram s.inBytes, iptr := s.inLen }
    if s.inLen = 0 then .next s'.finish else .next (s'.goto .build)

end Sys2Proof.Machine
end

