-- ==== Sys2Proof/Machine/CodeGenerator.lean ====
section
/-!
DEFINITION. Stage GEN, the Code Generator (spec/43_code_generator.md).
-/

namespace Sys2Proof.Machine

/-- `visit(i, path)` (R141): the codes of the leaves under node `i`, zero-branch first. `d` is how many more bits a path
may take; from a tree of BUILD's a path never needs more than the 255 that `GEN` gives it (R131). -/
def visit (node : Idx → Option Node) : Nat → Idx → List Bool → List (Byte × Code)
  | 0, i, path =>
    match node i with
    | some (.leaf _ sym _) => [(sym, path)]
    | _ => []
  | d + 1, i, path =>
    match node i with
    | some (.leaf _ sym _) => [(sym, path)]
    | some (.internal _ c0 c1 _) => visit node d c0 (path ++ [false]) ++ visit node d c1 (path ++ [true])
    | none => []

/-- The codes GEN assigns: the traversal's for two leaves or more (R141), the one-bit code `"0"` for one (R142), none for
none. -/
def codesOf (node : Idx → Option Node) (nleaf root : Idx) : List (Byte × Code) :=
  if nleaf = 0 then []
  else if nleaf = 1 then
    match node 0 with
    | some (.leaf _ sym _) => [(sym, [false])]
    | _ => []
  else visit node Config.maxCodeLen root []

/-- Write each code to its symbol's entry of `CODE`; the other entries keep what they hold (R140). -/
def storeCodes (cs : List (Byte × Code)) (t : Vector Code 256) : Vector Code 256 :=
  cs.foldl (fun t c => t.set c.1.toNat c.2 c.1.isLt) t

/-- `GEN` (R140) and its sequencing (R94). -/
def execGen (s : State) : Outcome :=
  .next ({ s with code := storeCodes (codesOf (nodeAt s.node) s.nleaf s.root) s.code }.goto .cHeader)

end Sys2Proof.Machine
end

