-- ==== Sys2Proof/Machine/Commands.lean ====
section
/-!
DEFINITION. The two commands as the host gives them: acceptance (spec/40_commands.md R90, R91). Their results (R92, R93)
come about stage by stage, by the sequencing of R94 and R95 that each stage's meaning holds.
-/

namespace Sys2Proof.Machine

/-- `COMPRESS` (R92): the command word `0x01` written to `CMD` (R90, R91). -/
def execCompress (s : State) : Outcome := launch .compress s

/-- `DECOMPRESS` (R93): the command word `0x02` written to `CMD` (R90, R91). -/
def execDecompress (s : State) : Outcome := launch .decompress s

end Sys2Proof.Machine
end

