-- ==== Sys2Proof/Machine/Decoder.lean ====
section
/-!
DEFINITION. Stages D_CHECK, D_HEADER, D_VALID, D_SUM and D_WALK, the container reader and bit unpacker
(spec/45_decoder.md). The tree between D_VALID and D_SUM is BUILD's (R174).
-/

namespace Sys2Proof.Machine

/-- `D_CHECK` (R171) and its sequencing (R95): the threshold is 2049 (spec/90 C3). -/
def execDCheck (s : State) : Outcome :=
  if s.inLen = 0 then .next s.finish
  else if s.inLen < 2049 then .next (s.raise .malformedContainer)
  else .next ({ s with bodyLen := s.inLen - 2049 }.goto .dHeader)

/-- `D_HEADER` (R172) and its sequencing (R95). -/
def execDHeader (s : State) : Outcome :=
  if s.inCap < 2048 then .fault .noSuchByte
  else .next ({ s with hist := parseHeader s.inByte }.goto .dValid)

/-- `D_VALID` (R173) and its sequencing (R95). -/
def execDValid (s : State) : Outcome :=
  match s.memReadIn Config.validBitsOffset with
  | none => .fault .noSuchByte
  | some v =>
    let s' := { s with vb := v }
    .next (if v < 1 ∨ 8 < v then s'.raise .malformedContainer else s'.goto .build)

/-- The sum of the 256 counters in 72 bits (R175). -/
def totalCount (h : Vector Counter 256) : Weight := allBytes.foldl (fun n s => n + (histAt h s).setWidth 72) 0

/-- `D_SUM` (R175) and its sequencing (R95). -/
def execDSum (s : State) : Outcome := .next ({ s with total := totalCount s.hist }.goto .dWalk)

/-- `child(i, bit)` (R179): in a single-leaf tree the root has itself as zero-branch and no one-branch. Without a leaf,
which no walk meets, there is no child. -/
def childOf (node : Idx → Option Node) (nleaf root i : Idx) (bit : Bool) : Idx :=
  if nleaf = 0 then Idx.none
  else if nleaf = 1 then if bit then Idx.none else root
  else
    match node i with
    | none => Idx.none
    | some n => if bit then n.c1 else n.c0

/-- The walk (R178). `n` counts the bits `TPOS .. AVAIL - 1` that are left, so that `TPOS = AVAIL` exactly at 0. The
total is tested before every bit, exhaustion before the bit is read, a missing child after it (R180, R206). -/
def walk : Nat → State → Outcome
  | 0, s => if s.emitted < s.total then .next (s.raise .corruptStream) else .next s.finish
  | n + 1, s =>
    if s.emitted < s.total then
      match s.bodyBit s.tpos.toNat with
      | none => .fault .noSuchByte
      | some bit =>
        let next := childOf (nodeAt s.node) s.nleaf s.root s.cur bit
        let s' := { s with tpos := s.tpos + 1 }
        match nodeAt s.node next with
        | none => .next (s'.raise .corruptStream)
        | some (.leaf _ sym _) =>
          andThen (emit sym s') fun s => walk n { s with emitted := s.emitted + 1, cur := s.root }
        | some (.internal ..) => walk n { s' with cur := next }
    else .next s.finish

/-- The registers D_WALK sets before its loop (R176, R178). -/
def State.startWalk (s : State) : State :=
  { s with
    avail := BitVec.ofNat 72 (walkableBits s.bodyLen.toNat s.vb.toNat)
    tpos := 0
    emitted := 0
    cur := s.root }

/-- `D_WALK` (R178) and its ends (R95). -/
def execDWalk (s : State) : Outcome := walk s.startWalk.avail.toNat s.startWalk

end Sys2Proof.Machine
end

