-- ==== Sys2Proof/Machine/Encoder.lean ====
section
/-!
DEFINITION. Stages C_HEADER, C_VALID and C_PACK, the container writer and bit packer (spec/44_encoder.md).
-/

namespace Sys2Proof.Machine

/-- `C_HEADER` (R151) and its sequencing (R94). -/
def execCHeader (s : State) : Outcome :=
  andThen (emitAll (headerBytes s.hist) s) fun s => .next (s.goto .cValid)

/-- `TOTBITS`: the code of a symbol whose counter is zero is not read (R152). -/
def totalBits (h : Vector Counter 256) (t : Vector Code 256) : Weight :=
  allBytes.foldl
    (fun n s => if histAt h s = 0 then n else n + (histAt h s).setWidth 72 * (codeLen (codeAt t s)).setWidth 72) 0

/-- `C_VALID` (R153) and its sequencing (R94). -/
def execCValid (s : State) : Outcome :=
  let tot := totalBits s.hist s.code
  let vb := BitVec.ofNat 8 (validBitsOf tot.toNat)
  andThen (emit vb { s with totBits := tot, vb := vb }) fun s => .next (s.goto .cPack)

/-- One code bit goes into `ACC`; a full byte is emitted (R156). -/
def packBit (bit : Bool) (s : State) : Outcome :=
  let acc := (s.acc <<< 1) ||| (BitVec.ofBool bit).setWidth 8
  let nb := s.nb + 1
  if nb = 8 then
    andThen (emit acc { s with acc := acc, nb := nb }) fun s => .next { s with acc := 0, nb := 0 }
  else .next { s with acc := acc, nb := nb }

/-- The bits of a code, first bit first (R156). -/
def packBits : List Bool → State → Outcome
  | [], s => .next s
  | b :: bs, s => andThen (packBit b s) (packBits bs)

/-- The codes of the input bytes, in order; `IPTR` is the index of the next one (R156). -/
def packBytes : List Byte → State → Outcome
  | [], s => .next s
  | b :: bs, s =>
    andThen (packBits (codeAt s.code b) s) fun s => packBytes bs { s with iptr := s.iptr + 1 }

/-- The last, partly filled byte: its bits at the high-order end, zeros below (R156, R157). -/
def flush (s : State) : Outcome :=
  if s.nb = 0 then .next s else emit (s.acc <<< (8 - s.nb.toNat)) s

/-- `C_PACK` (R155, R156) and the successful end (R94). -/
def execCPack (s : State) : Outcome :=
  if s.inCap < s.inLen then .fault .noSuchByte
  else
    andThen (packBytes s.inBytes { s with acc := 0, nb := 0, iptr := 0 }) fun s =>
      andThen (flush s) fun s => .next s.finish

end Sys2Proof.Machine
end

