-- ==== Sys2Proof/Machine/TreeBuilder.lean ====
section
/-!
DEFINITION. Stage BUILD, the Tree Builder of both commands (spec/42_tree_builder.md). The arena in use, entries
`0 .. NNODE - 1`, is built as a list (R129 leaves the structure free) and stored in `NODE`.
-/

namespace Sys2Proof.Machine

/-- The leaves, one per symbol with a non-zero counter, in ascending byte value (R121). -/
def leafNodes (h : Vector Counter 256) : List Node :=
  allBytes.filterMap fun s =>
    if histAt h s = 0 then none else some (.leaf ((histAt h s).setWidth 72) s true)

/-- `key(i) < key(j)`: the weight, then the arena index (R124). -/
def keyLt (x y : Weight × Nat) : Bool := decide (x.1 < y.1) || (decide (x.1 = y.1) && decide (x.2 < y.2))

/-- The least key among the nodes still in the priority structure; the first node of the list has index `i`
(R124, R125). -/
def leastKey : List Node → Nat → Option (Weight × Nat)
  | [], _ => none
  | n :: ns, i =>
    if n.inq then
      match leastKey ns (i + 1) with
      | none => some (n.w, i)
      | some k => if keyLt (n.w, i) k then some (n.w, i) else some k
    else leastKey ns (i + 1)

/-- `extract_min()`: the index of the least key and the arena with that node's `inq` cleared (R125). -/
def extractMin (ns : List Node) : Option (Nat × List Node) :=
  match leastKey ns 0 with
  | none => none
  | some (_, i) => some (i, ns.modify i Node.extracted)

/-- The weight of the node at index `i`. -/
def weightAt (ns : List Node) (i : Nat) : Weight := (ns[i]?.map Node.w).getD 0

/-- One pass of the merge loop: the two least nodes become the zero-branch and the one-branch of a new internal node
(R125, R126). With fewer than two nodes in the structure, which no pass of the loop meets, it changes nothing. -/
def mergePass (ns : List Node) : List Node :=
  match extractMin ns with
  | none => ns
  | some (a, ns₁) =>
    match extractMin ns₁ with
    | none => ns
    | some (b, ns₂) =>
      ns₂ ++ [.internal (weightAt ns a + weightAt ns b) (BitVec.ofNat 9 a) (BitVec.ofNat 9 b) true]

/-- `repeat n times` the merge pass (R125). -/
def mergeLoop : Nat → List Node → List Node
  | 0, ns => ns
  | n + 1, ns => mergeLoop n (mergePass ns)

/-- The arena in use after BUILD, a function of the histogram alone (R121 to R126, R130). -/
def buildNodes (h : Vector Counter 256) : List Node := mergeLoop ((leafNodes h).length - 1) (leafNodes h)

/-- `ROOT` after BUILD: `NONE` without a leaf, else the last node created (R122, R123, R125). -/
def rootOf (ns : List Node) : Idx := if ns = [] then Idx.none else BitVec.ofNat 9 (ns.length - 1)

/-- Store the arena in use in entries `0 .. NNODE - 1` of `NODE`; the entries above keep what they hold (R27). -/
def storeNodes (ns : List Node) (v : Vector Node 511) : Vector Node 511 :=
  tabulate 511 fun i => (ns[i]?).getD ((v[i]?).getD (.internal 0 0 0 false))

/-- The Tree Builder's writes: `NODE`, `NLEAF`, `NNODE`, `ROOT` (R120). -/
def State.build (s : State) : State :=
  { s with
    node := storeNodes (buildNodes s.hist) s.node
    nleaf := BitVec.ofNat 9 (leafNodes s.hist).length
    nnode := BitVec.ofNat 9 (buildNodes s.hist).length
    root := rootOf (buildNodes s.hist) }

/-- `BUILD` (R120) and its sequencing: to `GEN` in a COMPRESS (R94); in a DECOMPRESS to `D_SUM`, or to a successful
end where there is no tree (R95, R174). -/
def execBuild (s : State) : Outcome :=
  match s.op with
  | .compress => .next (s.build.goto .gen)
  | .decompress => if s.build.root = Idx.none then .next s.build.finish else .next (s.build.goto .dSum)

end Sys2Proof.Machine
end

