-- ==== Sys2Proof/Machine/Dispatch.lean ====
section
/-!
DEFINITION. The meaning of each instruction, one arm per row of spec/opcode_table.json.
-/

namespace Sys2Proof.Machine

def exec (i : Instr) (s : State) : Host.Outcome State Fault Refusal :=
  match i with
  | .compress => Sys2Proof.Machine.execCompress s
  | .decompress => Sys2Proof.Machine.execDecompress s
  | .hist => Sys2Proof.Machine.execHist s
  | .build => Sys2Proof.Machine.execBuild s
  | .gen => Sys2Proof.Machine.execGen s
  | .cHeader => Sys2Proof.Machine.execCHeader s
  | .cValid => Sys2Proof.Machine.execCValid s
  | .cPack => Sys2Proof.Machine.execCPack s
  | .dCheck => Sys2Proof.Machine.execDCheck s
  | .dHeader => Sys2Proof.Machine.execDHeader s
  | .dValid => Sys2Proof.Machine.execDValid s
  | .dSum => Sys2Proof.Machine.execDSum s
  | .dWalk => Sys2Proof.Machine.execDWalk s

end Sys2Proof.Machine
end

