-- ==== Sys2Proof/Machine/HostPort.lean ====
section
/-!
DEFINITION. The host's side of the block: its writes and reset (spec/70_reset_and_hazards.md R222, R230, spec/10_state.md
R22 to R25), what it can observe (R35), and which transaction or stage operation has the next step.
-/

namespace Sys2Proof.Machine

/-- The effect of a host transaction other than a command and a turn. A `CMD` value that names no command is reserved and
ignored (R72, R91; log entry 7). Register writes the block does not take are ignored: `STATUS` always (R23), `OUT_LEN`
always (R25, log entry 10), `IN_LEN` while `BUSY = 1` (R24, log entry 12). A buffer write while `BUSY = 1` breaks the
ownership rule and is refused (R58, log entry 12); one at or beyond the capacity faults (log entry 4). -/
def hostMove (m : HostMove) (s : State) : Outcome :=
  match m with
  | .writeCmd _ => .next s
  | .writeStatus _ => .next s
  | .writeOutLen _ => .next s
  | .turn => .next s
  | .writeInLen v => if s.busy then .next s else .next { s with inLen := v }
  | .writeIn a v =>
    if s.busy then .refused .hostBreaksOwnership
    else if a < s.inCap.toNat then .next { s with inMem := s.inMem.write a v }
    else .fault .noSuchByte
  | .writeOut a v =>
    if s.busy then .refused .hostBreaksOwnership
    else if a < s.outCap.toNat then .next { s with outMem := s.outMem.write a v }
    else .fault .noSuchByte
  | .reset => .next s.resetEvent

/-- Who has the next step, and the state without the transaction it uses up. -/
inductive Turn where
  /-- The block runs the instruction. -/
  | run (i : Instr) (s : State)
  /-- The host performs the transaction. -/
  | host (m : HostMove) (s : State)
  /-- The block waits in `IDLE`. -/
  | wait (s : State)

/-- The block's own turn: the stage operation that `PHASE` selects (R21, R82), or none in `IDLE` (R220). -/
def stageTurn (s : State) : Turn :=
  match decodePhase s.phase.code with
  | .ok i => .run i s
  | .error _ => .wait s

/-- The next step's turn: the host's next transaction if there is one, else the block's. A `CMD` write of a command word
runs the command. -/
def nextTurn (s : State) : Turn :=
  match s.host with
  | [] => stageTurn s
  | m :: rest =>
    match m with
    | .turn => stageTurn { s with host := rest }
    | .writeCmd v =>
      match decodeCmd v with
      | .ok i => .run i { s with host := rest }
      | .error _ => .host m { s with host := rest }
    | _ => .host m { s with host := rest }

/-!
## What the host can observe (R35)

While `BUSY = 0` the rules give these reads. While `BUSY = 1` the host may read `STATUS` alone (R97, R230): that a read of
`IN_LEN`, `OUT_LEN` or `OUT` then gives what the register or buffer holds at that moment is the model's choice (DESIGN
CHOICE, log entry 17). R35 lists no read of `IN`, R50 and R230 give one to an idle host: `State.readIn` (log entry 18).
-/

/-- A read of `CMD` gives 0 (R22). -/
def State.readCmd (_ : State) : BitVec 8 := 0

/-- A read of `STATUS` (R23). -/
def State.readStatus (s : State) : BitVec 8 := s.status

/-- A read of `IN_LEN` (R24). R24 gives it for `BUSY = 0`; that a read while busy gives the same register is log entry 17. -/
def State.readInLen (s : State) : InLen := s.inLen

/-- A read of `OUT_LEN` (R25). The host may rely on it only while `DONE = 1`; that a read while busy gives the bytes appended
so far is log entry 17. -/
def State.readOutLen (s : State) : OutLen := s.outLen

/-- A host read of `IN` at address `a`; there is no byte at or beyond `IN_CAP` (R34). R50 and R230 give the read for
`BUSY = 0`; that it gives the byte the block would read, and gives it while busy too, is the model's choice (DESIGN CHOICE,
log entry 18). -/
def State.readIn (s : State) (a : Nat) : Option Byte := s.memReadIn a

/-- The byte of `OUT` at address `a`; at or beyond `OUT_LEN` it is unspecified and has no value (R34, spec/93 U3). A host read
while `BUSY = 1` is undefined (R58, spec/93 U4); that it gives a byte appended so far is log entry 17. -/
def State.outByte (s : State) (a : Nat) : Option Byte :=
  if a < s.outLen.toNat then s.outMem.read a else none

/-- `OUT[0 .. OUT_LEN)`, the result of an operation that ended well (R34). -/
def State.outBytes (s : State) : List (Option Byte) := (List.range s.outLen.toNat).map s.outByte

end Sys2Proof.Machine
end

