-- ==== Sys2Proof/Machine/Step.lean ====
section
/-!
DEFINITION. One step of the machine: the host's next transaction, or the stage operation `PHASE` selects
(spec/40_commands.md R94, R95), or waiting in `IDLE` (spec/70_reset_and_hazards.md R220).
-/

namespace Sys2Proof.Machine

/-- One step. -/
def step (s : State) : Host.Outcome State Fault Refusal :=
  match nextTurn s with
  | .run i s' => exec i s'
  | .host m s' => hostMove m s'
  | .wait s' => .next s'

/-- The state whose next step fetches the word: a command word as the host's next write to `CMD`, a phase code in
`PHASE` with the next turn the block's (log entry 9). -/
def State.withFetchWord (s : State) (nbits w : Nat) : State :=
  match (tableWord nbits w).format with
  | .cmdw => { s with host := .writeCmd (BitVec.ofNat 8 w) :: s.host }
  | .phase => { s with phase := phaseOfCode w, host := .turn :: s.host }

end Sys2Proof.Machine
end

