-- ==== Sys2Proof/Machine/Codec.lean ====
section
/-!
DEFINITION. The block as two functions on byte sequences (spec/00_scope.md R12): `compress` (spec/40_commands.md R92) and
`decompress` (R93), with unbounded counts in place of registers (R6). The machine does not use them; statements compare
its runs with them.
-/

namespace Sys2Proof.Machine

/-- The node at an index of an arena given as a list. -/
def listNode (ns : List Node) (i : Idx) : Option Node := ns[i.toNat]?

/-- The code table of a histogram: `gen(build(H))` (R92); a symbol without a leaf has the empty string here. -/
def codeTable (h : Vector Counter 256) : Vector Code 256 :=
  storeCodes (codesOf (listNode (buildNodes h)) (BitVec.ofNat 9 (leafNodes h).length) (rootOf (buildNodes h)))
    (tabulate 256 fun _ => [])

/-- The body bit string `B = code(S[0]) ++ code(S[1]) ++ ...` (R77). -/
def bodyBits (bytes : List Byte) : List Bool := bytes.flatMap (codeAt (codeTable (histogram bytes)))

/-- The byte of at most eight bits, the first in bit 7, zeros below the last (R77). -/
def byteOf (bits : List Bool) : Byte := BitVec.ofNat 8 (codeValue (bits ++ List.replicate (8 - bits.length) false))

/-- `n` bytes of the bit string, eight bits to a byte (R77). -/
def packedBytes : Nat → List Bool → List Byte
  | 0, _ => []
  | n + 1, bits => byteOf (bits.take 8) :: packedBytes n (bits.drop 8)

/-- The body of a bit string: `ceil(|B| / 8)` bytes (R77). -/
def pack (bits : List Bool) : List Byte := packedBytes ((bits.length + 7) / 8) bits

/-- `compress(S)` (R92). -/
def compress (bytes : List Byte) : List Byte :=
  if bytes = [] then []
  else
    headerBytes (histogram bytes) ++ [BitVec.ofNat 8 (validBitsOf (bodyBits bytes).length)] ++ pack (bodyBits bytes)

/-- The walk of R178 over a list of bits: `n` symbols are still to be emitted and the walk stands at node `cur`. -/
def walkBits (node : Idx → Option Node) (nleaf root : Idx) : Nat → Idx → List Bool → Except ErrKind (List Byte)
  | 0, _, _ => .ok []
  | _ + 1, _, [] => .error .corruptStream
  | n + 1, cur, bit :: bits =>
    match node (childOf node nleaf root cur bit) with
    | none => .error .corruptStream
    | some (.leaf _ sym _) => (walkBits node nleaf root n root bits).map (sym :: ·)
    | some (.internal ..) => walkBits node nleaf root (n + 1) (childOf node nleaf root cur bit) bits

/-- The sum of the counters as a number (R93). -/
def countSum (h : Vector Counter 256) : Nat := (allBytes.map fun s => (histAt h s).toNat).sum

/-- `decompress(C)` (R93). -/
def decompress (c : List Byte) : Except ErrKind (List Byte) :=
  if c.length = 0 then .ok []
  else if c.length < 2049 then .error .malformedContainer
  else
    let byteAt := fun a => c.getD a 0
    let h := parseHeader byteAt
    let vb := byteAt Config.validBitsOffset
    if vb < 1 ∨ 8 < vb then .error .malformedContainer
    else if buildNodes h = [] then .ok []
    else
      let body := c.drop Config.bodyOffset
      let bits := (List.range (walkableBits body.length vb.toNat)).map (bodyBitOf fun j => body.getD j 0)
      walkBits (listNode (buildNodes h)) (BitVec.ofNat 9 (leafNodes h).length) (rootOf (buildNodes h))
        (countSum h) (rootOf (buildNodes h)) bits

end Sys2Proof.Machine
end

