-- ==== Sys2Proof/Safety.lean ====
section
/-!
DEFINITION. What statements about HUFFCODEC are made of: the invariant of every state (spec/10_state.md R23, R25, R34,
spec/40_commands.md R94, R95), what each stage may rely on (R94, R95, spec/10_state.md R36), and the reading of a tree by
following bits (spec/43_code_generator.md R141).
-/

namespace Sys2Proof.Machine

/-- The phases an operation passes through (R94, R95). -/
def Op.stages : Op → List Phase
  | .compress => [.hist, .build, .gen, .cHeader, .cValid, .cPack]
  | .decompress => [.dCheck, .dHeader, .dValid, .build, .dSum, .dWalk]

/-- What holds of every state that steps lead to from reset. -/
structure State.Inv (s : State) : Prop where
  /-- Both buffers are in canonical form. -/
  inWf : s.inMem.wf
  outWf : s.outMem.wf
  /-- No byte stands at or beyond a buffer's capacity (R34). -/
  inBound : ∀ c ∈ s.inMem, c.1 < s.inCap.toNat
  outBound : ∀ c ∈ s.outMem, c.1 < s.outCap.toNat
  /-- The bytes `OUT[0 .. OUT_LEN)` exist and have been written (R25, R34). -/
  outFits : s.outLen ≤ s.outCap
  outWritten : ∀ a < s.outLen.toNat, (s.outMem.read a).isSome
  /-- `BUSY` and `DONE` are never both 1 (R23). -/
  notBusyDone : ¬ (s.busy ∧ s.done)
  /-- `ERR` is `NONE` until an operation has ended (R90, R97). -/
  errOnlyDone : s.done = false → s.err = .none
  /-- After an error there is no output (R204, R205). -/
  errNoOutput : s.err ≠ .none → s.outLen = 0
  /-- The phase is one of the latched command's (R94, R95). -/
  phaseOfOp : s.busy → s.phase ∈ s.op.stages
  /-- The operation in progress was launched with its input inside `IN` (R7, spec/93 U5). -/
  inFits : s.busy → s.inLen ≤ s.inCap
  /-- No code is longer than 255 bits (R5, R28). -/
  codeBound : ∀ c ∈ s.code, c.length ≤ Config.maxCodeLen

/-- The state is past the header checks of a DECOMPRESS, in the phases that follow `D_VALID` or in `BUILD` on its way. -/
def State.pastValid (s : State) : Prop := (s.phase = .build ∧ s.op = .decompress) ∨ s.phase = .dSum ∨ s.phase = .dWalk

/-- The state is past `BUILD`. -/
def State.pastBuild (s : State) : Prop := s.phase ∈ [.gen, .cHeader, .cValid, .cPack, .dSum, .dWalk]

/-- What each stage finds done by those before it (R94, R95). -/
structure State.StageInv (s : State) : Prop where
  /-- Nothing is written before `C_HEADER` and before `D_WALK` (R90, R150, R178). -/
  nothingOut : s.busy → s.phase ≠ .cValid → s.phase ≠ .cPack → s.outLen = 0
  /-- After `HIST` of a non-empty input `HIST` holds its counts (R110). -/
  counted : (s.phase = .build ∧ s.op = .compress) ∨ s.phase ∈ [.gen, .cHeader, .cValid, .cPack] →
    s.inLen ≠ 0 ∧ s.hist = histogram s.inBytes
  /-- After `D_CHECK` the container has at least 2049 bytes and `BODY_LEN` is what is above (R171). -/
  longEnough : s.pastValid ∨ s.phase = .dHeader ∨ s.phase = .dValid → 2049 ≤ s.inLen ∧ s.bodyLen = s.inLen - 2049
  /-- After `D_HEADER` `HIST` holds the header's counters (R172). -/
  parsed : s.pastValid ∨ s.phase = .dValid → s.hist = parseHeader s.inByte
  /-- After `D_VALID` `VB` is the container's valid-bits byte, in `1 .. 8` (R173). -/
  validBits : s.pastValid → s.vb = s.inByte 2048 ∧ 1 ≤ s.vb ∧ s.vb ≤ 8
  /-- After `BUILD` the arena is the tree of `HIST` (R120). -/
  built : s.pastBuild →
    s.node = storeNodes (buildNodes s.hist) s.node ∧ s.nleaf = BitVec.ofNat 9 (leafNodes s.hist).length ∧
    s.nnode = BitVec.ofNat 9 (buildNodes s.hist).length ∧ s.root = rootOf (buildNodes s.hist)
  /-- `D_SUM` and `D_WALK` run only where there is a tree (R174). -/
  hasTree : s.phase = .dSum ∨ s.phase = .dWalk → s.root ≠ Idx.none
  /-- After `GEN` the code table holds the tree's codes (R140). -/
  coded : s.phase ∈ [.cHeader, .cValid, .cPack] →
    s.code = storeCodes (codesOf (nodeAt s.node) s.nleaf s.root) s.code
  /-- After `C_HEADER` the header stands in `OUT` (R151). -/
  headerOut : s.phase = .cValid ∨ s.phase = .cPack → ∀ a < 2048, s.outMem.read a = (headerBytes s.hist)[a]?
  headerLen : s.phase = .cValid → s.outLen = 2048
  /-- After `C_VALID` so does the valid-bits byte (R153). -/
  validOut : s.phase = .cPack →
    s.outLen = 2049 ∧ s.totBits = totalBits s.hist s.code ∧ s.vb = BitVec.ofNat 8 (validBitsOf s.totBits.toNat) ∧
    s.outMem.read 2048 = some s.vb
  /-- After `D_SUM` `TOTAL` is the sum of the counters (R175). -/
  summed : s.phase = .dWalk → s.total = totalCount s.hist

/-- The node reached from node `i` by the bits of a path, a `0` bit to the zero-branch and a `1` bit to the one-branch
(R141). -/
def follow (node : Idx → Option Node) : Idx → List Bool → Option Idx
  | i, [] => some i
  | i, b :: bs =>
    match node i with
    | some (.internal _ c0 c1 _) => follow node (if b then c1 else c0) bs
    | _ => none

/-- The body bits a walk of the state may read (R176, R177). -/
def State.walkable (s : State) : List Bool :=
  (List.range (walkableBits s.bodyLen.toNat s.vb.toNat)).map (bodyBitOf fun j => s.inByte (Config.bodyOffset + j))

/-- The bytes `OUT[0 .. OUT_LEN)` are those of the list. -/
def State.outputIs (s : State) (bytes : List Byte) : Prop := s.outBytes = bytes.map some

/-- The operation in progress in `s` has ended well in `t` (R96): only the result, the tables and the working registers
may differ; the result is said separately. -/
structure EndedOk (s t : State) : Prop where
  done : t.done = true
  err : t.err = .none
  idle : t.phase = .idle
  inLen : t.inLen = s.inLen
  inMem : t.inMem = s.inMem
  inCap : t.inCap = s.inCap
  outCap : t.outCap = s.outCap
  host : t.host = s.host
  era : t.era = s.era

/-- The operation in progress in `s` has ended in `t` with the error `e` (R204). -/
structure EndedErr (s t : State) (e : ErrKind) : Prop where
  done : t.done = true
  err : t.err = e
  idle : t.phase = .idle
  outLen : t.outLen = 0
  noOutput : ∀ a, t.outByte a = none
  inLen : t.inLen = s.inLen
  inMem : t.inMem = s.inMem
  inCap : t.inCap = s.inCap
  outCap : t.outCap = s.outCap
  host : t.host = s.host
  era : t.era = s.era

/-- From `s` to `t` the bytes `vs` have been appended to `OUT`, and every other byte of `OUT` is as before (R57). -/
structure Appended (s t : State) (vs : List Byte) : Prop where
  outLen : t.outLen.toNat = s.outLen.toNat + vs.length
  written : ∀ j < vs.length, t.outMem.read (s.outLen.toNat + j) = vs[j]?
  others : ∀ a, a < s.outLen.toNat ∨ s.outLen.toNat + vs.length ≤ a → t.outMem.read a = s.outMem.read a

/-- `n` steps, stopping at the first fault or refusal. -/
def steps : Nat → State → Outcome
  | 0, s => .next s
  | n + 1, s => andThen (step s) (steps n)

/-- The state is idle and the host's only transaction to come is a write of `v` to `CMD`. -/
def State.launches (s : State) (v : BitVec 8) : Prop := s.phase = .idle ∧ s.host = [.writeCmd v]

end Sys2Proof.Machine
end

