-- ==== Sys2Proof/Certificates/Slice0/Obligations.lean ====
section
/-!
DEFINITION. The statements for the provers, from the numbered rules of spec/.
-/

open Sys2Proof Sys2Proof.Machine

/-! ## Encodings -/

/-- R71: a value of `CMD` is COMPRESS exactly at `0x01` and DECOMPRESS exactly at `0x02`; every other value is reserved. -/
def Obligations.CommandOpcodeMap : Prop :=
  ∀ v : BitVec 8,
    (decodeCmd v = .ok .compress ↔ v = 0x01) ∧ (decodeCmd v = .ok .decompress ↔ v = 0x02) ∧
    (v ≠ 0x01 → v ≠ 0x02 → decodeCmd v = .error (.reservedCommand v))

/-- R71, R82: the words of the opcode table, written out, decode to their rows' instructions; the phase codes that name no
stage decode to none. -/
def Obligations.WrittenWordsDecode : Prop :=
  decode ⟨.cmdw, 0b00000001⟩ = .ok .compress ∧ decode ⟨.cmdw, 0b00000010⟩ = .ok .decompress ∧
  decode ⟨.phase, 0b0001⟩ = .ok .hist ∧ decode ⟨.phase, 0b0010⟩ = .ok .build ∧ decode ⟨.phase, 0b0011⟩ = .ok .gen ∧
  decode ⟨.phase, 0b0100⟩ = .ok .cHeader ∧ decode ⟨.phase, 0b0101⟩ = .ok .cValid ∧
  decode ⟨.phase, 0b0110⟩ = .ok .cPack ∧ decode ⟨.phase, 0b1000⟩ = .ok .dCheck ∧
  decode ⟨.phase, 0b1001⟩ = .ok .dHeader ∧ decode ⟨.phase, 0b1010⟩ = .ok .dValid ∧
  decode ⟨.phase, 0b1011⟩ = .ok .dSum ∧ decode ⟨.phase, 0b1100⟩ = .ok .dWalk ∧
  ∀ c ∈ [0, 7, 13, 14, 15], ∀ i, decode ⟨.phase, c⟩ ≠ .ok i

/-- Decoding and encoding agree in both directions, and exactly the well-formed words decode. -/
def Obligations.DecodeEncodeAgree : Prop :=
  (∀ i, decode (encode i) = .ok i) ∧ (∀ w i, decode w = .ok i → w = encode i) ∧
  ∀ w : TableWord, w.WellFormed = true ↔ ∃ i, decode w = .ok i

/-- R75: a header is the 256 counters, least significant byte first; a parsed counter is the sum of its eight bytes by their
powers of 256; parsing a header gives the histogram back, and every 2048 bytes are the header of the histogram they parse
to. -/
def Obligations.HeaderRoundTrip : Prop :=
  (∀ h s b, s < 256 → b < 8 →
    (headerBytes h)[8 * s + b]? = some ((histAt h (BitVec.ofNat 8 s) >>> (8 * b)).setWidth 8)) ∧
  (∀ (byteAt : Nat → Byte) (s : Byte), (histAt (parseHeader byteAt) s).toNat =
    ((List.range 8).map fun b => (byteAt (8 * s.toNat + b)).toNat * 2 ^ (8 * b)).sum) ∧
  (∀ h, (headerBytes h).length = 2048 ∧ parseHeader (fun a => (headerBytes h).getD a 0) = h) ∧
  ∀ byteAt : Nat → Byte, headerBytes (parseHeader byteAt) = (List.range 2048).map byteAt

/-- R52, R77: body bit `t` of a packed bit string is its bit `t`; the bits after the last are 0; the body has
`ceil(|B| / 8)` bytes. -/
def Obligations.BodyBitOrder : Prop :=
  ∀ bits : List Bool,
    (pack bits).length = (bits.length + 7) / 8 ∧
    (∀ t < bits.length, some (bodyBitOf (fun j => (pack bits).getD j 0) t) = bits[t]?) ∧
    ∀ t, bits.length ≤ t → bodyBitOf (fun j => (pack bits).getD j 0) t = false

/-! ## Steps, reset and the host -/

/-- A step runs the decoded instruction: a command word the host writes to `CMD`, or, at the block's turn, the stage
operation `PHASE` selects (R21, R82, R90). In `IDLE` with nothing from the host the block waits (R220). -/
def Obligations.StepRunsDecoded : Prop :=
  (∀ (s : State) v rest i, s.host = .writeCmd v :: rest → decodeCmd v = .ok i →
    step s = exec i { s with host := rest }) ∧
  (∀ (s : State) i, s.host = [] → decodePhase s.phase.code = .ok i → step s = exec i s) ∧
  (∀ (s : State) rest i, s.host = .turn :: rest → decodePhase s.phase.code = .ok i →
    step s = exec i { s with host := rest }) ∧
  ∀ s : State, s.host = [] → s.phase = .idle → step s = .next s

/-- R220: after reset the block is idle, `STATUS`, `IN_LEN` and `OUT_LEN` are 0, and it waits. -/
def Obligations.ResetLeavesIdle : Prop :=
  State.reset.phase = .idle ∧ State.reset.status = 0 ∧ State.reset.inLen = 0 ∧ State.reset.outLen = 0 ∧
  State.reset.host = [] ∧ step State.reset = .next State.reset

/-- R222: a reset, also while busy, abandons the operation: idle, no `DONE`, no `ERR`, lengths 0, no byte of `OUT`. -/
def Obligations.ResetFromAnyState : Prop :=
  ∀ (s : State) rest, s.host = .reset :: rest →
    ∃ t, step s = .next t ∧ t.phase = .idle ∧ t.status = 0 ∧ t.inLen = 0 ∧ t.outLen = 0 ∧
      (∀ a, t.outByte a = none) ∧ t.host = rest ∧ t.inCap = s.inCap ∧ t.outCap = s.outCap

/-- R90: acceptance of a command in `IDLE`, one event, completely. That the launch asks for `IN_LEN <= IN_CAP` is
spec/93 U5; that the bytes of `OUT`, now beyond `OUT_LEN`, have no value is log entry 11. -/
def Obligations.CommandAccepted : Prop :=
  ∀ s : State, s.phase = .idle → s.inLen ≤ s.inCap →
    exec .compress s =
      .next { s with op := .compress, done := false, err := .none, outLen := 0, outMem := [], phase := .hist } ∧
    exec .decompress s =
      .next { s with op := .decompress, done := false, err := .none, outLen := 0, outMem := [], phase := .dCheck }

/-- R91: a `CMD` write while `BUSY = 1`, or of a reserved value, changes no state but that the host's transaction is
over. For reserved values spec/93 U1 advises a refusal; the model follows the rule (log entry 7). -/
def Obligations.CommandNotAccepted : Prop :=
  (∀ s : State, s.busy = true → exec .compress s = .next s ∧ exec .decompress s = .next s) ∧
  ∀ (s : State) v rest, s.host = .writeCmd v :: rest → s.busy = true ∨ (v ≠ 0x01 ∧ v ≠ 0x02) →
    step s = .next { s with host := rest }

/-- spec/93 U5: a launch with `IN_LEN > IN_CAP` is refused. -/
def Obligations.LaunchBeyondCapacityRefused : Prop :=
  ∀ s : State, s.phase = .idle → s.inCap < s.inLen →
    exec .compress s = .refused .inputBeyondCapacity ∧ exec .decompress s = .refused .inputBeyondCapacity

/-- R23: the bits of `STATUS`; `ERR` is never 3 and bits 7:4 are 0. -/
def Obligations.StatusRegisterLayout : Prop :=
  ∀ s : State,
    s.status.getLsbD 0 = decide (s.phase ≠ .idle) ∧ s.status.getLsbD 1 = s.done ∧
    s.status.extractLsb' 2 2 = s.err.code ∧ s.err.code ≠ 3 ∧ s.status.extractLsb' 4 4 = 0

/-- R23, R24: writes to `STATUS` are ignored; a write to `IN_LEN` is taken in `IDLE` and ignored while busy. That writes
to the read-only `OUT_LEN` (R25) are ignored is the model's choice (log entry 10). -/
def Obligations.HostRegisterWrites : Prop :=
  (∀ (s : State) v rest, s.host = .writeStatus v :: rest → step s = .next { s with host := rest }) ∧
  (∀ (s : State) v rest, s.host = .writeOutLen v :: rest → step s = .next { s with host := rest }) ∧
  (∀ (s : State) v rest, s.host = .writeInLen v :: rest → s.busy = true → step s = .next { s with host := rest }) ∧
  ∀ (s : State) v rest, s.host = .writeInLen v :: rest → s.busy = false →
    step s = .next { s with host := rest, inLen := v }

/-- R34, R58, R230: while idle the host writes a byte of `IN` or `OUT`, below the length or beyond it (R223: the bytes may
come before `IN_LEN`); it is stored, reads back where the length covers it, and every other byte and register is as before.
The model's choices: while busy, where R58 leaves the write undefined, it is refused (log entry 12); at or beyond the
capacity, where there is no byte, it faults (log entry 4). -/
def Obligations.HostBufferWrites : Prop :=
  (∀ (s : State) a v rest, s.host = .writeIn a v :: rest → s.busy = false → a < s.inCap.toNat →
    ∃ t, step s = .next t ∧ t = { s with host := rest, inMem := t.inMem } ∧
      t.inMem.read a = some v ∧ (∀ b, b ≠ a → t.inMem.read b = s.inMem.read b) ∧
      (a < s.inLen.toNat → t.inByte a = v) ∧ ∀ b, b ≠ a → t.inByte b = s.inByte b) ∧
  (∀ (s : State) a v rest, s.host = .writeOut a v :: rest → s.busy = false → a < s.outCap.toNat →
    ∃ t, step s = .next t ∧ t = { s with host := rest, outMem := t.outMem } ∧
      t.outMem.read a = some v ∧ (∀ b, b ≠ a → t.outMem.read b = s.outMem.read b) ∧
      (a < s.outLen.toNat → t.outByte a = some v) ∧ ∀ b, b ≠ a → t.outByte b = s.outByte b) ∧
  (∀ (s : State) a v rest, s.host = .writeIn a v :: rest ∨ s.host = .writeOut a v :: rest → s.busy = true →
    step s = .refused .hostBreaksOwnership) ∧
  (∀ (s : State) a v rest, s.host = .writeIn a v :: rest → s.busy = false → s.inCap.toNat ≤ a →
    step s = .fault .noSuchByte) ∧
  ∀ (s : State) a v rest, s.host = .writeOut a v :: rest → s.busy = false → s.outCap.toNat ≤ a →
    step s = .fault .noSuchByte

/-! ## Rules about every instruction -/

/-- R96: `IN` and `IN_LEN` are unchanged by any operation (R24: the block never writes `IN_LEN`; R34: it only reads `IN`);
so are the capacities and the host's coming transactions. -/
def Obligations.InputUntouched : Prop :=
  ∀ i s t, exec i s = .next t →
    t.inLen = s.inLen ∧ t.inMem = s.inMem ∧ t.inCap = s.inCap ∧ t.outCap = s.outCap ∧ t.host = s.host ∧
    (∀ a, t.inByte a = s.inByte a)

/-- R23: `DONE` and `ERR` are written only by the end of an operation and cleared only by an accepted command. -/
def Obligations.DoneAndErrOnlyAtEnds : Prop :=
  ∀ i s t, exec i s = .next t →
    (t.done = s.done ∧ t.err = s.err) ∨ (t.done = true ∧ t.phase = .idle) ∨
    ((i = .compress ∨ i = .decompress) ∧ s.phase = .idle ∧ t.phase ≠ .idle ∧ t.done = false ∧ t.err = .none)

/-- R200: the complete list of causes. MalformedContainer comes exactly from D_CHECK at `1 <= IN_LEN <= 2048` and from
D_VALID at a valid-bits byte of 0 or 9 to 255; CorruptStream only from D_WALK. -/
def Obligations.ErrorCauses : Prop :=
  ∀ i s t, s.err = .none → exec i s = .next t →
    (t.err = .malformedContainer ↔
      (i = .dCheck ∧ 1 ≤ s.inLen ∧ s.inLen ≤ 2048) ∨ (i = .dValid ∧ (s.inByte 2048 = 0 ∨ 9 ≤ s.inByte 2048))) ∧
    (t.err = .corruptStream → i = .dWalk)

/-- R204, R185: an operation that ends in error has `OUT_LEN = 0`, no output, `DONE = 1`, its `ERR` code, and is idle. -/
def Obligations.ErrorEndVoidsOutput : Prop :=
  ∀ i s t, s.err = .none → exec i s = .next t → t.err ≠ .none →
    EndedErr s t t.err ∧ (t.err.code = 1 ∨ t.err.code = 2)

/-- R57: `OUT` is append-only. Where an instruction does not set `OUT_LEN` to 0 and void the contents (acceptance, error
end), the bytes below the old `OUT_LEN` are as before, and only bytes from it to the new `OUT_LEN` are written. -/
def Obligations.OutAppendOnly : Prop :=
  ∀ i s t, exec i s = .next t →
    (t.outLen = 0 ∧ t.outMem = []) ∨
    (s.outLen ≤ t.outLen ∧
      ∀ a, t.outMem.read a ≠ s.outMem.read a → s.outLen.toNat ≤ a ∧ a < t.outLen.toNat)

/-! ## HIST -/

/-- R110: `HIST` of a non-empty input counts every byte value, and goes on to `BUILD`; nothing else changes but `IPTR`. -/
def Obligations.HistCounts : Prop :=
  ∀ s : State, s.inLen ≠ 0 → s.inLen ≤ s.inCap →
    ∃ t, exec .hist s = .next t ∧ t = { s with hist := t.hist, iptr := t.iptr, phase := .build } ∧
      (∀ b, (histAt t.hist b).toNat = s.inBytes.count b) ∧ countSum t.hist = s.inLen.toNat

/-- R113: `HIST` of an empty input ends the operation with what `OUT` held, that is nothing in a COMPRESS. -/
def Obligations.HistOfEmptyEnds : Prop :=
  ∀ s : State, s.inLen = 0 → ∃ t, exec .hist s = .next t ∧ EndedOk s t ∧ t.outLen = s.outLen ∧ t.outMem = s.outMem

/-! ## BUILD -/

/-- R94, R95, R174: `BUILD` writes the arena and its three registers and goes to `GEN` in a COMPRESS, to `D_SUM` in a
DECOMPRESS with a tree, and ends a DECOMPRESS whose histogram is all zero. What it writes is `State.build`'s tree. That
entries at or above `NNODE`, unspecified by R27, keep what they hold is the model's choice (log entry 16). -/
def Obligations.BuildFrame : Prop :=
  ∀ s : State,
    (s.op = .compress → ∃ t, exec .build s = .next t ∧
      t = { s with node := t.node, nleaf := t.nleaf, nnode := t.nnode, root := t.root, phase := .gen } ∧
      t.node = s.build.node ∧ t.nleaf = s.build.nleaf ∧ t.nnode = s.build.nnode ∧ t.root = s.build.root ∧
      ∀ i, t.nnode.toNat ≤ i → t.node[i]? = s.node[i]?) ∧
    (s.op = .decompress → (∃ b, histAt s.hist b ≠ 0) → ∃ t, exec .build s = .next t ∧
      t = { s with node := t.node, nleaf := t.nleaf, nnode := t.nnode, root := t.root, phase := .dSum } ∧
      t.node = s.build.node ∧ t.nleaf = s.build.nleaf ∧ t.nnode = s.build.nnode ∧ t.root = s.build.root ∧
      t.root ≠ Idx.none ∧ ∀ i, t.nnode.toNat ≤ i → t.node[i]? = s.node[i]?) ∧
    (s.op = .decompress → (∀ b, histAt s.hist b = 0) → ∃ t, exec .build s = .next t ∧ EndedOk s t ∧
      t.outLen = s.outLen ∧ t.outMem = s.outMem)

/-- R124: extract-min returns the node in the structure with the least key, the weight and at equal weights the index, and
removes that node alone from the structure (its `inq` becomes 0, R125); there is one exactly where some node is in the
structure. -/
def Obligations.ExtractMinIsLeast : Prop :=
  ∀ ns : List Node,
    (∀ i ns', extractMin ns = some (i, ns') →
      ∃ n, ns[i]? = some n ∧ n.inq = true ∧ leastKey ns 0 = some (n.w, i) ∧
        (∀ j m, ns[j]? = some m → m.inq = true → j ≠ i → n.w < m.w ∨ (n.w = m.w ∧ i < j)) ∧
        ns' = ns.modify i Node.extracted ∧ ns'[i]? = some n.extracted ∧ n.extracted.inq = false ∧
        ∀ j, j ≠ i → ns'[j]? = ns[j]?) ∧
    (extractMin ns = none ↔ ∀ n ∈ ns, n.inq = false) ∧ (leastKey ns 0 = none ↔ ∀ n ∈ ns, n.inq = false)

/-- R125, R126: a merge pass takes the node with the least key as zero-branch and the one with the least key of the rest
as one-branch of a new last node whose weight is their sum. -/
def Obligations.MergePassChildren : Prop :=
  ∀ (ns : List Node) (a b : Nat) (wa wb : Weight), leastKey ns 0 = some (wa, a) →
    leastKey (ns.modify a Node.extracted) 0 = some (wb, b) →
    keyLt (wa, a) (wb, b) = true ∧
    mergePass ns = ((ns.modify a Node.extracted).modify b Node.extracted) ++
      [.internal (wa + wb) (BitVec.ofNat 9 a) (BitVec.ofNat 9 b) true]

/-- R128: the shape of the arena for `k >= 1` leaves: `2k - 1` nodes; the leaves first, in ascending byte value; then the
internal nodes, with children of smaller index and non-decreasing weights; every node but the root the child of exactly
one internal node; the root last. -/
def Obligations.TreeShape : Prop :=
  ∀ h : Vector Counter 256, (∃ b, histAt h b ≠ 0) →
    let ns := buildNodes h
    let k := (leafNodes h).length
    1 ≤ k ∧ k ≤ 256 ∧ ns.length = 2 * k - 1 ∧ (rootOf ns).toNat = 2 * k - 2 ∧
    (∀ i < k, ∃ b q, (allBytes.filter fun b => histAt h b != 0)[i]? = some b ∧
      ns[i]? = some (.leaf ((histAt h b).setWidth 72) b q)) ∧
    (∀ i, k ≤ i → i < 2 * k - 1 → ∃ w c0 c1 q, ns[i]? = some (.internal w c0 c1 q) ∧ c0.toNat < i ∧ c1.toNat < i ∧
      c0 ≠ c1) ∧
    (∀ j < 2 * k - 2, ∃! i : Nat, ∃ n : Node, ns[i]? = some n ∧ (n.c0.toNat = j ∨ n.c1.toNat = j)) ∧
    ∀ i j, k ≤ i → i ≤ j → j < 2 * k - 1 → (weightAt ns i).toNat ≤ (weightAt ns j).toNat

/-- R36: the invariants of the tree after `BUILD` with at least one leaf. -/
def Obligations.TreeInvariants : Prop :=
  ∀ s : State, (∃ b, histAt s.hist b ≠ 0) →
    let t := s.build
    (∀ i w c0 c1 q, i.toNat < t.nnode.toNat → nodeAt t.node i = some (.internal w c0 c1 q) →
      c0 ≠ Idx.none ∧ c1 ≠ Idx.none ∧ ∃ m n, nodeAt t.node c0 = some m ∧ nodeAt t.node c1 = some n ∧
        w.toNat = m.w.toNat + n.w.toNat) ∧
    (∀ i w b q, i.toNat < t.nnode.toNat → nodeAt t.node i = some (.leaf w b q) →
      histAt s.hist b ≠ 0 ∧ (Node.leaf w b q).c0 = Idx.none ∧ (Node.leaf w b q).c1 = Idx.none) ∧
    (∀ b, histAt s.hist b ≠ 0 →
      ∃! i : Idx, i.toNat < t.nnode.toNat ∧ ∃ w q, nodeAt t.node i = some (.leaf w b q)) ∧
    1 ≤ t.nleaf.toNat ∧ t.nleaf.toNat ≤ 256 ∧
    (∃ n, nodeAt t.node t.root = some n ∧ n.w.toNat = countSum s.hist) ∧
    (t.nleaf = 1 → t.nnode = 1 ∧ t.root = 0)

/-- R130: `BUILD` reads nothing but `HIST`: from equal histograms it makes the same tree. -/
def Obligations.BuildReadsOnlyHist : Prop :=
  ∀ s t : State, s.hist = t.hist →
    s.build.nleaf = t.build.nleaf ∧ s.build.nnode = t.build.nnode ∧ s.build.root = t.build.root ∧
    ∀ i : Idx, i.toNat < s.build.nnode.toNat → nodeAt s.build.node i = nodeAt t.build.node i

/-! ## GEN -/

/-- R94, R140: `GEN` writes `CODE` alone and goes on to `C_HEADER`. -/
def Obligations.GenFrame : Prop :=
  ∀ s : State, ∃ t, exec .gen s = .next t ∧ t = { s with code := t.code, phase := .cHeader }

/-- R140, R141, R142: after a `BUILD` with a tree, `GEN` gives each symbol that has a leaf the path from the root to it,
`"0"` in a single-leaf tree. That the entries of the other symbols, unspecified by R28, keep what they hold is the model's
choice (log entry 16). -/
def Obligations.GenAssignsPaths : Prop :=
  ∀ s : State, (∃ b, histAt s.hist b ≠ 0) →
    ∃ t, exec .gen s.build = .next t ∧
      (∀ b, histAt s.hist b = 0 → codeAt t.code b = codeAt s.code b) ∧
      (2 ≤ s.build.nleaf.toNat → ∀ b, histAt s.hist b ≠ 0 →
        ∃ l w q, follow (nodeAt s.build.node) s.build.root (codeAt t.code b) = some l ∧
          nodeAt s.build.node l = some (.leaf w b q)) ∧
      (s.build.nleaf = 1 → ∀ b, histAt s.hist b ≠ 0 → codeAt t.code b = [false])

/-- R144: no code is a prefix of another symbol's code. -/
def Obligations.CodesPrefixFree : Prop :=
  ∀ (h : Vector Counter 256) (a b : Byte), histAt h a ≠ 0 → histAt h b ≠ 0 → a ≠ b →
    ¬ codeAt (codeTable h) a <+: codeAt (codeTable h) b

/-- R145, R131: with `k >= 2` leaves a code has 1 to `k - 1` bits, at most 255, and the code set is complete (the sum of
`2^(-len)` is 1, here times `2^255`); with one leaf the code has one bit. -/
def Obligations.CodeLengths : Prop :=
  ∀ h : Vector Counter 256,
    (2 ≤ (leafNodes h).length →
      (∀ b, histAt h b ≠ 0 → 1 ≤ (codeAt (codeTable h) b).length ∧
        (codeAt (codeTable h) b).length ≤ (leafNodes h).length - 1 ∧ (codeAt (codeTable h) b).length ≤ 255) ∧
      ((allBytes.filter fun b => histAt h b != 0).map fun b => 2 ^ (255 - (codeAt (codeTable h) b).length)).sum =
        2 ^ 255) ∧
    ((leafNodes h).length = 1 → ∀ b, histAt h b ≠ 0 → (codeAt (codeTable h) b).length = 1)

/-! ## C_HEADER, C_VALID, C_PACK -/

/-- R151: `C_HEADER` from an empty output appends the 2048 header bytes, counter by counter, least significant byte first,
and goes on to `C_VALID`; nothing else changes. -/
def Obligations.CHeaderWrites : Prop :=
  ∀ s : State, s.outLen = 0 → 2048 ≤ s.outCap →
    ∃ t, exec .cHeader s = .next t ∧ t = { s with outMem := t.outMem, outLen := 2048, phase := .cValid } ∧
      (∀ n b, n < 256 → b < 8 →
        t.outMem.read (8 * n + b) = some ((histAt s.hist (BitVec.ofNat 8 n) >>> (8 * b)).setWidth 8)) ∧
      ∀ a, 2048 ≤ a → t.outMem.read a = s.outMem.read a

/-- R152: `TOTBITS` of a non-empty input's histogram and codes is the length of its body bit string, at least the input's
length and at most 255 times it. -/
def Obligations.TotalBitsIsBodyLength : Prop :=
  ∀ bytes : List Byte, bytes ≠ [] → bytes.length < 2 ^ 64 →
    (totalBits (histogram bytes) (codeTable (histogram bytes))).toNat = (bodyBits bytes).length ∧
    bytes.length ≤ (bodyBits bytes).length ∧ (bodyBits bytes).length ≤ 255 * bytes.length

/-- R153: `C_VALID` sets `TOTBITS` and `VB` (`TOTBITS mod 8`, or 8 where that is 0), appends `VB` and goes on to `C_PACK`;
nothing else changes. -/
def Obligations.CValidWrites : Prop :=
  ∀ s : State, s.outLen < s.outCap →
    ∃ t, exec .cValid s = .next t ∧
      t = { s with totBits := totalBits s.hist s.code, vb := t.vb, outMem := t.outMem, outLen := t.outLen,
                   phase := .cPack } ∧
      (t.totBits.toNat % 8 = 0 → t.vb = 8) ∧ (t.totBits.toNat % 8 ≠ 0 → t.vb.toNat = t.totBits.toNat % 8) ∧
      Appended s t [t.vb]

/-- R154: at the end of the packer's loop `NB = TOTBITS mod 8`, so that `VB` is what the packer leaves over. -/
def Obligations.PackerLeavesValidBits : Prop :=
  ∀ s t : State, s.hist = histogram s.inBytes → (∀ b, (codeAt s.code b).length ≤ 255) →
    packBytes s.inBytes { s with acc := 0, nb := 0, iptr := 0 } = .next t →
    t.nb.toNat = (totalBits s.hist s.code).toNat % 8

/-- R156, R157: `C_PACK` appends the codes of the input bytes, packed most significant bit first, the last byte padded with
zeros at its low-order end, and ends the operation well. -/
def Obligations.CPackWrites : Prop :=
  ∀ s : State, s.inLen ≤ s.inCap →
    s.outLen.toNat + (pack (s.inBytes.flatMap (codeAt s.code))).length ≤ s.outCap.toNat →
    ∃ t, exec .cPack s = .next t ∧ EndedOk s t ∧ Appended s t (pack (s.inBytes.flatMap (codeAt s.code)))

/-! ## D_CHECK, D_HEADER, D_VALID, D_SUM, D_WALK -/

/-- R171: `D_CHECK` ends an empty input well, raises MalformedContainer at `1 <= IN_LEN <= 2048` and else sets `BODY_LEN`
and goes on to `D_HEADER`. -/
def Obligations.DCheckLength : Prop :=
  ∀ s : State,
    (s.inLen = 0 → ∃ t, exec .dCheck s = .next t ∧ EndedOk s t ∧ t.outLen = s.outLen ∧ t.outMem = s.outMem) ∧
    (1 ≤ s.inLen → s.inLen ≤ 2048 → ∃ t, exec .dCheck s = .next t ∧ EndedErr s t .malformedContainer) ∧
    (2049 ≤ s.inLen → ∃ t, exec .dCheck s = .next t ∧ t = { s with bodyLen := t.bodyLen, phase := .dHeader } ∧
      t.bodyLen.toNat = s.inLen.toNat - 2049)

/-- R172: `D_HEADER` reads the 256 counters, eight bytes each, least significant byte first, and goes on to `D_VALID`;
nothing else changes. -/
def Obligations.DHeaderParses : Prop :=
  ∀ s : State, 2048 ≤ s.inCap →
    ∃ t, exec .dHeader s = .next t ∧ t = { s with hist := t.hist, phase := .dValid } ∧
      ∀ b : Byte, (histAt t.hist b).toNat =
        ((List.range 8).map fun i => (s.inByte (8 * b.toNat + i)).toNat * 2 ^ (8 * i)).sum

/-- R173: `D_VALID` reads the valid-bits byte; 0 and 9 to 255 raise MalformedContainer; 1 to 8 go on to `BUILD`. -/
def Obligations.DValidRange : Prop :=
  ∀ s : State, 2048 < s.inCap →
    (s.inByte 2048 = 0 ∨ 9 ≤ s.inByte 2048 →
      ∃ t, exec .dValid s = .next t ∧ EndedErr s t .malformedContainer) ∧
    (1 ≤ s.inByte 2048 → s.inByte 2048 ≤ 8 →
      exec .dValid s = .next { s with vb := s.inByte 2048, phase := .build })

/-- R175: `D_SUM` sets `TOTAL` to the exact sum of the counters, the root's weight after a `BUILD` with a tree, and goes on
to `D_WALK`; nothing else changes. -/
def Obligations.DSumTotals : Prop :=
  ∀ s : State, ∃ t, exec .dSum s = .next t ∧ t = { s with total := t.total, phase := .dWalk } ∧
    t.total.toNat = countSum s.hist ∧
    ∀ u : State, s = u.build → (∃ b, histAt u.hist b ≠ 0) →
      ∃ n, nodeAt s.node s.root = some n ∧ t.total = n.w

/-- R178: `D_WALK`, with its registers, ends as the walk over the list of walkable bits says: with the emitted bytes
appended and the operation ended well, or with CorruptStream and no output. The room for the output is R223's. -/
def Obligations.DWalkResult : Prop :=
  ∀ s : State, 2049 + s.bodyLen.toNat ≤ s.inCap.toNat → 1 ≤ s.vb → s.vb ≤ 8 →
    s.outLen.toNat + walkableBits s.bodyLen.toNat s.vb.toNat ≤ s.outCap.toNat →
    ∃ t, exec .dWalk s = .next t ∧
      match walkBits (nodeAt s.node) s.nleaf s.root s.total.toNat s.root s.walkable with
      | .ok out => EndedOk s t ∧ Appended s t out
      | .error e => e = .corruptStream ∧ EndedErr s t .corruptStream

/-- R179, R182: in a tree of two or more leaves no internal node lacks a child; in a single-leaf tree the root's
zero-branch is the root and its one-branch is missing. -/
def Obligations.ChildMissingOnlySingleLeaf : Prop :=
  ∀ s : State, (∃ b, histAt s.hist b ≠ 0) →
    let t := s.build
    (2 ≤ t.nleaf.toNat → ∀ (i : Idx) w c0 c1 q bit, i.toNat < t.nnode.toNat →
      nodeAt t.node i = some (.internal w c0 c1 q) →
      childOf (nodeAt t.node) t.nleaf t.root i bit = (if bit then c1 else c0) ∧
      (childOf (nodeAt t.node) t.nleaf t.root i bit).toNat < t.nnode.toNat) ∧
    (t.nleaf = 1 → childOf (nodeAt t.node) t.nleaf t.root t.root false = t.root ∧
      childOf (nodeAt t.node) t.nleaf t.root t.root true = Idx.none)

/-- R180, R183, R184: a walk that reaches the total emits exactly that many symbols, and bits after the last needed one
change nothing. -/
def Obligations.ExcessBitsIgnored : Prop :=
  ∀ (node : Idx → Option Node) (nleaf root : Idx) (n : Nat) (cur : Idx) (bits more : List Bool) (out : List Byte),
    walkBits node nleaf root n cur bits = .ok out →
    out.length = n ∧ walkBits node nleaf root n cur (bits ++ more) = .ok out

/-- R186: a container that decodes without error gives exactly as many bytes as its counters sum to, each a symbol whose
counter is not zero. -/
def Obligations.DecodedOutput : Prop :=
  ∀ (c out : List Byte), 2049 ≤ c.length → decompress c = .ok out →
    out.length = countSum (parseHeader fun a => c.getD a 0) ∧
    ∀ b ∈ out, histAt (parseHeader fun a => c.getD a 0) b ≠ 0

/-! ## The two commands as functions -/

/-- R92, R94, R97: COMPRESS, from its acceptance to its end, leaves `compress(S)` in `OUT`, `DONE = 1` and `ERR = NONE`,
where `OUT` has room for it. -/
def Obligations.CompressRun : Prop :=
  ∀ s : State, s.launches 0x01 → s.inLen ≤ s.inCap → (compress s.inBytes).length ≤ s.outCap.toNat →
    ∃ k ≤ 7, ∃ t, steps k s = .next t ∧ t.status = 0x02 ∧ t.outputIs (compress s.inBytes) ∧
      t.inLen = s.inLen ∧ t.inMem = s.inMem

/-- R93, R95, R97: DECOMPRESS ends as `decompress(C)` says: its bytes in `OUT`, or one of the two errors and no output.
The room for the output is R223's. -/
def Obligations.DecompressRun : Prop :=
  ∀ s : State, s.launches 0x02 → s.inLen ≤ s.inCap → 8 * (s.inLen.toNat - 2049) ≤ s.outCap.toNat →
    ∃ k ≤ 7, ∃ t, steps k s = .next t ∧ t.inLen = s.inLen ∧ t.inMem = s.inMem ∧
      match decompress s.inBytes with
      | .ok out => t.status = 0x02 ∧ t.outputIs out
      | .error .malformedContainer => t.status = 0x06 ∧ t.outLen = 0
      | .error .corruptStream => t.status = 0x0A ∧ t.outLen = 0
      | .error .none => False

/-- R98: the round trip. -/
def Obligations.CompressDecompressRoundTrip : Prop :=
  ∀ bytes : List Byte, bytes.length < 2 ^ 64 → decompress (compress bytes) = .ok bytes

/-- R99: empty input gives empty output both ways, also as two steps of the machine. -/
def Obligations.EmptyIdentity : Prop :=
  compress [] = [] ∧ decompress [] = .ok [] ∧
  ∀ (s : State) v, s.launches v → v = 0x01 ∨ v = 0x02 → s.inLen = 0 →
    ∃ t, steps 2 s = .next t ∧ t.status = 0x02 ∧ t.outLen = 0

/-- R100: `N >= 1` repetitions of one byte value give a body of `ceil(N / 8)` zero bytes and
`VB = ((N - 1) mod 8) + 1`, and come back. -/
def Obligations.SingleSymbolContainer : Prop :=
  ∀ (b : Byte) (n : Nat), 1 ≤ n → n < 2 ^ 64 →
    (∀ c, histAt (histogram (List.replicate n b)) c ≠ 0 → codeAt (codeTable (histogram (List.replicate n b))) c = [false]) ∧
    compress (List.replicate n b) =
      headerBytes (histogram (List.replicate n b)) ++ [BitVec.ofNat 8 ((n - 1) % 8 + 1)] ++
        List.replicate ((n + 7) / 8) 0 ∧
    decompress (compress (List.replicate n b)) = .ok (List.replicate n b)

/-- R101: the header's counters sum to the input's length. -/
def Obligations.HistogramConservation : Prop :=
  ∀ bytes : List Byte, bytes ≠ [] → bytes.length < 2 ^ 64 →
    countSum (parseHeader fun a => (compress bytes).getD a 0) = bytes.length

/-- R102: the exact size of a container, and that it is longer than every input of 1 to 2341 bytes. -/
def Obligations.ContainerSize : Prop :=
  ∀ bytes : List Byte, bytes ≠ [] → bytes.length < 2 ^ 64 →
    (compress bytes).length = 2049 + ((bodyBits bytes).length + 7) / 8 ∧ 2050 ≤ (compress bytes).length ∧
    bytes.length ≤ (bodyBits bytes).length ∧ (bodyBits bytes).length ≤ 255 * bytes.length ∧
    (bytes.length ≤ 2341 → bytes.length < (compress bytes).length)

/-- R104, R37: the result of a command depends on `IN[0 .. IN_LEN)` and the command alone: two idle blocks that agree on
them end with the same `STATUS`, `OUT_LEN` and `OUT`, whatever their tables, registers and old output. -/
def Obligations.ResultDependsOnInputAlone : Prop :=
  ∀ (s s' : State) (v : BitVec 8), s.launches v → s'.launches v → v = 0x01 ∨ v = 0x02 → s.inLen = s'.inLen →
    s.inBytes = s'.inBytes → s.inLen ≤ s.inCap → s.inLen ≤ s'.inCap →
    (compress s.inBytes).length ≤ s.outCap.toNat → (compress s.inBytes).length ≤ s'.outCap.toNat →
    8 * (s.inLen.toNat - 2049) ≤ s.outCap.toNat → 8 * (s.inLen.toNat - 2049) ≤ s'.outCap.toNat →
    ∃ t t', steps 7 s = .next t ∧ steps 7 s' = .next t' ∧ t.status = t'.status ∧ t.outBytes = t'.outBytes ∧
      t.outLen = t'.outLen

/-- R105: an operation in progress ends within six steps, or is refused as `outputBeyondCapacity`. That refusal, at the first
byte that does not fit `OUT`, is the model's choice (log entry 14; spec/93 U6 would refuse at launch); it also stops a
DECOMPRESS that would go on to end in CorruptStream. -/
def Obligations.OperationEnds : Prop :=
  ∀ s : State, s.Inv → s.StageInv → s.busy = true → s.host = [] →
    ∃ k ≤ 6, (∃ t, steps k s = .next t ∧ t.done = true ∧ t.phase = .idle) ∨
      steps k s = .refused .outputBeyondCapacity

/-- R9, R200: in the states of the invariants a stage operation never faults, so it meets no byte that does not exist; its only
stop is the refusal `outputBeyondCapacity`. That refusal, at the first byte that does not fit `OUT`, is the model's choice
(log entry 14; spec/93 U6 would refuse at launch); it also stops a D_WALK that would go on to end in CorruptStream. -/
def Obligations.StagesStopOnlyForCapacity : Prop :=
  ∀ (s : State) i, s.Inv → s.StageInv → decodePhase s.phase.code = .ok i →
    (∃ t, exec i s = .next t) ∨ exec i s = .refused .outputBeyondCapacity

/-! ## Invariants -/

/-- The invariants hold at reset. -/
def Obligations.ResetMeetsInvariants : Prop := State.reset.Inv ∧ State.reset.StageInv

/-- R23, R25, R34, R94, R95, R204: every step keeps the state invariant. -/
def Obligations.StepKeepsStateInvariant : Prop :=
  ∀ s t : State, s.Inv → step s = .next t → t.Inv

/-- R94, R95: every step keeps the stage invariant: each stage finds done what the rules say the stages before it do. -/
def Obligations.StepKeepsStageInvariant : Prop :=
  ∀ s t : State, s.Inv → s.StageInv → step s = .next t → t.StageInv
end

