-- ==== Sys2Proof/Laws/State.lean ====
section
/-!
SUPPORT. One lemma per field per named update of State, true by definition, so that no proof unfolds a record update.
-/

namespace Sys2Proof.Machine

/-! ## `goto` -/

@[simp] theorem State.goto_phase (s : State) (p : Phase) : (s.goto p).phase = p := rfl
@[simp] theorem State.goto_done (s : State) (p : Phase) : (s.goto p).done = s.done := rfl
@[simp] theorem State.goto_err (s : State) (p : Phase) : (s.goto p).err = s.err := rfl
@[simp] theorem State.goto_inLen (s : State) (p : Phase) : (s.goto p).inLen = s.inLen := rfl
@[simp] theorem State.goto_outLen (s : State) (p : Phase) : (s.goto p).outLen = s.outLen := rfl
@[simp] theorem State.goto_op (s : State) (p : Phase) : (s.goto p).op = s.op := rfl
@[simp] theorem State.goto_hist (s : State) (p : Phase) : (s.goto p).hist = s.hist := rfl
@[simp] theorem State.goto_node (s : State) (p : Phase) : (s.goto p).node = s.node := rfl
@[simp] theorem State.goto_code (s : State) (p : Phase) : (s.goto p).code = s.code := rfl
@[simp] theorem State.goto_nleaf (s : State) (p : Phase) : (s.goto p).nleaf = s.nleaf := rfl
@[simp] theorem State.goto_nnode (s : State) (p : Phase) : (s.goto p).nnode = s.nnode := rfl
@[simp] theorem State.goto_root (s : State) (p : Phase) : (s.goto p).root = s.root := rfl
@[simp] theorem State.goto_acc (s : State) (p : Phase) : (s.goto p).acc = s.acc := rfl
@[simp] theorem State.goto_nb (s : State) (p : Phase) : (s.goto p).nb = s.nb := rfl
@[simp] theorem State.goto_iptr (s : State) (p : Phase) : (s.goto p).iptr = s.iptr := rfl
@[simp] theorem State.goto_vb (s : State) (p : Phase) : (s.goto p).vb = s.vb := rfl
@[simp] theorem State.goto_totBits (s : State) (p : Phase) : (s.goto p).totBits = s.totBits := rfl
@[simp] theorem State.goto_bodyLen (s : State) (p : Phase) : (s.goto p).bodyLen = s.bodyLen := rfl
@[simp] theorem State.goto_avail (s : State) (p : Phase) : (s.goto p).avail = s.avail := rfl
@[simp] theorem State.goto_tpos (s : State) (p : Phase) : (s.goto p).tpos = s.tpos := rfl
@[simp] theorem State.goto_total (s : State) (p : Phase) : (s.goto p).total = s.total := rfl
@[simp] theorem State.goto_emitted (s : State) (p : Phase) : (s.goto p).emitted = s.emitted := rfl
@[simp] theorem State.goto_cur (s : State) (p : Phase) : (s.goto p).cur = s.cur := rfl
@[simp] theorem State.goto_inMem (s : State) (p : Phase) : (s.goto p).inMem = s.inMem := rfl
@[simp] theorem State.goto_outMem (s : State) (p : Phase) : (s.goto p).outMem = s.outMem := rfl
@[simp] theorem State.goto_inCap (s : State) (p : Phase) : (s.goto p).inCap = s.inCap := rfl
@[simp] theorem State.goto_outCap (s : State) (p : Phase) : (s.goto p).outCap = s.outCap := rfl
@[simp] theorem State.goto_host (s : State) (p : Phase) : (s.goto p).host = s.host := rfl
@[simp] theorem State.goto_draws (s : State) (p : Phase) : (s.goto p).draws = s.draws := rfl
@[simp] theorem State.goto_era (s : State) (p : Phase) : (s.goto p).era = s.era := rfl

/-! ## `accept` (R90) -/

@[simp] theorem State.accept_phase (s : State) (c : Op) : (s.accept c).phase = c.firstPhase := rfl
@[simp] theorem State.accept_done (s : State) (c : Op) : (s.accept c).done = false := rfl
@[simp] theorem State.accept_err (s : State) (c : Op) : (s.accept c).err = .none := rfl
@[simp] theorem State.accept_inLen (s : State) (c : Op) : (s.accept c).inLen = s.inLen := rfl
@[simp] theorem State.accept_outLen (s : State) (c : Op) : (s.accept c).outLen = 0 := rfl
@[simp] theorem State.accept_op (s : State) (c : Op) : (s.accept c).op = c := rfl
@[simp] theorem State.accept_hist (s : State) (c : Op) : (s.accept c).hist = s.hist := rfl
@[simp] theorem State.accept_node (s : State) (c : Op) : (s.accept c).node = s.node := rfl
@[simp] theorem State.accept_code (s : State) (c : Op) : (s.accept c).code = s.code := rfl
@[simp] theorem State.accept_nleaf (s : State) (c : Op) : (s.accept c).nleaf = s.nleaf := rfl
@[simp] theorem State.accept_nnode (s : State) (c : Op) : (s.accept c).nnode = s.nnode := rfl
@[simp] theorem State.accept_root (s : State) (c : Op) : (s.accept c).root = s.root := rfl
@[simp] theorem State.accept_acc (s : State) (c : Op) : (s.accept c).acc = s.acc := rfl
@[simp] theorem State.accept_nb (s : State) (c : Op) : (s.accept c).nb = s.nb := rfl
@[simp] theorem State.accept_iptr (s : State) (c : Op) : (s.accept c).iptr = s.iptr := rfl
@[simp] theorem State.accept_vb (s : State) (c : Op) : (s.accept c).vb = s.vb := rfl
@[simp] theorem State.accept_totBits (s : State) (c : Op) : (s.accept c).totBits = s.totBits := rfl
@[simp] theorem State.accept_bodyLen (s : State) (c : Op) : (s.accept c).bodyLen = s.bodyLen := rfl
@[simp] theorem State.accept_avail (s : State) (c : Op) : (s.accept c).avail = s.avail := rfl
@[simp] theorem State.accept_tpos (s : State) (c : Op) : (s.accept c).tpos = s.tpos := rfl
@[simp] theorem State.accept_total (s : State) (c : Op) : (s.accept c).total = s.total := rfl
@[simp] theorem State.accept_emitted (s : State) (c : Op) : (s.accept c).emitted = s.emitted := rfl
@[simp] theorem State.accept_cur (s : State) (c : Op) : (s.accept c).cur = s.cur := rfl
@[simp] theorem State.accept_inMem (s : State) (c : Op) : (s.accept c).inMem = s.inMem := rfl
@[simp] theorem State.accept_outMem (s : State) (c : Op) : (s.accept c).outMem = [] := rfl
@[simp] theorem State.accept_inCap (s : State) (c : Op) : (s.accept c).inCap = s.inCap := rfl
@[simp] theorem State.accept_outCap (s : State) (c : Op) : (s.accept c).outCap = s.outCap := rfl
@[simp] theorem State.accept_host (s : State) (c : Op) : (s.accept c).host = s.host := rfl
@[simp] theorem State.accept_draws (s : State) (c : Op) : (s.accept c).draws = s.draws := rfl
@[simp] theorem State.accept_era (s : State) (c : Op) : (s.accept c).era = s.era := rfl

/-! ## `retire` (R37): the fields that keep their value -/

@[simp] theorem State.retire_phase (s : State) : (s.retire).phase = s.phase := rfl
@[simp] theorem State.retire_done (s : State) : (s.retire).done = s.done := rfl
@[simp] theorem State.retire_err (s : State) : (s.retire).err = s.err := rfl
@[simp] theorem State.retire_inLen (s : State) : (s.retire).inLen = s.inLen := rfl
@[simp] theorem State.retire_outLen (s : State) : (s.retire).outLen = s.outLen := rfl
@[simp] theorem State.retire_inMem (s : State) : (s.retire).inMem = s.inMem := rfl
@[simp] theorem State.retire_outMem (s : State) : (s.retire).outMem = s.outMem := rfl
@[simp] theorem State.retire_inCap (s : State) : (s.retire).inCap = s.inCap := rfl
@[simp] theorem State.retire_outCap (s : State) : (s.retire).outCap = s.outCap := rfl
@[simp] theorem State.retire_host (s : State) : (s.retire).host = s.host := rfl
@[simp] theorem State.retire_draws (s : State) : (s.retire).draws = s.draws + 1 := rfl
@[simp] theorem State.retire_era (s : State) : (s.retire).era = s.era := rfl

/-! ## `finish` (R96) -/

@[simp] theorem State.finish_phase (s : State) : (s.finish).phase = .idle := rfl
@[simp] theorem State.finish_done (s : State) : (s.finish).done = true := rfl
@[simp] theorem State.finish_err (s : State) : (s.finish).err = .none := rfl
@[simp] theorem State.finish_inLen (s : State) : (s.finish).inLen = s.inLen := rfl
@[simp] theorem State.finish_outLen (s : State) : (s.finish).outLen = s.outLen := rfl
@[simp] theorem State.finish_inMem (s : State) : (s.finish).inMem = s.inMem := rfl
@[simp] theorem State.finish_outMem (s : State) : (s.finish).outMem = s.outMem := rfl
@[simp] theorem State.finish_inCap (s : State) : (s.finish).inCap = s.inCap := rfl
@[simp] theorem State.finish_outCap (s : State) : (s.finish).outCap = s.outCap := rfl
@[simp] theorem State.finish_host (s : State) : (s.finish).host = s.host := rfl
@[simp] theorem State.finish_draws (s : State) : (s.finish).draws = s.draws + 1 := rfl
@[simp] theorem State.finish_era (s : State) : (s.finish).era = s.era := rfl

/-! ## `raise` (R204) -/

@[simp] theorem State.raise_phase (s : State) (e : ErrKind) : (s.raise e).phase = .idle := rfl
@[simp] theorem State.raise_done (s : State) (e : ErrKind) : (s.raise e).done = true := rfl
@[simp] theorem State.raise_err (s : State) (e : ErrKind) : (s.raise e).err = e := rfl
@[simp] theorem State.raise_inLen (s : State) (e : ErrKind) : (s.raise e).inLen = s.inLen := rfl
@[simp] theorem State.raise_outLen (s : State) (e : ErrKind) : (s.raise e).outLen = 0 := rfl
@[simp] theorem State.raise_inMem (s : State) (e : ErrKind) : (s.raise e).inMem = s.inMem := rfl
@[simp] theorem State.raise_outMem (s : State) (e : ErrKind) : (s.raise e).outMem = [] := rfl
@[simp] theorem State.raise_inCap (s : State) (e : ErrKind) : (s.raise e).inCap = s.inCap := rfl
@[simp] theorem State.raise_outCap (s : State) (e : ErrKind) : (s.raise e).outCap = s.outCap := rfl
@[simp] theorem State.raise_host (s : State) (e : ErrKind) : (s.raise e).host = s.host := rfl
@[simp] theorem State.raise_draws (s : State) (e : ErrKind) : (s.raise e).draws = s.draws + 1 := rfl
@[simp] theorem State.raise_era (s : State) (e : ErrKind) : (s.raise e).era = s.era := rfl

/-! ## `resetEvent` (R220, R222) -/

@[simp] theorem State.resetEvent_phase (s : State) : (s.resetEvent).phase = .idle := rfl
@[simp] theorem State.resetEvent_done (s : State) : (s.resetEvent).done = false := rfl
@[simp] theorem State.resetEvent_err (s : State) : (s.resetEvent).err = .none := rfl
@[simp] theorem State.resetEvent_inLen (s : State) : (s.resetEvent).inLen = 0 := rfl
@[simp] theorem State.resetEvent_outLen (s : State) : (s.resetEvent).outLen = 0 := rfl
@[simp] theorem State.resetEvent_inMem (s : State) : (s.resetEvent).inMem = [] := rfl
@[simp] theorem State.resetEvent_outMem (s : State) : (s.resetEvent).outMem = [] := rfl
@[simp] theorem State.resetEvent_inCap (s : State) : (s.resetEvent).inCap = s.inCap := rfl
@[simp] theorem State.resetEvent_outCap (s : State) : (s.resetEvent).outCap = s.outCap := rfl
@[simp] theorem State.resetEvent_host (s : State) : (s.resetEvent).host = s.host := rfl
@[simp] theorem State.resetEvent_draws (s : State) : (s.resetEvent).draws = s.draws + 1 := rfl
@[simp] theorem State.resetEvent_era (s : State) : (s.resetEvent).era = s.draws := rfl

/-! ## `build` (R120) -/

@[simp] theorem State.build_phase (s : State) : (s.build).phase = s.phase := rfl
@[simp] theorem State.build_done (s : State) : (s.build).done = s.done := rfl
@[simp] theorem State.build_err (s : State) : (s.build).err = s.err := rfl
@[simp] theorem State.build_inLen (s : State) : (s.build).inLen = s.inLen := rfl
@[simp] theorem State.build_outLen (s : State) : (s.build).outLen = s.outLen := rfl
@[simp] theorem State.build_op (s : State) : (s.build).op = s.op := rfl
@[simp] theorem State.build_hist (s : State) : (s.build).hist = s.hist := rfl
@[simp] theorem State.build_node (s : State) : (s.build).node = storeNodes (buildNodes s.hist) s.node := rfl
@[simp] theorem State.build_code (s : State) : (s.build).code = s.code := rfl
@[simp] theorem State.build_nleaf (s : State) : (s.build).nleaf = BitVec.ofNat 9 (leafNodes s.hist).length := rfl
@[simp] theorem State.build_nnode (s : State) : (s.build).nnode = BitVec.ofNat 9 (buildNodes s.hist).length := rfl
@[simp] theorem State.build_root (s : State) : (s.build).root = rootOf (buildNodes s.hist) := rfl
@[simp] theorem State.build_acc (s : State) : (s.build).acc = s.acc := rfl
@[simp] theorem State.build_nb (s : State) : (s.build).nb = s.nb := rfl
@[simp] theorem State.build_iptr (s : State) : (s.build).iptr = s.iptr := rfl
@[simp] theorem State.build_vb (s : State) : (s.build).vb = s.vb := rfl
@[simp] theorem State.build_totBits (s : State) : (s.build).totBits = s.totBits := rfl
@[simp] theorem State.build_bodyLen (s : State) : (s.build).bodyLen = s.bodyLen := rfl
@[simp] theorem State.build_avail (s : State) : (s.build).avail = s.avail := rfl
@[simp] theorem State.build_tpos (s : State) : (s.build).tpos = s.tpos := rfl
@[simp] theorem State.build_total (s : State) : (s.build).total = s.total := rfl
@[simp] theorem State.build_emitted (s : State) : (s.build).emitted = s.emitted := rfl
@[simp] theorem State.build_cur (s : State) : (s.build).cur = s.cur := rfl
@[simp] theorem State.build_inMem (s : State) : (s.build).inMem = s.inMem := rfl
@[simp] theorem State.build_outMem (s : State) : (s.build).outMem = s.outMem := rfl
@[simp] theorem State.build_inCap (s : State) : (s.build).inCap = s.inCap := rfl
@[simp] theorem State.build_outCap (s : State) : (s.build).outCap = s.outCap := rfl
@[simp] theorem State.build_host (s : State) : (s.build).host = s.host := rfl
@[simp] theorem State.build_draws (s : State) : (s.build).draws = s.draws := rfl
@[simp] theorem State.build_era (s : State) : (s.build).era = s.era := rfl

/-! ## `startWalk` (R178) -/

@[simp] theorem State.startWalk_phase (s : State) : (s.startWalk).phase = s.phase := rfl
@[simp] theorem State.startWalk_done (s : State) : (s.startWalk).done = s.done := rfl
@[simp] theorem State.startWalk_err (s : State) : (s.startWalk).err = s.err := rfl
@[simp] theorem State.startWalk_inLen (s : State) : (s.startWalk).inLen = s.inLen := rfl
@[simp] theorem State.startWalk_outLen (s : State) : (s.startWalk).outLen = s.outLen := rfl
@[simp] theorem State.startWalk_op (s : State) : (s.startWalk).op = s.op := rfl
@[simp] theorem State.startWalk_hist (s : State) : (s.startWalk).hist = s.hist := rfl
@[simp] theorem State.startWalk_node (s : State) : (s.startWalk).node = s.node := rfl
@[simp] theorem State.startWalk_code (s : State) : (s.startWalk).code = s.code := rfl
@[simp] theorem State.startWalk_nleaf (s : State) : (s.startWalk).nleaf = s.nleaf := rfl
@[simp] theorem State.startWalk_nnode (s : State) : (s.startWalk).nnode = s.nnode := rfl
@[simp] theorem State.startWalk_root (s : State) : (s.startWalk).root = s.root := rfl
@[simp] theorem State.startWalk_acc (s : State) : (s.startWalk).acc = s.acc := rfl
@[simp] theorem State.startWalk_nb (s : State) : (s.startWalk).nb = s.nb := rfl
@[simp] theorem State.startWalk_iptr (s : State) : (s.startWalk).iptr = s.iptr := rfl
@[simp] theorem State.startWalk_vb (s : State) : (s.startWalk).vb = s.vb := rfl
@[simp] theorem State.startWalk_totBits (s : State) : (s.startWalk).totBits = s.totBits := rfl
@[simp] theorem State.startWalk_bodyLen (s : State) : (s.startWalk).bodyLen = s.bodyLen := rfl
@[simp] theorem State.startWalk_avail (s : State) : (s.startWalk).avail = BitVec.ofNat 72 (walkableBits s.bodyLen.toNat s.vb.toNat) := rfl
@[simp] theorem State.startWalk_tpos (s : State) : (s.startWalk).tpos = 0 := rfl
@[simp] theorem State.startWalk_total (s : State) : (s.startWalk).total = s.total := rfl
@[simp] theorem State.startWalk_emitted (s : State) : (s.startWalk).emitted = 0 := rfl
@[simp] theorem State.startWalk_cur (s : State) : (s.startWalk).cur = s.root := rfl
@[simp] theorem State.startWalk_inMem (s : State) : (s.startWalk).inMem = s.inMem := rfl
@[simp] theorem State.startWalk_outMem (s : State) : (s.startWalk).outMem = s.outMem := rfl
@[simp] theorem State.startWalk_inCap (s : State) : (s.startWalk).inCap = s.inCap := rfl
@[simp] theorem State.startWalk_outCap (s : State) : (s.startWalk).outCap = s.outCap := rfl
@[simp] theorem State.startWalk_host (s : State) : (s.startWalk).host = s.host := rfl
@[simp] theorem State.startWalk_draws (s : State) : (s.startWalk).draws = s.draws := rfl
@[simp] theorem State.startWalk_era (s : State) : (s.startWalk).era = s.era := rfl

/-! ## `busy` -/

@[simp] theorem State.busy_eq_false (s : State) : s.busy = false ↔ s.phase = .idle := by simp [State.busy]

@[simp] theorem State.busy_eq_true (s : State) : s.busy = true ↔ s.phase ≠ .idle := by simp [State.busy]

end Sys2Proof.Machine
end

