-- ==== Sys2Proof/Laws/Memory.lean ====
section
/-!
SUPPORT. The laws of the buffers' memory: read after write, the canonical form, and what `emit`, `emitAll` and the host's
buffer writes do.
-/

namespace Sys2Proof.Machine

/-! ## Read after write -/

@[simp] theorem Memory.read_nil (a : Nat) : Memory.read [] a = none := rfl

/-- Where every listed address is above `a`, `a` has no value. -/
theorem Memory.read_of_lt {m : Memory} {a : Nat} (h : ∀ c ∈ m, a < c.1) : m.read a = none := by
  induction m with
  | nil => rfl
  | cons c m ih =>
    have hc : a < c.1 := h c (by simp)
    simp only [Memory.read]
    rw [if_neg (by omega)]
    exact ih fun d hd => h d (by simp [hd])

theorem Memory.read_write_same {m : Memory} (a : Nat) (v : Byte) : (m.write a v).read a = some v := by
  induction m with
  | nil => simp [Memory.write, Memory.read]
  | cons c m ih =>
    simp only [Memory.write]
    split
    · simp [Memory.read]
    · split
      · simp [Memory.read]
      · simp only [Memory.read]
        rw [if_neg ‹_›, ih]

theorem Memory.read_write_other {m : Memory} {a b : Nat} (v : Byte) (h : b ≠ a) :
    (m.write a v).read b = m.read b := by
  induction m with
  | nil => simp [Memory.write, Memory.read, h]
  | cons c m ih =>
    simp only [Memory.write]
    split
    · simp [Memory.read, h]
    · split
      · subst_vars
        simp [Memory.read, h]
      · simp only [Memory.read, ih]

/-- A read after a write. -/
theorem Memory.read_write (m : Memory) (a b : Nat) (v : Byte) :
    (m.write a v).read b = if b = a then some v else m.read b := by
  split
  · subst_vars
    exact read_write_same _ _
  · exact read_write_other _ ‹_›

/-! ## The canonical form -/

theorem Memory.mem_write {m : Memory} {a : Nat} {v : Byte} {c : Host.Cell} (h : c ∈ m.write a v) :
    c = (a, v) ∨ c ∈ m := by
  induction m with
  | nil => simpa [Memory.write] using h
  | cons d m ih =>
    simp only [Memory.write] at h
    split at h
    · simpa using h
    · split at h
      · simp only [List.mem_cons] at h ⊢
        tauto
      · simp only [List.mem_cons] at h ⊢
        rcases h with h | h
        · exact .inr (.inl h)
        · exact (ih h).imp id .inr

/-- A write keeps the canonical form. -/
theorem Memory.wf_write {m : Memory} (h : m.wf) (a : Nat) (v : Byte) : (m.write a v).wf := by
  induction m with
  | nil => simp [Memory.write, Memory.wf]
  | cons c m ih =>
    obtain ⟨hc, hm⟩ := List.pairwise_cons.1 h
    simp only [Memory.write]
    split
    · refine List.pairwise_cons.2 ⟨fun d hd => ?_, h⟩
      rcases List.mem_cons.1 hd with rfl | hd
      · assumption
      · exact lt_trans ‹_› (hc d hd)
    · split
      · subst_vars
        exact List.pairwise_cons.2 ⟨hc, hm⟩
      · refine List.pairwise_cons.2 ⟨fun d hd => ?_, ih hm⟩
        rcases Memory.mem_write hd with rfl | hd
        · show c.1 < a
          omega
        · exact hc d hd

theorem Memory.wf_nil : Memory.wf [] := List.Pairwise.nil

theorem State.reset_inMem_wf : State.reset.inMem.wf := Memory.wf_nil

theorem State.reset_outMem_wf : State.reset.outMem.wf := Memory.wf_nil

/-! ## A run of bytes -/

theorem Memory.read_append (m n : Memory) (a : Nat) : Memory.read (m ++ n) a = (m.read a).or (n.read a) := by
  induction m with
  | nil => simp
  | cons c m ih =>
    simp only [List.cons_append, Memory.read]
    split
    · rfl
    · exact ih

/-- A filter on addresses keeps the bytes it admits. -/
theorem Memory.read_filter (m : Memory) (p : Nat → Bool) (a : Nat) :
    Memory.read (m.filter fun c => p c.1) a = if p a then m.read a else none := by
  induction m with
  | nil => simp
  | cons c m ih =>
    by_cases hp : p c.1 = true
    · rw [List.filter_cons_of_pos (by simpa using hp)]
      simp only [Memory.read]
      by_cases ha : a = c.1
      · subst ha
        simp [hp]
      · rw [if_neg ha, if_neg ha, ih]
    · rw [List.filter_cons_of_neg (by simpa using hp), ih]
      simp only [Memory.read]
      by_cases ha : a = c.1
      · subst ha
        simp [hp]
      · rw [if_neg ha]

theorem Memory.mem_cellsFrom {a : Nat} {vs : List Byte} {c : Host.Cell} (h : c ∈ cellsFrom a vs) :
    a ≤ c.1 ∧ c.1 < a + vs.length := by
  induction vs generalizing a with
  | nil => simp [cellsFrom] at h
  | cons v vs ih =>
    simp only [List.length_cons]
    rcases List.mem_cons.1 h with rfl | h
    · exact ⟨le_refl _, by simp⟩
    · have := ih h
      omega

theorem Memory.read_cellsFrom (a : Nat) (vs : List Byte) (b : Nat) :
    Memory.read (cellsFrom a vs) b = if a ≤ b ∧ b < a + vs.length then vs[b - a]? else none := by
  induction vs generalizing a with
  | nil => simp [cellsFrom]
  | cons v vs ih =>
    simp only [cellsFrom, Memory.read, List.length_cons]
    by_cases hb : b = a
    · subst hb
      simp
    · rw [if_neg hb, ih]
      by_cases hc : a + 1 ≤ b ∧ b < a + 1 + vs.length
      · obtain ⟨k, rfl⟩ : ∃ k, b = a + 1 + k := ⟨b - (a + 1), by omega⟩
        rw [if_pos hc, if_pos (by omega), show a + 1 + k - (a + 1) = k by omega,
          show a + 1 + k - a = k + 1 by omega, List.getElem?_cons_succ]
      · rw [if_neg hc, if_neg (by omega)]

/-- A read after the writing of a run. -/
theorem Memory.read_writeRun (m : Memory) (a : Nat) (vs : List Byte) (b : Nat) :
    (m.writeRun a vs).read b = if a ≤ b ∧ b < a + vs.length then vs[b - a]? else m.read b := by
  unfold Memory.writeRun
  rw [Memory.read_append, Memory.read_append, Memory.read_filter m fun x => decide (x < a),
    Memory.read_filter m fun x => decide (a + vs.length ≤ x), Memory.read_cellsFrom]
  by_cases h₁ : b < a
  · rw [if_pos (by simpa using h₁), if_neg (by omega), if_neg (by simpa using by omega), if_neg (by omega)]
    simp
  · rw [if_neg (by simpa using h₁)]
    by_cases h₂ : b < a + vs.length
    · rw [if_pos ⟨by omega, h₂⟩, if_neg (by simpa using h₂), if_pos ⟨by omega, h₂⟩]
      simp
    · rw [if_neg (by omega), if_pos (by simpa using h₂), if_neg (by omega)]
      simp

theorem Memory.wf_cellsFrom (a : Nat) (vs : List Byte) : (cellsFrom a vs).wf := by
  induction vs generalizing a with
  | nil => exact List.Pairwise.nil
  | cons v vs ih =>
    refine List.pairwise_cons.2 ⟨fun c hc => ?_, ih _⟩
    have := Memory.mem_cellsFrom hc
    show a < c.1
    omega

/-- The writing of a run keeps the canonical form. -/
theorem Memory.wf_writeRun {m : Memory} (h : m.wf) (a : Nat) (vs : List Byte) : (m.writeRun a vs).wf := by
  unfold Memory.writeRun
  refine List.pairwise_append.2 ⟨List.pairwise_append.2 ⟨h.filter _, Memory.wf_cellsFrom a vs, fun c hc d hd => ?_⟩,
    h.filter _, fun c hc d hd => ?_⟩
  · have h₁ := (List.mem_filter.1 hc).2
    have h₂ := Memory.mem_cellsFrom hd
    simp only [decide_eq_true_eq] at h₁
    omega
  · have h₂ := (List.mem_filter.1 hd).2
    simp only [decide_eq_true_eq] at h₂
    rcases List.mem_append.1 hc with hc | hc
    · have h₁ := (List.mem_filter.1 hc).2
      simp only [decide_eq_true_eq] at h₁
      omega
    · have h₁ := Memory.mem_cellsFrom hc
      omega

/-- A cell after the writing of a run is a written one or was there. -/
theorem Memory.mem_writeRun {m : Memory} {a : Nat} {vs : List Byte} {c : Host.Cell} (h : c ∈ m.writeRun a vs) :
    (a ≤ c.1 ∧ c.1 < a + vs.length) ∨ c ∈ m := by
  unfold Memory.writeRun at h
  rcases List.mem_append.1 h with h | h
  · rcases List.mem_append.1 h with h | h
    · exact .inr (List.mem_filter.1 h).1
    · exact .inl (Memory.mem_cellsFrom h)
  · exact .inr (List.mem_filter.1 h).1

/-! ## Outcomes in sequence -/

@[simp] theorem andThen_next (s : State) (f : State → Outcome) : andThen (.next s) f = f s := rfl

@[simp] theorem andThen_fault (r : Fault) (f : State → Outcome) : andThen (.fault r) f = .fault r := rfl

@[simp] theorem andThen_refused (r : Refusal) (f : State → Outcome) : andThen (.refused r) f = .refused r := rfl

/-- A sequence answers a next state exactly where both parts do. -/
theorem andThen_eq_next {o : Outcome} {f : State → Outcome} {t : State} :
    andThen o f = .next t ↔ ∃ s, o = .next s ∧ f s = .next t := by
  cases o <;> simp [andThen]

theorem andThen_assoc (o : Outcome) (f g : State → Outcome) :
    andThen (andThen o f) g = andThen o fun s => andThen (f s) g := by
  cases o <;> rfl

/-! ## `emit` -/

/-- `emit` completes exactly where `OUT` has a byte at `OUT_LEN`. -/
theorem emit_eq_next {v : Byte} {s t : State} :
    emit v s = .next t ↔ s.outLen < s.outCap ∧
      t = { s with outMem := s.outMem.write s.outLen.toNat v, outLen := s.outLen + 1 } := by
  unfold emit
  split <;> simp [*, eq_comm]

theorem emit_of_lt {v : Byte} {s : State} (h : s.outLen < s.outCap) :
    emit v s = .next { s with outMem := s.outMem.write s.outLen.toNat v, outLen := s.outLen + 1 } :=
  emit_eq_next.2 ⟨h, rfl⟩

/-- `OUT_LEN + 1` does not wrap where `emit` completes. -/
theorem outLen_succ_toNat {s : State} (h : s.outLen < s.outCap) : (s.outLen + 1).toNat = s.outLen.toNat + 1 := by
  have h₁ : s.outLen.toNat < s.outCap.toNat := h
  have h₂ := s.outCap.isLt
  rw [BitVec.toNat_add, show (1 : OutLen).toNat = 1 from rfl]
  omega

/-- Everything `emitAll` does where it completes: the bytes stand at `OUT_LEN` and above, in order, `OUT_LEN` is past them,
every other byte of `OUT` and every other field is unchanged. -/
theorem emitAll_spec {vs : List Byte} {s t : State} (h : emitAll vs s = .next t) :
    t = { s with outMem := s.outMem.writeRun s.outLen.toNat vs, outLen := t.outLen } ∧
    t.outLen.toNat = s.outLen.toNat + vs.length ∧ s.outLen.toNat + vs.length ≤ s.outCap.toNat ∧
    ∀ a, t.outMem.read a =
      if s.outLen.toNat ≤ a ∧ a < s.outLen.toNat + vs.length then vs[a - s.outLen.toNat]? else s.outMem.read a := by
  unfold emitAll at h
  split at h
  · rename_i hle
    cases h
    have := s.outCap.isLt
    refine ⟨rfl, ?_, hle, fun a => Memory.read_writeRun _ _ _ _⟩
    show (s.outLen + BitVec.ofNat 72 vs.length).toNat = _
    rw [BitVec.toNat_add, BitVec.toNat_ofNat]
    omega
  · cases h

/-- `emitAll` completes where `OUT` has room for the bytes. -/
theorem emitAll_of_le {vs : List Byte} {s : State} (h : s.outLen.toNat + vs.length ≤ s.outCap.toNat) :
    ∃ t, emitAll vs s = .next t := ⟨_, if_pos h⟩

/-- `emitAll` stops only because the result is longer than `OUT_CAP`. -/
theorem emitAll_stop {vs : List Byte} {s : State} :
    (∃ t, emitAll vs s = .next t) ∨ emitAll vs s = .refused .outputBeyondCapacity := by
  unfold emitAll
  split
  · exact .inl ⟨_, rfl⟩
  · exact .inr rfl

/-- Emitting one byte after the other comes to the same bytes of `OUT` as emitting them together. -/
theorem emitAll_cons {v : Byte} {vs : List Byte} {s t u w : State} (h₁ : emit v s = .next t) (h₂ : emitAll vs t = .next u)
    (h : emitAll (v :: vs) s = .next w) : w.outLen = u.outLen ∧ ∀ a, w.outMem.read a = u.outMem.read a := by
  obtain ⟨hlt, rfl⟩ := emit_eq_next.1 h₁
  have hs := outLen_succ_toNat hlt
  obtain ⟨-, hl₂, -, hr₂⟩ := emitAll_spec h₂
  obtain ⟨-, hl, -, hr⟩ := emitAll_spec h
  simp only [hs] at hl₂ hr₂
  simp only [List.length_cons] at hl hr
  refine ⟨BitVec.eq_of_toNat_eq (by omega), fun a => ?_⟩
  rw [hr, hr₂, Memory.read_write]
  by_cases ha : a = s.outLen.toNat
  · subst ha
    rw [if_pos (by omega), if_neg (by omega), if_pos rfl]
    simp
  · by_cases hb : s.outLen.toNat + 1 ≤ a ∧ a < s.outLen.toNat + 1 + vs.length
    · obtain ⟨k, rfl⟩ : ∃ k, a = s.outLen.toNat + 1 + k := ⟨a - (s.outLen.toNat + 1), by omega⟩
      rw [if_pos (by omega), if_pos hb, show s.outLen.toNat + 1 + k - s.outLen.toNat = k + 1 by omega,
        show s.outLen.toNat + 1 + k - (s.outLen.toNat + 1) = k by omega, List.getElem?_cons_succ]
    · rw [if_neg (by omega), if_neg hb, if_neg ha]

/-- `emitAll` keeps the canonical form of `OUT`. -/
theorem emitAll_wf {vs : List Byte} {s t : State} (h : emitAll vs s = .next t) (hw : s.outMem.wf) : t.outMem.wf := by
  rw [(emitAll_spec h).1]
  exact Memory.wf_writeRun hw _ _

/-! ## The host's transactions -/

/-- Everything a host transaction other than a reset can change: `IN_LEN`, the bytes of `IN` and the bytes of `OUT`, and
those only while the block is idle. -/
theorem hostMove_spec {m : HostMove} {s t : State} (h : hostMove m s = .next t) :
    t = s ∨ (m = .reset ∧ t = s.resetEvent) ∨
      (s.phase = .idle ∧ ((∃ v, m = .writeInLen v ∧ t = { s with inLen := v }) ∨
        (∃ a v, m = .writeIn a v ∧ a < s.inCap.toNat ∧ t = { s with inMem := s.inMem.write a v }) ∨
        ∃ a v, m = .writeOut a v ∧ a < s.outCap.toNat ∧ t = { s with outMem := s.outMem.write a v })) := by
  cases m <;> simp only [hostMove] at h
  case writeInLen v =>
    split at h <;> cases h
    · exact .inl rfl
    · exact .inr (.inr ⟨by simpa using ‹¬ s.busy = true›, .inl ⟨v, rfl, rfl⟩⟩)
  case writeIn a v =>
    split at h
    · cases h
    · split at h <;> cases h
      exact .inr (.inr ⟨by simpa using ‹¬ s.busy = true›, .inr (.inl ⟨a, v, rfl, ‹_›, rfl⟩)⟩)
  case writeOut a v =>
    split at h
    · cases h
    · split at h <;> cases h
      exact .inr (.inr ⟨by simpa using ‹¬ s.busy = true›, .inr (.inr ⟨a, v, rfl, ‹_›, rfl⟩)⟩)
  case reset =>
    cases h
    exact .inr (.inl ⟨rfl, rfl⟩)
  all_goals
    cases h
    exact .inl rfl

end Sys2Proof.Machine
end

