-- ==== Sys2Proof/Laws/Tables.lean ====
section
/-!
SUPPORT. The laws of the tables: entries of `tabulate`, `HIST` after a count, the arena and the code table after a store, and
the 256 symbols.
-/

namespace Sys2Proof

@[simp] theorem getElem_tabulate {α : Type} {n : Nat} (f : Nat → α) (i : Nat) (h : i < n) : (tabulate n f)[i] = f i := by
  unfold tabulate
  simp

@[simp] theorem getElem?_tabulate {α : Type} {n : Nat} (f : Nat → α) (i : Nat) :
    (tabulate n f)[i]? = if i < n then some (f i) else none := by
  split
  · rw [Vector.getElem?_eq_getElem ‹_›, getElem_tabulate]
  · simp_all

/-- Every entry of a table is one of those it was given. -/
theorem mem_tabulate {α : Type} {n : Nat} {f : Nat → α} {x : α} (h : x ∈ tabulate n f) : ∃ i < n, x = f i := by
  obtain ⟨i, hi, rfl⟩ := Vector.mem_iff_getElem.1 h
  exact ⟨i, hi, getElem_tabulate f i hi⟩

theorem mem_allBytes (b : Byte) : b ∈ allBytes := by
  simp only [allBytes, List.mem_map, List.mem_range]
  exact ⟨b.toNat, b.isLt, by simp⟩

@[simp] theorem length_allBytes : allBytes.length = 256 := by simp [allBytes]

theorem getElem_allBytes (i : Nat) (h : i < allBytes.length) : allBytes[i] = BitVec.ofNat 8 i := by simp [allBytes]

theorem nodup_allBytes : allBytes.Nodup := by
  rw [allBytes]
  refine List.Nodup.map_on (fun x hx y hy h => ?_) List.nodup_range
  simp only [List.mem_range] at hx hy
  have := congrArg BitVec.toNat h
  simp only [BitVec.toNat_ofNat] at this
  omega

/-- The symbols are in ascending order. -/
theorem pairwise_allBytes : allBytes.Pairwise (· < ·) := by
  rw [allBytes]
  refine List.pairwise_map.2 (List.Pairwise.imp_of_mem (fun {x y} hx hy h => ?_) List.pairwise_lt_range)
  simp only [List.mem_range] at hx hy
  show (BitVec.ofNat 8 x).toNat < (BitVec.ofNat 8 y).toNat
  simp only [BitVec.toNat_ofNat]
  omega

namespace Machine

/-! ## `HIST` -/

theorem histAt_tabulate (f : Nat → Counter) (b : Byte) : histAt (tabulate 256 f) b = f b.toNat := by simp [histAt]

theorem codeAt_tabulate (f : Nat → Code) (b : Byte) : codeAt (tabulate 256 f) b = f b.toNat := by simp [codeAt]

/-- Two histograms with the same counters are equal. -/
theorem hist_ext {h k : Vector Counter 256} (e : ∀ b, histAt h b = histAt k b) : h = k := by
  refine Vector.ext fun i hi => ?_
  have := e (BitVec.ofNat 8 i)
  simp only [histAt, BitVec.toNat_ofNat] at this
  simpa [Nat.mod_eq_of_lt hi] using this

theorem histAt_bump (h : Vector Counter 256) (s b : Byte) :
    histAt (bump h s) b = if b = s then histAt h s + 1 else histAt h b := by
  unfold bump
  by_cases e : b = s
  · subst e
    simp [histAt]
  · have : s.toNat ≠ b.toNat := fun hn => e (BitVec.eq_of_toNat_eq hn.symm)
    rw [if_neg e]
    simp only [histAt]
    exact Vector.getElem_set_ne _ _ this

/-- Counting on from any histogram, in 64 bits. -/
theorem histAt_foldl_bump (bytes : List Byte) (h : Vector Counter 256) (b : Byte) :
    histAt (bytes.foldl bump h) b = histAt h b + BitVec.ofNat 64 (bytes.count b) := by
  induction bytes generalizing h with
  | nil => simp
  | cons s bytes ih =>
    rw [List.foldl_cons, ih, histAt_bump]
    by_cases e : b = s
    · subst e
      rw [if_pos rfl, List.count_cons_self, BitVec.ofNat_add, BitVec.add_assoc, BitVec.add_comm 1]
      rfl
    · rw [if_neg e, List.count_cons_of_ne (Ne.symm e)]

/-- The counters of a counted sequence, in 64 bits. -/
theorem histAt_histogram (bytes : List Byte) (b : Byte) :
    histAt (histogram bytes) b = BitVec.ofNat 64 (bytes.count b) := by
  rw [histogram, histAt_foldl_bump, histAt_tabulate]
  simp

/-! ## `NODE` and `CODE` -/

/-- An entry of the arena after a store: the stored node where there is one, else what was there. -/
theorem getElem?_storeNodes (ns : List Node) (v : Vector Node 511) (i : Nat) (h : i < 511) :
    (storeNodes ns v)[i]? = some ((ns[i]?).getD v[i]) := by
  rw [storeNodes, getElem?_tabulate, if_pos h]
  simp [h]

/-- Storing the same nodes again changes nothing. -/
theorem storeNodes_idem (ns : List Node) (v : Vector Node 511) : storeNodes ns (storeNodes ns v) = storeNodes ns v := by
  refine Vector.ext fun i hi => ?_
  have key : ∀ w : Vector Node 511, (storeNodes ns w)[i] = (ns[i]?).getD w[i] := fun w => by
    have := getElem?_storeNodes ns w i hi
    rw [Vector.getElem?_eq_getElem hi] at this
    exact Option.some.inj this
  rw [key, key]
  cases ns[i]? <;> rfl

theorem codeAt_set (t : Vector Code 256) (s b : Byte) (c : Code) :
    codeAt (t.set s.toNat c s.isLt) b = if b = s then c else codeAt t b := by
  by_cases e : b = s
  · subst e
    simp [codeAt]
  · have : s.toNat ≠ b.toNat := fun hn => e (BitVec.eq_of_toNat_eq hn.symm)
    rw [if_neg e]
    exact Vector.getElem_set_ne _ _ this

theorem storeCodes_cons (c : Byte × Code) (cs : List (Byte × Code)) (t : Vector Code 256) :
    storeCodes (c :: cs) t = storeCodes cs (t.set c.1.toNat c.2 c.1.isLt) := rfl

/-- The entry of a symbol that gets no code keeps what it held. -/
theorem codeAt_storeCodes_of_not_mem {cs : List (Byte × Code)} {b : Byte} (t : Vector Code 256)
    (h : ∀ c ∈ cs, c.1 ≠ b) : codeAt (storeCodes cs t) b = codeAt t b := by
  induction cs generalizing t with
  | nil => rfl
  | cons c cs ih =>
    rw [storeCodes_cons, ih _ fun d hd => h d (by simp [hd]), codeAt_set, if_neg]
    exact Ne.symm (h c (by simp))

/-- The entry of a symbol that gets a code does not depend on what the table held. -/
theorem codeAt_storeCodes_of_mem {cs : List (Byte × Code)} {b : Byte} (t u : Vector Code 256)
    (h : ∃ c ∈ cs, c.1 = b) : codeAt (storeCodes cs t) b = codeAt (storeCodes cs u) b := by
  induction cs generalizing t u with
  | nil => simp at h
  | cons c cs ih =>
    simp only [storeCodes_cons]
    by_cases hb : ∃ d ∈ cs, d.1 = b
    · exact ih _ _ hb
    · have hn : ∀ d ∈ cs, d.1 ≠ b := fun d hd e => hb ⟨d, hd, e⟩
      obtain ⟨d, hd, rfl⟩ := h
      rcases List.mem_cons.1 hd with rfl | hd
      · rw [codeAt_storeCodes_of_not_mem _ hn, codeAt_storeCodes_of_not_mem _ hn, codeAt_set, codeAt_set, if_pos rfl,
          if_pos rfl]
      · exact absurd rfl (hn d hd)

/-- An entry of the code table after a store is one of the codes stored or what was there. -/
theorem codeAt_storeCodes_cases (cs : List (Byte × Code)) (t : Vector Code 256) (b : Byte) :
    (b, codeAt (storeCodes cs t) b) ∈ cs ∨ codeAt (storeCodes cs t) b = codeAt t b := by
  induction cs generalizing t with
  | nil => exact .inr rfl
  | cons c cs ih =>
    rw [storeCodes_cons]
    rcases ih (t.set c.1.toNat c.2 c.1.isLt) with h | h
    · exact .inl (List.mem_cons_of_mem _ h)
    · rw [codeAt_set] at h
      split at h
      · subst_vars
        exact .inl (by simp [h])
      · exact .inr h

/-- A path the traversal gives a leaf is at most `d` bits longer than the one it starts from. -/
theorem length_of_mem_visit {node : Idx → Option Node} {d : Nat} {i : Idx} {path : List Bool} {c : Byte × Code}
    (h : c ∈ visit node d i path) : c.2.length ≤ path.length + d := by
  induction d generalizing i path with
  | zero =>
    simp only [visit] at h
    split at h <;> simp at h
    simp [h]
  | succ d ih =>
    simp only [visit] at h
    split at h
    · simp at h
      simp [h]
    · rcases List.mem_append.1 h with h | h <;>
        · have := ih h
          simp only [List.length_append, List.length_singleton] at this
          omega
    · simp at h

/-- GEN never assigns a code of more than 255 bits. -/
theorem length_of_mem_codesOf {node : Idx → Option Node} {nleaf root : Idx} {c : Byte × Code}
    (h : c ∈ codesOf node nleaf root) : c.2.length ≤ 255 := by
  unfold codesOf at h
  split at h
  · simp at h
  · split at h
    · split at h <;> simp at h
      simp [h]
    · simpa using length_of_mem_visit h

/-- An unspecified code-table entry holds at most 255 bits. -/
theorem length_freeCode (d s : Nat) : (freeCode d s).length ≤ 255 := by
  have := (Config.free d (.codeLen s) 8).isLt
  simp only [freeCode, List.length_map, List.length_range]
  omega

end Machine

end Sys2Proof
end

