-- ==== Sys2Proof/Laws/Exec.lean ====
section
/-!
SUPPORT. What each shared operation of the meanings can do, and how a step reaches an instruction's meaning.
-/

namespace Sys2Proof.Machine

/-! ## Steps -/

theorem decodePhase_code_idle : decodePhase Phase.idle.code = .error .idle := rfl

/-- The three ways a step goes: an instruction's meaning, a host transaction, or waiting. -/
theorem step_eq (s : State) :
    (∃ i s', nextTurn s = .run i s' ∧ step s = exec i s') ∨
    (∃ m s', nextTurn s = .host m s' ∧ step s = hostMove m s') ∨
    ∃ s', nextTurn s = .wait s' ∧ step s = .next s' := by
  unfold step
  cases h : nextTurn s with
  | run i s' => exact .inl ⟨i, s', rfl, rfl⟩
  | host m s' => exact .inr (.inl ⟨m, s', rfl, rfl⟩)
  | wait s' => exact .inr (.inr ⟨s', rfl, rfl⟩)

/-- Without a host transaction to come, a step runs the stage operation that `PHASE` selects. -/
theorem step_of_quiet {s : State} (h : s.host = []) {i : Instr} (hi : decodePhase s.phase.code = .ok i) :
    step s = exec i s := by
  simp only [step, nextTurn, h, stageTurn, hi]

/-- Without a host transaction to come, an idle block waits. -/
theorem step_of_idle {s : State} (h : s.host = []) (hp : s.phase = .idle) : step s = .next s := by
  simp only [step, nextTurn, h, stageTurn, hp, decodePhase_code_idle]

/-- A `CMD` write of a command word runs the command. -/
theorem step_of_command {s : State} {v : BitVec 8} {rest : List HostMove} (h : s.host = .writeCmd v :: rest)
    {i : Instr} (hi : decodeCmd v = .ok i) : step s = exec i { s with host := rest } := by
  simp only [step, nextTurn, h, hi]

/-- What uses up a turn leaves every other field as it is. -/
theorem nextTurn_spec (s : State) :
    ∃ h, (nextTurn s = .wait { s with host := h } ∧ s.phase = .idle) ∨
      (∃ i, nextTurn s = .run i { s with host := h } ∧
        (decodePhase s.phase.code = .ok i ∨ ∃ v, decodeCmd v = .ok i)) ∨
      ∃ m, nextTurn s = .host m { s with host := h } := by
  have stage : ∀ h, (stageTurn { s with host := h } = .wait { s with host := h } ∧ s.phase = .idle) ∨
      (∃ i, stageTurn { s with host := h } = .run i { s with host := h } ∧ decodePhase s.phase.code = .ok i) := by
    intro h
    simp only [stageTurn]
    cases hp : s.phase <;> simp [Phase.code, decodePhase]
  unfold nextTurn
  split
  · rename_i hh
    refine ⟨[], ?_⟩
    rcases stage [] with ⟨h₁, h₂⟩ | ⟨i, h₁, h₂⟩
    · exact .inl ⟨by rw [← h₁, ← hh], h₂⟩
    · exact .inr (.inl ⟨i, by rw [← h₁, ← hh], .inl h₂⟩)
  · rename_i m rest hh
    refine ⟨rest, ?_⟩
    split
    · rcases stage rest with ⟨h₁, h₂⟩ | ⟨i, h₁, h₂⟩
      · exact .inl ⟨h₁, h₂⟩
      · exact .inr (.inl ⟨i, h₁, .inl h₂⟩)
    · split
      · exact .inr (.inl ⟨_, rfl, .inr ⟨_, ‹_›⟩⟩)
      · exact .inr (.inr ⟨_, rfl⟩)
    · exact .inr (.inr ⟨_, rfl⟩)

/-! ## Commands -/

/-- Everything a command can do: nothing while busy, a refusal of an input beyond `IN_CAP`, or acceptance. -/
theorem launch_cases (c : Op) (s : State) :
    (s.phase ≠ .idle ∧ launch c s = .next s) ∨
    (s.phase = .idle ∧ s.inCap < s.inLen ∧ launch c s = .refused .inputBeyondCapacity) ∨
    (s.phase = .idle ∧ s.inLen ≤ s.inCap ∧ launch c s = .next (s.accept c)) := by
  unfold launch
  by_cases hb : s.busy = true
  · exact .inl ⟨by simpa using hb, by rw [if_pos hb]⟩
  · have hp : s.phase = .idle := by simpa using hb
    rw [if_neg hb]
    by_cases hc : s.inCap < s.inLen
    · exact .inr (.inl ⟨hp, hc, by rw [if_pos hc]⟩)
    · exact .inr (.inr ⟨hp, by simpa using hc, by rw [if_neg hc]⟩)

/-! ## The input -/

@[simp] theorem length_inBytes (s : State) : s.inBytes.length = s.inLen.toNat := by simp [State.inBytes]

theorem memReadIn_of_lt {s : State} {a : Nat} (h : a < s.inCap.toNat) : s.memReadIn a = some (s.inByte a) := if_pos h

/-- What the block reads of `IN` depends on `IN_LEN`, the bytes of `IN` and the free contents alone. -/
theorem inByte_congr {s t : State} (h₁ : t.inLen = s.inLen) (h₂ : t.inMem = s.inMem) (h₃ : t.era = s.era) :
    t.inByte = s.inByte := by
  funext a
  simp only [State.inByte, h₁, h₂, h₃]

/-! ## The packer -/

/-- What packing changes: the packer's registers and the output. -/
theorem packBit_frame {b : Bool} {s t : State} (h : packBit b s = .next t) :
    t = { s with acc := t.acc, nb := t.nb, outMem := t.outMem, outLen := t.outLen } := by
  unfold packBit at h
  dsimp only at h
  split at h
  · simp only [andThen_eq_next, emit_eq_next] at h
    obtain ⟨s', ⟨-, rfl⟩, h⟩ := h
    cases h
    rfl
  · cases h
    rfl

theorem packBits_frame {bs : List Bool} {s t : State} (h : packBits bs s = .next t) :
    t = { s with acc := t.acc, nb := t.nb, outMem := t.outMem, outLen := t.outLen } := by
  induction bs generalizing s with
  | nil =>
    cases h
    rfl
  | cons b bs ih =>
    simp only [packBits, andThen_eq_next] at h
    obtain ⟨s', h₁, h₂⟩ := h
    rw [ih h₂, packBit_frame h₁]

theorem packBytes_frame {bs : List Byte} {s t : State} (h : packBytes bs s = .next t) :
    t = { s with acc := t.acc, nb := t.nb, iptr := t.iptr, outMem := t.outMem, outLen := t.outLen } := by
  induction bs generalizing s with
  | nil =>
    cases h
    rfl
  | cons b bs ih =>
    simp only [packBytes, andThen_eq_next] at h
    obtain ⟨s', h₁, h₂⟩ := h
    rw [ih h₂, packBits_frame h₁]

theorem packBits_append (bs cs : List Bool) (s : State) :
    packBits (bs ++ cs) s = andThen (packBits bs s) (packBits cs) := by
  induction bs generalizing s with
  | nil => rfl
  | cons b bs ih =>
    simp only [List.cons_append, packBits, andThen_assoc]
    congr 1
    funext s'
    exact ih s'

/-! ## The walk -/

/-- A walk that completes ends the operation, in success or with CorruptStream, from a state in which only the walk's
registers and the output have changed. -/
theorem walk_ends {n : Nat} {s t : State} (h : walk n s = .next t) :
    ∃ s' : State, (t = s'.finish ∨ t = s'.raise .corruptStream) ∧
      s' = { s with tpos := s'.tpos, emitted := s'.emitted, cur := s'.cur, outMem := s'.outMem, outLen := s'.outLen } := by
  induction n generalizing s with
  | zero =>
    unfold walk at h
    split at h <;> cases h
    · exact ⟨s, .inr rfl, rfl⟩
    · exact ⟨s, .inl rfl, rfl⟩
  | succ n ih =>
    unfold walk at h
    split at h
    · split at h
      · cases h
      · dsimp only at h
        split at h
        · cases h
          exact ⟨_, .inr rfl, rfl⟩
        · simp only [andThen_eq_next, emit_eq_next] at h
          obtain ⟨s', ⟨-, rfl⟩, h⟩ := h
          obtain ⟨u, hu, e⟩ := ih h
          exact ⟨u, hu, by rw [e]⟩
        · obtain ⟨u, hu, e⟩ := ih h
          exact ⟨u, hu, by rw [e]⟩
    · cases h
      exact ⟨s, .inl rfl, rfl⟩

end Sys2Proof.Machine
end

