-- ==== Sys2Proof/Laws/PerInstr.lean ====
section
/-!
SUPPORT. The family of statements made per instruction: its word is well formed, stands in the format of its table row,
decodes to it, and is read from the row's bits.
-/

namespace Sys2Proof.Laws.F

/-- What is stated of each instruction as syntax. -/
def Statement (i : Instr) : Prop :=
  i.WellFormed = true ∧ (encode i).WellFormed = true ∧ decode (encode i) = .ok i ∧
    decodeTableWord (encode i).format.width (encode i).code = some i

theorem compress : Statement .compress := ⟨rfl, rfl, rfl, rfl⟩
theorem decompress : Statement .decompress := ⟨rfl, rfl, rfl, rfl⟩
theorem hist : Statement .hist := ⟨rfl, rfl, rfl, rfl⟩
theorem build : Statement .build := ⟨rfl, rfl, rfl, rfl⟩
theorem gen : Statement .gen := ⟨rfl, rfl, rfl, rfl⟩
theorem cHeader : Statement .cHeader := ⟨rfl, rfl, rfl, rfl⟩
theorem cValid : Statement .cValid := ⟨rfl, rfl, rfl, rfl⟩
theorem cPack : Statement .cPack := ⟨rfl, rfl, rfl, rfl⟩
theorem dCheck : Statement .dCheck := ⟨rfl, rfl, rfl, rfl⟩
theorem dHeader : Statement .dHeader := ⟨rfl, rfl, rfl, rfl⟩
theorem dValid : Statement .dValid := ⟨rfl, rfl, rfl, rfl⟩
theorem dSum : Statement .dSum := ⟨rfl, rfl, rfl, rfl⟩
theorem dWalk : Statement .dWalk := ⟨rfl, rfl, rfl, rfl⟩

end Sys2Proof.Laws.F
end

