-- ==== Sys2Proof/Laws/Worked.lean ====
section
/-!
SUPPORT. The one inversion lemma of `exec`: an instruction that answers a next state was a command without effect or
accepted, or a stage operation that worked on tables, working registers and the end of `OUT`, and then went on to another
phase, ended well or raised an error.
-/

namespace Sys2Proof.Machine

/-- What a stage operation does before it ends or goes on: the control registers and the input are as before, bytes may
have been appended to `OUT`, and the bounds of the invariant are kept. -/
structure Worked (s u : State) : Prop where
  phase : u.phase = s.phase
  done : u.done = s.done
  err : u.err = s.err
  inLen : u.inLen = s.inLen
  inMem : u.inMem = s.inMem
  op : u.op = s.op
  inCap : u.inCap = s.inCap
  outCap : u.outCap = s.outCap
  host : u.host = s.host
  draws : u.draws = s.draws
  era : u.era = s.era
  appended : ∃ vs, Appended s u vs
  outWf : s.outMem.wf → u.outMem.wf
  outBound : (∀ c ∈ s.outMem, c.1 < s.outCap.toNat) → ∀ c ∈ u.outMem, c.1 < u.outCap.toNat
  outFits : s.outLen ≤ s.outCap → u.outLen ≤ u.outCap
  codeBound : (∀ c ∈ s.code, c.length ≤ 255) → ∀ c ∈ u.code, c.length ≤ 255

/-! ## Appending -/

theorem Appended.nil (s : State) : Appended s s [] := ⟨rfl, fun _ h => absurd h (by simp), fun _ _ => rfl⟩

theorem Appended.of_eq {s u : State} (hl : u.outLen = s.outLen) (hm : u.outMem = s.outMem) : Appended s u [] :=
  ⟨by simp [hl], fun _ h => absurd h (by simp), fun _ _ => by rw [hm]⟩

theorem Appended.trans {s t u : State} {vs ws : List Byte} (h : Appended s t vs) (k : Appended t u ws) :
    Appended s u (vs ++ ws) where
  outLen := by rw [k.outLen, h.outLen, List.length_append, Nat.add_assoc]
  written j hj := by
    by_cases hv : j < vs.length
    · rw [k.others _ (.inl (by rw [h.outLen]; omega)), h.written j hv, List.getElem?_append_left hv]
    · have := k.written (j - vs.length) (by simp only [List.length_append] at hj; omega)
      rw [h.outLen, show s.outLen.toNat + vs.length + (j - vs.length) = s.outLen.toNat + j by omega] at this
      rw [this, List.getElem?_append_right (by omega)]
  others a ha := by
    simp only [List.length_append] at ha
    rw [k.others a (by rw [h.outLen]; omega), h.others a (by omega)]

/-- `emitAll` appends its bytes. -/
theorem emitAll_appended {vs : List Byte} {s t : State} (h : emitAll vs s = .next t) : Appended s t vs := by
  obtain ⟨-, hl, -, hr⟩ := emitAll_spec h
  refine ⟨hl, fun j hj => ?_, fun a ha => ?_⟩
  · rw [hr, if_pos ⟨by omega, by omega⟩, Nat.add_sub_cancel_left]
  · rw [hr, if_neg (by omega)]

theorem emit_appended {v : Byte} {s t : State} (h : emit v s = .next t) : Appended s t [v] := by
  obtain ⟨hlt, rfl⟩ := emit_eq_next.1 h
  refine ⟨outLen_succ_toNat hlt, fun j hj => ?_, fun a ha => Memory.read_write_other _ ?_⟩
  · obtain rfl : j = 0 := by simpa using hj
    exact Memory.read_write_same _ _
  · simp only [List.length_singleton] at ha
    omega

/-! ## Working -/

/-- A change of tables and working registers alone. -/
theorem Worked.of_registers {s u : State} (phase : u.phase = s.phase) (done : u.done = s.done) (err : u.err = s.err)
    (inLen : u.inLen = s.inLen) (inMem : u.inMem = s.inMem) (op : u.op = s.op) (inCap : u.inCap = s.inCap)
    (outCap : u.outCap = s.outCap) (host : u.host = s.host) (draws : u.draws = s.draws) (era : u.era = s.era)
    (outLen : u.outLen = s.outLen) (outMem : u.outMem = s.outMem)
    (codeBound : (∀ c ∈ s.code, c.length ≤ 255) → ∀ c ∈ u.code, c.length ≤ 255) : Worked s u where
  phase := phase
  done := done
  err := err
  inLen := inLen
  inMem := inMem
  op := op
  inCap := inCap
  outCap := outCap
  host := host
  draws := draws
  era := era
  appended := ⟨[], .of_eq outLen outMem⟩
  outWf h := by rwa [outMem]
  outBound h := by rwa [outMem, outCap]
  outFits h := by rwa [outLen, outCap]
  codeBound := codeBound

theorem Worked.refl (s : State) : Worked s s :=
  .of_registers rfl rfl rfl rfl rfl rfl rfl rfl rfl rfl rfl rfl rfl id

theorem Worked.trans {s t u : State} (h : Worked s t) (k : Worked t u) : Worked s u where
  phase := k.phase.trans h.phase
  done := k.done.trans h.done
  err := k.err.trans h.err
  inLen := k.inLen.trans h.inLen
  inMem := k.inMem.trans h.inMem
  op := k.op.trans h.op
  inCap := k.inCap.trans h.inCap
  outCap := k.outCap.trans h.outCap
  host := k.host.trans h.host
  draws := k.draws.trans h.draws
  era := k.era.trans h.era
  appended := by
    obtain ⟨vs, hv⟩ := h.appended
    obtain ⟨ws, hw⟩ := k.appended
    exact ⟨vs ++ ws, hv.trans hw⟩
  outWf := k.outWf ∘ h.outWf
  outBound := k.outBound ∘ h.outBound
  outFits := k.outFits ∘ h.outFits
  codeBound := k.codeBound ∘ h.codeBound

/-- `emit` works on the end of `OUT` alone. -/
theorem Worked.of_emit {v : Byte} {s t : State} (h : emit v s = .next t) : Worked s t := by
  have ha := emit_appended h
  obtain ⟨hlt, rfl⟩ := emit_eq_next.1 h
  have hlt' : s.outLen.toNat < s.outCap.toNat := hlt
  refine ⟨rfl, rfl, rfl, rfl, rfl, rfl, rfl, rfl, rfl, rfl, rfl, ⟨[v], ha⟩, fun hw => Memory.wf_write hw _ _,
    fun hb c hc => ?_, fun _ => ?_, id⟩
  · rcases Memory.mem_write hc with rfl | hc
    · exact hlt'
    · exact hb c hc
  · show (s.outLen + 1).toNat ≤ s.outCap.toNat
    rw [outLen_succ_toNat hlt]
    omega

theorem Worked.of_emitAll {vs : List Byte} {s t : State} (h : emitAll vs s = .next t) : Worked s t := by
  have ha := emitAll_appended h
  obtain ⟨e, hl, hle, -⟩ := emitAll_spec h
  rw [e]
  rw [e] at ha
  refine ⟨rfl, rfl, rfl, rfl, rfl, rfl, rfl, rfl, rfl, rfl, rfl, ⟨vs, ha⟩, fun hw => Memory.wf_writeRun hw _ _,
    fun hb c hc => ?_, fun _ => ?_, id⟩
  · show c.1 < s.outCap.toNat
    rcases Memory.mem_writeRun hc with hc | hc
    · omega
    · exact hb c hc
  · show t.outLen.toNat ≤ s.outCap.toNat
    omega

theorem Worked.of_packBit {b : Bool} {s t : State} (h : packBit b s = .next t) : Worked s t := by
  unfold packBit at h
  dsimp only at h
  split at h
  · obtain ⟨u, h₁, h₂⟩ := andThen_eq_next.1 h
    cases h₂
    have hu := Worked.of_emit h₁
    refine (Worked.trans ?_ hu).trans ?_
    · exact .of_registers rfl rfl rfl rfl rfl rfl rfl rfl rfl rfl rfl rfl rfl id
    · exact .of_registers rfl rfl rfl rfl rfl rfl rfl rfl rfl rfl rfl rfl rfl id
  · cases h
    exact .of_registers rfl rfl rfl rfl rfl rfl rfl rfl rfl rfl rfl rfl rfl id

theorem Worked.of_packBits {bs : List Bool} {s t : State} (h : packBits bs s = .next t) : Worked s t := by
  induction bs generalizing s with
  | nil =>
    cases h
    exact .refl _
  | cons b bs ih =>
    obtain ⟨u, h₁, h₂⟩ := andThen_eq_next.1 h
    exact (Worked.of_packBit h₁).trans (ih h₂)

theorem Worked.of_packBytes {bs : List Byte} {s t : State} (h : packBytes bs s = .next t) : Worked s t := by
  induction bs generalizing s with
  | nil =>
    cases h
    exact .refl _
  | cons b bs ih =>
    obtain ⟨u, h₁, h₂⟩ := andThen_eq_next.1 h
    have ht := ih h₂
    refine (Worked.of_packBits h₁).trans (Worked.trans ?_ ht)
    exact .of_registers rfl rfl rfl rfl rfl rfl rfl rfl rfl rfl rfl rfl rfl id

theorem Worked.of_flush {s t : State} (h : flush s = .next t) : Worked s t := by
  unfold flush at h
  split at h
  · cases h
    exact .refl _
  · exact .of_emit h

/-- The walk works until it ends the operation. -/
theorem walk_cases {n : Nat} {s t : State} (h : walk n s = .next t) :
    ∃ u, Worked s u ∧ (t = u.finish ∨ t = u.raise .corruptStream) := by
  induction n generalizing s with
  | zero =>
    unfold walk at h
    split at h <;> cases h
    · exact ⟨s, .refl s, .inr rfl⟩
    · exact ⟨s, .refl s, .inl rfl⟩
  | succ n ih =>
    unfold walk at h
    split at h
    · split at h
      · cases h
      · dsimp only at h
        split at h
        · cases h
          exact ⟨_, .of_registers rfl rfl rfl rfl rfl rfl rfl rfl rfl rfl rfl rfl rfl id, .inr rfl⟩
        · obtain ⟨v, h₁, h₂⟩ := andThen_eq_next.1 h
          obtain ⟨u, hu, e⟩ := ih h₂
          refine ⟨u, ?_, e⟩
          have hv := Worked.of_emit h₁
          refine (Worked.trans ?_ hv).trans (Worked.trans ?_ hu)
          · exact .of_registers rfl rfl rfl rfl rfl rfl rfl rfl rfl rfl rfl rfl rfl id
          · exact .of_registers rfl rfl rfl rfl rfl rfl rfl rfl rfl rfl rfl rfl rfl id
        · obtain ⟨u, hu, e⟩ := ih h
          refine ⟨u, Worked.trans ?_ hu, e⟩
          exact .of_registers rfl rfl rfl rfl rfl rfl rfl rfl rfl rfl rfl rfl rfl id
    · cases h
      exact ⟨s, .refl s, .inl rfl⟩

/-- Storing codes GEN assigns keeps every code within 255 bits. -/
theorem codeBound_storeCodes {cs : List (Byte × Code)} {t : Vector Code 256} (hc : ∀ c ∈ cs, c.2.length ≤ 255)
    (ht : ∀ c ∈ t, c.length ≤ 255) : ∀ c ∈ storeCodes cs t, c.length ≤ 255 := by
  intro c hm
  obtain ⟨i, hi, rfl⟩ := Vector.mem_iff_getElem.1 hm
  have e : (storeCodes cs t)[i] = codeAt (storeCodes cs t) (BitVec.ofNat 8 i) := by
    simp [codeAt, Nat.mod_eq_of_lt hi]
  rw [e]
  rcases codeAt_storeCodes_cases cs t (BitVec.ofNat 8 i) with h | h
  · exact hc _ h
  · rw [h]
    exact ht _ (Vector.getElem_mem _)

/-- The code table of an ended operation holds free codes of at most 255 bits. -/
theorem codeBound_retire (s : State) : ∀ c ∈ s.retire.code, c.length ≤ 255 := by
  intro c hc
  obtain ⟨i, -, rfl⟩ := mem_tabulate hc
  exact length_freeCode _ _

/-- How an instruction that answers a next state got there. -/
inductive Ended (i : Instr) (s t : State) : Prop where
  /-- A command while busy. -/
  | ignored (cmd : i = .compress ∨ i = .decompress) (busy : s.phase ≠ .idle) (same : t = s)
  /-- A command accepted. -/
  | accepted (c : Op) (cmd : (i = .compress ∧ c = .compress) ∨ (i = .decompress ∧ c = .decompress))
      (idle : s.phase = .idle) (fits : s.inLen ≤ s.inCap) (eq : t = s.accept c)
  /-- A stage operation went on to a phase. -/
  | goto (u : State) (p : Phase) (stage : i ≠ .compress ∧ i ≠ .decompress) (worked : Worked s u) (busy : p ≠ .idle)
      (eq : t = u.goto p)
  /-- A stage operation ended the operation well. -/
  | finish (u : State) (stage : i ≠ .compress ∧ i ≠ .decompress) (worked : Worked s u) (eq : t = u.finish)
  /-- A stage operation raised an error (R200). -/
  | raise (u : State) (e : ErrKind)
      (cause : (e = .malformedContainer ∧ (i = .dCheck ∨ i = .dValid)) ∨ (e = .corruptStream ∧ i = .dWalk))
      (worked : Worked s u) (eq : t = u.raise e)

/-- The inversion lemma of `exec`. -/
theorem exec_cases {i : Instr} {s t : State} (h : exec i s = .next t) : Ended i s t := by
  have regs : ∀ {u : State},
      u = { s with
        hist := u.hist, node := u.node, nleaf := u.nleaf, nnode := u.nnode, root := u.root, acc := u.acc, nb := u.nb
        iptr := u.iptr, vb := u.vb, totBits := u.totBits, bodyLen := u.bodyLen, avail := u.avail, tpos := u.tpos
        total := u.total, emitted := u.emitted, cur := u.cur } → Worked s u := by
    intro u hu
    rw [hu]
    exact .of_registers rfl rfl rfl rfl rfl rfl rfl rfl rfl rfl rfl rfl rfl id
  have cmd : ∀ c, launch c s = .next t →
      ((i = .compress ∧ c = .compress) ∨ (i = .decompress ∧ c = .decompress)) → Ended i s t := by
    intro c hc hi
    rcases launch_cases c s with ⟨hb, e⟩ | ⟨-, -, e⟩ | ⟨hp, hf, e⟩ <;> rw [e] at hc <;> cases hc
    · exact .ignored (hi.imp And.left And.left) hb rfl
    · exact .accepted c hi hp hf rfl
  cases i with
  | compress => exact cmd _ h (.inl ⟨rfl, rfl⟩)
  | decompress => exact cmd _ h (.inr ⟨rfl, rfl⟩)
  | hist =>
    simp only [exec, execHist] at h
    split at h
    · cases h
    · split at h <;> cases h
      · exact .finish _ (by simp) (regs rfl) rfl
      · exact .goto _ _ (by simp) (regs rfl) (by simp) rfl
  | build =>
    simp only [exec, execBuild] at h
    split at h
    · cases h
      exact .goto _ _ (by simp) (regs rfl) (by simp) rfl
    · split at h <;> cases h
      · exact .finish _ (by simp) (regs rfl) rfl
      · exact .goto _ _ (by simp) (regs rfl) (by simp) rfl
  | gen =>
    cases h
    refine .goto _ .cHeader (by simp) ?_ (by decide) rfl
    refine .of_registers rfl rfl rfl rfl rfl rfl rfl rfl rfl rfl rfl rfl rfl fun hb => ?_
    exact codeBound_storeCodes (fun c hc => length_of_mem_codesOf hc) hb
  | cHeader =>
    obtain ⟨u, h₁, h₂⟩ := andThen_eq_next.1 h
    cases h₂
    exact .goto u _ (by simp) (.of_emitAll h₁) (by simp) rfl
  | cValid =>
    obtain ⟨u, h₁, h₂⟩ := andThen_eq_next.1 h
    cases h₂
    have hu := Worked.of_emit h₁
    refine .goto u _ (by simp) (Worked.trans ?_ hu) (by simp) rfl
    exact .of_registers rfl rfl rfl rfl rfl rfl rfl rfl rfl rfl rfl rfl rfl id
  | cPack =>
    simp only [exec, execCPack] at h
    split at h
    · cases h
    · obtain ⟨u, h₁, h₂⟩ := andThen_eq_next.1 h
      obtain ⟨v, h₃, h₄⟩ := andThen_eq_next.1 h₂
      cases h₄
      have hv := (Worked.of_packBytes h₁).trans (.of_flush h₃)
      refine .finish v (by simp) (Worked.trans ?_ hv) rfl
      exact regs rfl
  | dCheck =>
    simp only [exec, execDCheck] at h
    split at h
    · cases h
      exact .finish _ (by simp) (.refl s) rfl
    · split at h <;> cases h
      · exact .raise _ _ (.inl ⟨rfl, .inl rfl⟩) (.refl s) rfl
      · exact .goto _ _ (by simp) (regs rfl) (by simp) rfl
  | dHeader =>
    simp only [exec, execDHeader] at h
    split at h <;> cases h
    exact .goto _ _ (by simp) (regs rfl) (by simp) rfl
  | dValid =>
    simp only [exec, execDValid] at h
    split at h
    · cases h
    · split at h <;> cases h
      · exact .raise _ _ (.inl ⟨rfl, .inr rfl⟩) (regs rfl) rfl
      · exact .goto _ _ (by simp) (regs rfl) (by simp) rfl
  | dSum =>
    cases h
    exact .goto _ _ (by simp) (regs rfl) (by simp) rfl
  | dWalk =>
    obtain ⟨u, hu, e⟩ := walk_cases h
    have hw : Worked s u := by
      refine Worked.trans ?_ hu
      exact .of_registers rfl rfl rfl rfl rfl rfl rfl rfl rfl rfl rfl rfl rfl id
    rcases e with e | e
    · exact .finish u (by simp) hw e
    · exact .raise u _ (.inr ⟨rfl, rfl⟩) hw e

/-- A stage operation keeps `OP`, and the phase it goes on to is one of the same command's (R94, R95). -/
theorem exec_next_phase {i : Instr} {s t : State} (hi : decodePhase s.phase.code = .ok i) (ho : s.phase ∈ s.op.stages)
    (h : exec i s = .next t) (hne : t.phase ≠ .idle) : t.op = s.op ∧ t.phase ∈ s.op.stages := by
  cases hp : s.phase <;> rw [hp] at hi <;> simp [Phase.code, decodePhase] at hi <;> subst hi
  case hist =>
    simp only [exec, execHist] at h
    split at h
    · cases h
    · split at h <;> cases h
      · simp at hne
      · cases ho' : s.op <;> simp_all [Op.stages]
  case build =>
    simp only [exec, execBuild] at h
    split at h
    · cases h
      simp_all [Op.stages]
    · split at h <;> cases h
      · simp at hne
      · simp_all [Op.stages]
  case gen =>
    cases h
    cases ho' : s.op <;> simp_all [Op.stages]
  case cHeader =>
    obtain ⟨u, h₁, h₂⟩ := andThen_eq_next.1 h
    cases h₂
    have := (Worked.of_emitAll h₁).op
    cases ho' : s.op <;> simp_all [Op.stages]
  case cValid =>
    obtain ⟨u, h₁, h₂⟩ := andThen_eq_next.1 h
    cases h₂
    have := (Worked.of_emit h₁).op
    cases ho' : s.op <;> simp_all [Op.stages]
  case cPack =>
    simp only [exec, execCPack] at h
    split at h
    · cases h
    · obtain ⟨u, -, h₂⟩ := andThen_eq_next.1 h
      obtain ⟨v, -, h₄⟩ := andThen_eq_next.1 h₂
      cases h₄
      simp at hne
  case dCheck =>
    simp only [exec, execDCheck] at h
    split at h
    · cases h
      simp at hne
    · split at h <;> cases h
      · simp at hne
      · cases ho' : s.op <;> simp_all [Op.stages]
  case dHeader =>
    simp only [exec, execDHeader] at h
    split at h <;> cases h
    cases ho' : s.op <;> simp_all [Op.stages]
  case dValid =>
    simp only [exec, execDValid] at h
    split at h
    · cases h
    · split at h <;> cases h
      · simp at hne
      · cases ho' : s.op <;> simp_all [Op.stages]
  case dSum =>
    cases h
    cases ho' : s.op <;> simp_all [Op.stages]
  case dWalk =>
    obtain ⟨u, -, e⟩ := walk_cases h
    rcases e with rfl | rfl <;> simp at hne

/-- What has been appended counts as written. -/
theorem Worked.written {s u : State} (hw : Worked s u) (h : ∀ a < s.outLen.toNat, (s.outMem.read a).isSome) :
    ∀ a < u.outLen.toNat, (u.outMem.read a).isSome := by
  obtain ⟨vs, hv⟩ := hw.appended
  have hl := hv.outLen
  intro a ha
  by_cases hlt : a < s.outLen.toNat
  · rw [hv.others a (.inl hlt)]
    exact h a hlt
  · obtain ⟨j, rfl⟩ : ∃ j, a = s.outLen.toNat + j := ⟨a - s.outLen.toNat, by omega⟩
    rw [hv.written j (by omega), List.getElem?_eq_getElem (by omega)]
    rfl

end Sys2Proof.Machine
end

