-- ==== Sys2Proof/Tests/Slice0.lean ====
section
/-!
SUPPORT. Tests of single steps against the worked examples of spec/95_test_vectors.md, and the witnesses that the
hypotheses of the obligations can be met.
-/

namespace Sys2Proof.Tests

open Sys2Proof.Machine

-- One theorem at a time: many at once cost the compiler a thread and its stack each.
set_option Elab.async false

/-- The outcome is a next state with the property. -/
def nextIs (o : Outcome) (p : State → Bool) : Bool :=
  match o with
  | .next t => p t
  | _ => false

/-- The reset state with an input. -/
def withInput (bytes : List Byte) : State :=
  { State.reset with inMem := bytes.zipIdx.map fun b => (b.2, b.1), inLen := BitVec.ofNat 64 bytes.length }

/-- The reset state with an input length alone. -/
def withLength (n : InLen) : State := { State.reset with inLen := n }

/-- The histogram with the listed counters and no others. -/
def histOf (l : List (Nat × Counter)) : Vector Counter 256 := tabulate 256 fun s => (l.lookup s).getD 0

/-- The code table with the listed codes. -/
def codesIn (l : List (Nat × Code)) : Vector Code 256 := tabulate 256 fun s => (l.lookup s).getD []

/-- The reset state with a histogram. -/
def withHist (l : List (Nat × Counter)) : State := { State.reset with hist := histOf l }

/-- The reset state with the next transaction of the host. -/
def withHost (m : HostMove) : State := { State.reset with host := [m] }

/-- The arena `ns` is in entries `0 ..` of `NODE`. -/
def arenaIs (t : State) (ns : List Node) : Bool :=
  (List.range ns.length).all fun i => nodeAt t.node (BitVec.ofNat 9 i) == ns[i]?

/-! ## Well-formedness: an ill-formed word for each check -/

theorem test_word_too_wide : TableWord.fits ⟨.cmdw, 0x101⟩ = false ∧ TableWord.fits ⟨.phase, 0x11⟩ = false := by decide

theorem test_word_reserved : TableWord.assigned ⟨.cmdw, 0x03⟩ = false ∧ TableWord.assigned ⟨.phase, 7⟩ = false := by
  decide

theorem test_ill_formed_words : TableWord.WellFormed ⟨.cmdw, 0x101⟩ = false ∧ TableWord.WellFormed ⟨.cmdw, 0⟩ = false ∧
    TableWord.WellFormed ⟨.phase, 0⟩ = false ∧ TableWord.WellFormed ⟨.phase, 13⟩ = false := by decide

/-! ## Decoding: every constructor's word, written out from R71 and R82 -/

theorem test_decode_compress : decodeTableWord 8 0b00000001 = some .compress := by decide
theorem test_decode_decompress : decodeTableWord 8 0b00000010 = some .decompress := by decide
theorem test_decode_hist : decodeTableWord 4 0b0001 = some .hist := by decide
theorem test_decode_build : decodeTableWord 4 0b0010 = some .build := by decide
theorem test_decode_gen : decodeTableWord 4 0b0011 = some .gen := by decide
theorem test_decode_cHeader : decodeTableWord 4 0b0100 = some .cHeader := by decide
theorem test_decode_cValid : decodeTableWord 4 0b0101 = some .cValid := by decide
theorem test_decode_cPack : decodeTableWord 4 0b0110 = some .cPack := by decide
theorem test_decode_dCheck : decodeTableWord 4 0b1000 = some .dCheck := by decide
theorem test_decode_dHeader : decodeTableWord 4 0b1001 = some .dHeader := by decide
theorem test_decode_dValid : decodeTableWord 4 0b1010 = some .dValid := by decide
theorem test_decode_dSum : decodeTableWord 4 0b1011 = some .dSum := by decide
theorem test_decode_dWalk : decodeTableWord 4 0b1100 = some .dWalk := by decide
theorem test_decode_reserved : decodeCmd 0x00 = .error (.reservedCommand 0x00) ∧
    decodeCmd 0x03 = .error (.reservedCommand 0x03) ∧ decodeCmd 0xFF = .error (.reservedCommand 0xFF) := by decide
theorem test_decode_unused_phase : decodePhase 7 = .error (.unusedPhase 7) ∧ decodePhase 13 = .error (.unusedPhase 13) ∧
    decodePhase 0 = .error .idle := by decide

/-- The row's word, placed for the fetch at reset, is run by the next step. -/
theorem test_fetch_compress : nextIs (step (State.reset.withFetchWord 8 1)) fun t => t.phase == .hist := by decide
theorem test_fetch_dCheck : nextIs (step (State.reset.withFetchWord 8 8)) fun t => t.status == 0x02 := by decide +kernel

/-! ## Commands -/

/-- K3: `STATUS = 0A`, `CMD <- 01`: acceptance clears `DONE` and `ERR`. -/
theorem test_compress_clears_status :
    nextIs (exec .compress { State.reset with done := true, err := .corruptStream }) fun t =>
      t.status == 0x01 && t.outLen == 0 && t.phase == .hist := by decide +kernel

/-- K4: `CMD <- 02` while busy is ignored. -/
theorem test_decompress_while_busy :
    nextIs (exec .decompress { State.reset with phase := .gen, outLen := 7 }) fun t =>
      t.phase == .gen && t.outLen == 7 && t.op == .compress := by decide +kernel

theorem test_decompress_starts :
    nextIs (exec .decompress (withLength 2050)) fun t => t.phase == .dCheck && t.op == .decompress := by decide +kernel

/-- K1, K2: reserved values are ignored. -/
theorem test_reserved_command : nextIs (step (withHost (.writeCmd 0))) (fun t => t.status == 0 && t.phase == .idle) ∧
    nextIs (step (withHost (.writeCmd 3))) (fun t => t.status == 0 && t.phase == .idle) := by decide +kernel

/-- K5: reset. -/
theorem test_reset :
    nextIs (step { State.reset with done := true, outLen := 2050, inLen := 4, host := [.reset] }) fun t =>
      t.status == 0 && t.outLen == 0 && t.inLen == 0 := by decide +kernel

/-! ## HIST -/

/-- H1. -/
theorem test_hist_counts :
    nextIs (exec .hist (withInput [0x41, 0x41, 0x41, 0x42])) fun t =>
      histAt t.hist 0x41 == 3 && histAt t.hist 0x42 == 1 && histAt t.hist 0 == 0 && t.phase == .build := by
  decide +kernel

/-- H2. -/
theorem test_hist_empty :
    nextIs (exec .hist (withInput [])) fun t => t.phase == .idle && t.done && t.outLen == 0 := by decide +kernel

/-! ## BUILD -/

/-- T5: a leaf comes out before an internal node of the same weight. -/
theorem test_build_tie :
    nextIs (exec .build (withHist [(0x10, 1), (0x20, 1), (0x30, 2)])) fun t =>
      arenaIs t [.leaf 1 0x10 false, .leaf 1 0x20 false, .leaf 2 0x30 false, .internal 2 0 1 false,
        .internal 4 2 3 true] && t.root == 4 && t.nnode == 5 && t.nleaf == 3 && t.phase == .gen := by decide +kernel

/-- T3 in a DECOMPRESS (R174): no tree, a successful end. -/
theorem test_build_no_tree :
    nextIs (exec .build { withHist [] with op := .decompress }) fun t => t.status == 0x02 := by decide +kernel

/-! ## GEN -/

/-- T6. -/
theorem test_gen_codes :
    nextIs (exec .gen (withHist [(0x61, 5), (0x62, 2), (0x63, 1), (0x64, 1), (0x72, 2)]).build) fun t =>
      codeAt t.code 0x61 == [false] && codeAt t.code 0x62 == [true, true, false] &&
        codeAt t.code 0x63 == [true, false, false] && codeAt t.code 0x64 == [true, false, true] &&
        codeAt t.code 0x72 == [true, true, true] && codeValue (codeAt t.code 0x62) == 6 := by decide +kernel

/-- T2: the single-leaf fallback. -/
theorem test_gen_single_leaf :
    nextIs (exec .gen (withHist [(0x41, 5)]).build) fun t => codeAt t.code 0x41 == [false] && t.phase == .cHeader := by
  decide +kernel

/-! ## C_HEADER, C_VALID, C_PACK -/

/-- R151: a counter's eight bytes, least significant first. -/
theorem test_header_byte_order :
    counterBytes 0x0102030405060708 = [0x08, 0x07, 0x06, 0x05, 0x04, 0x03, 0x02, 0x01] := by decide +kernel

/-- V1: `OUT[520] = 3`, `OUT[528] = 1`. -/
theorem test_cHeader :
    (nextIs (exec .cHeader (withHist [(0x41, 3), (0x42, 1)])) fun t => t.outLen == 2048 && t.phase == .cValid) ∧
    (headerBytes (histOf [(0x41, 3), (0x42, 1)]))[520]? = some 3 ∧
    (headerBytes (histOf [(0x41, 3), (0x42, 1)]))[521]? = some 0 ∧
    (headerBytes (histOf [(0x41, 3), (0x42, 1)]))[528]? = some 1 := by decide +kernel

/-- V1: four bits. -/
theorem test_cValid_partial :
    nextIs (exec .cValid { withHist [(0x41, 3), (0x42, 1)] with code := codesIn [(0x41, [true]), (0x42, [false])] })
      fun t => t.totBits == 4 && t.vb == 4 && t.outByte 0 == some 4 && t.outLen == 1 := by decide +kernel

/-- V3: an exactly full last byte. -/
theorem test_cValid_full :
    nextIs (exec .cValid { withHist [(0x41, 8)] with code := codesIn [(0x41, [false])] })
      fun t => t.vb == 8 && t.phase == .cPack := by decide +kernel

/-- V1: the flush puts the four bits at the high-order end. -/
theorem test_cPack_flush :
    nextIs (exec .cPack { withInput [0x41, 0x41, 0x41, 0x42] with
        outLen := 2049, code := codesIn [(0x41, [true]), (0x42, [false])] })
      fun t => t.outLen == 2050 && t.outByte 2049 == some 0xE0 && t.status == 0x02 := by decide +kernel

/-- V5: codes straddle bytes. -/
theorem test_cPack_straddle :
    nextIs (exec .cPack { withInput [0x61, 0x62, 0x72, 0x61, 0x63, 0x61, 0x64, 0x61, 0x62, 0x72, 0x61] with
        code := codesIn [(0x61, [false]), (0x62, [true, true, false]), (0x63, [true, false, false]),
          (0x64, [true, false, true]), (0x72, [true, true, true])] })
      fun t => t.outBytes == [some 0x6E, some 0x8A, some 0xDC] := by decide +kernel

/-! ## D_CHECK, D_HEADER, D_VALID, D_SUM, D_WALK -/

/-- V12c: 2048 bytes are too few. -/
theorem test_dCheck_short :
    nextIs (exec .dCheck { withLength 2048 with outLen := 5 }) fun t => t.status == 0x06 && t.outLen == 0 := by
  decide +kernel

/-- V12d: 2049 bytes pass. -/
theorem test_dCheck_long :
    nextIs (exec .dCheck (withLength 2049)) fun t => t.phase == .dHeader && t.bodyLen == 0 && t.done == false := by
  decide +kernel

/-- V11. -/
theorem test_dHeader :
    nextIs (exec .dHeader (withInput [0x08, 0x07, 0x06, 0x05, 0x04, 0x03, 0x02, 0x01])) fun t =>
      histAt t.hist 0 == 0x0102030405060708 && t.phase == .dValid := by decide +kernel

/-- V13b. -/
theorem test_dValid_nine :
    nextIs (exec .dValid { withLength 2050 with inMem := [(2048, 9)] }) fun t => t.status == 0x06 := by decide +kernel

/-- V15b. -/
theorem test_dValid_eight :
    nextIs (exec .dValid { withLength 2050 with inMem := [(2048, 8)] }) fun t => t.vb == 8 && t.phase == .build := by
  decide +kernel

/-- V26: the total is exact above `2^64`. -/
theorem test_dSum_exact :
    nextIs (exec .dSum (withHist [(0x41, 0xFFFFFFFFFFFFFFFF), (0x42, 0xFFFFFFFFFFFFFFFF)])) fun t =>
      t.total.toNat == 2 ^ 65 - 2 && t.phase == .dWalk := by decide +kernel

/-- The state before D_WALK of a container with the counters, valid bits and body. -/
def beforeWalk (l : List (Nat × Counter)) (vb : Byte) (body : List Byte) : State :=
  { (withHist l).build with
    inLen := BitVec.ofNat 64 (2049 + body.length)
    bodyLen := BitVec.ofNat 64 body.length
    inMem := body.zipIdx.map fun b => (2049 + b.2, b.1)
    vb := vb
    op := .decompress
    total := totalCount (histOf l)
    phase := .dWalk }

/-- V1. -/
theorem test_dWalk :
    nextIs (exec .dWalk (beforeWalk [(0x41, 3), (0x42, 1)] 4 [0xE0])) fun t =>
      t.outBytes == [some 0x41, some 0x41, some 0x41, some 0x42] && t.status == 0x02 := by decide +kernel

/-- V16a: a `1` bit in a single-leaf tree. -/
theorem test_dWalk_missing_child :
    nextIs (exec .dWalk (beforeWalk [(0x41, 5)] 5 [0x08])) fun t => t.status == 0x0A && t.outLen == 0 := by
  decide +kernel

/-! ## Witnesses: for each obligation with hypotheses, a state and operands that meet them -/

theorem witness_CommandOpcodeMap : (0x00 : BitVec 8) ≠ 0x01 ∧ (0x00 : BitVec 8) ≠ 0x02 ∧
    (0xFF : BitVec 8) ≠ 0x01 ∧ (0xFF : BitVec 8) ≠ 0x02 := by decide

theorem witness_DecodeEncodeAgree : decode ⟨.phase, 12⟩ = .ok .dWalk := rfl

theorem witness_HeaderRoundTrip : 0 < 256 ∧ 0 < 8 ∧ 255 < 256 ∧ 7 < 8 := by decide

theorem witness_BodyBitOrder : (8 < [true, true, true, true, true, true, true, true, false].length) ∧
    [true, true, true, true, true, true, true, true, false].length ≤ 9 := by decide

theorem witness_StepRunsDecoded :
    ((withHost (.writeCmd 2)).host = .writeCmd 2 :: [] ∧ decodeCmd 2 = .ok .decompress) ∧
    (({ State.reset with phase := .gen }).host = [] ∧
      decodePhase ({ State.reset with phase := .gen } : State).phase.code = .ok .gen) ∧
    (({ withHost .turn with phase := .dWalk }).host = .turn :: [] ∧
      decodePhase ({ withHost .turn with phase := .dWalk } : State).phase.code = .ok .dWalk) ∧
    State.reset.host = [] ∧ State.reset.phase = .idle := ⟨⟨rfl, rfl⟩, ⟨rfl, rfl⟩, ⟨rfl, rfl⟩, rfl, rfl⟩

theorem witness_ResetFromAnyState : ({ withHost .reset with phase := .cPack, outLen := 2049 }).host = .reset :: [] := rfl

theorem witness_CommandAccepted :
    (State.reset.phase = .idle ∧ State.reset.inLen ≤ State.reset.inCap) ∧
    ((withLength (BitVec.allOnes 64)).phase = .idle ∧
      (withLength (BitVec.allOnes 64)).inLen ≤ (withLength (BitVec.allOnes 64)).inCap) := by decide +kernel

theorem witness_CommandNotAccepted :
    ({ State.reset with phase := .build }).busy = true ∧
    (withHost (.writeCmd 0x03)).host = .writeCmd 0x03 :: [] ∧ ((0x03 : BitVec 8) ≠ 0x01 ∧ (0x03 : BitVec 8) ≠ 0x02) ∧
    ({ withHost (.writeCmd 0x02) with phase := .build }).host = .writeCmd 0x02 :: [] ∧
    ({ withHost (.writeCmd 0x02) with phase := .build }).busy = true := ⟨rfl, rfl, by decide, rfl, rfl⟩

theorem witness_LaunchBeyondCapacityRefused :
    ({ withLength 5 with inCap := 4 }).phase = .idle ∧
    ({ withLength 5 with inCap := 4 } : State).inCap < ({ withLength 5 with inCap := 4 } : State).inLen := by
  decide +kernel

theorem witness_HostRegisterWrites :
    (withHost (.writeStatus 0xFF)).host = .writeStatus 0xFF :: [] ∧
    (withHost (.writeOutLen 1)).host = .writeOutLen 1 :: [] ∧
    (({ withHost (.writeInLen 9) with phase := .hist }).host = .writeInLen 9 :: [] ∧
      ({ withHost (.writeInLen 9) with phase := .hist }).busy = true) ∧
    (withHost (.writeInLen 9)).host = .writeInLen 9 :: [] ∧ (withHost (.writeInLen 9)).busy = false :=
  ⟨rfl, rfl, ⟨rfl, rfl⟩, rfl, rfl⟩

/-- The buffer writes at the last address there is and at the first there is not. -/
theorem witness_HostBufferWrites :
    (({ withHost (.writeIn 3 7) with inCap := 4, inLen := 4 }).busy = false ∧
      3 < ({ withHost (.writeIn 3 7) with inCap := 4, inLen := 4 } : State).inCap.toNat ∧
      3 < ({ withHost (.writeIn 3 7) with inCap := 4, inLen := 4 } : State).inLen.toNat) ∧
    (({ withHost (.writeOut 3 7) with outCap := 4, outLen := 4 }).busy = false ∧
      3 < ({ withHost (.writeOut 3 7) with outCap := 4, outLen := 4 } : State).outCap.toNat ∧
      3 < ({ withHost (.writeOut 3 7) with outCap := 4, outLen := 4 } : State).outLen.toNat) ∧
    ({ withHost (.writeIn 3 7) with phase := .cPack }).busy = true ∧
    ({ withHost (.writeIn 4 7) with inCap := 4 } : State).inCap.toNat ≤ 4 ∧
    ({ withHost (.writeOut 4 7) with outCap := 4 } : State).outCap.toNat ≤ 4 := by decide +kernel

/-- Also a witness for `DoneAndErrOnlyAtEnds` and `OutAppendOnly`, whose only hypothesis is the same. -/
theorem witness_InputUntouched : ∃ t, exec .dSum State.reset = .next t := ⟨_, rfl⟩

theorem witness_ErrorCauses :
    (withLength 2048).err = .none ∧ ∃ t, exec .dCheck (withLength 2048) = .next t ∧ t.err = .malformedContainer :=
  ⟨rfl, _, rfl, rfl⟩

theorem witness_ErrorEndVoidsOutput :
    (withLength 1).err = .none ∧ ∃ t, exec .dCheck (withLength 1) = .next t ∧ t.err ≠ .none :=
  ⟨rfl, _, rfl, by simp⟩

theorem witness_HistCounts :
    (withInput [0x41]).inLen ≠ 0 ∧ (withInput [0x41]).inLen ≤ (withInput [0x41]).inCap := by decide +kernel

theorem witness_HistOfEmptyEnds : (withLength 0).inLen = 0 := rfl

theorem witness_BuildFrame :
    (withHist [(0x41, 1)]).op = .compress ∧
    (({ withHist [(0xFF, 1)] with op := .decompress }).op = .decompress ∧
      ∃ b, histAt ({ withHist [(0xFF, 1)] with op := .decompress } : State).hist b ≠ 0) ∧
    ∀ b, histAt ({ State.reset with op := .decompress } : State).hist b = 0 :=
  ⟨rfl, ⟨rfl, 0xFF, by decide +kernel⟩, fun b => histAt_tabulate _ b⟩

/-- Also a witness for `TreeInvariants`, `GenAssignsPaths` and `ChildMissingOnlySingleLeaf`, with two leaves and one. -/
theorem witness_TreeShape :
    (∃ b, histAt (withHist [(0, 1), (0xFF, 2)]).hist b ≠ 0) ∧ 2 ≤ (withHist [(0, 1), (0xFF, 2)]).build.nleaf.toNat ∧
    (∃ b, histAt (withHist [(0, 5)]).hist b ≠ 0) ∧ (withHist [(0, 5)]).build.nleaf = 1 :=
  ⟨⟨0, by decide +kernel⟩, by decide +kernel, ⟨0, by decide +kernel⟩, by decide +kernel⟩

/-- A tie between nodes 1 and 2, and a structure with no node. -/
theorem witness_ExtractMinIsLeast :
    extractMin [.leaf 2 0 true, .leaf 1 1 true, .leaf 1 2 true] =
      some (1, [.leaf 2 0 true, .leaf 1 1 false, .leaf 1 2 true]) ∧
    extractMin [.leaf 2 0 false] = none := by decide

theorem witness_MergePassChildren :
    leastKey [.leaf 3 0x41 true, .leaf 1 0x42 true] 0 = some (1, 1) ∧
    leastKey (List.modify [.leaf 3 0x41 true, .leaf 1 0x42 true] 1 Node.extracted) 0 = some (3, 0) := by decide

theorem witness_BuildReadsOnlyHist :
    (withHist [(0x41, 1)]).hist = ({ withHist [(0x41, 1)] with nnode := 7, root := 9 } : State).hist := rfl

theorem witness_CodesPrefixFree :
    histAt (histOf [(0, 1), (0xFF, 2)]) 0 ≠ 0 ∧ histAt (histOf [(0, 1), (0xFF, 2)]) 0xFF ≠ 0 ∧ (0 : Byte) ≠ 0xFF := by
  decide +kernel

theorem witness_CodeLengths :
    2 ≤ (leafNodes (histOf [(0, 1), (0xFF, 2)])).length ∧ (leafNodes (histOf [(0x41, 5)])).length = 1 := by
  decide +kernel

/-- At the least capacity that does. -/
theorem witness_CHeaderWrites :
    ({ State.reset with outCap := 2048 } : State).outLen = 0 ∧
    2048 ≤ ({ State.reset with outCap := 2048 } : State).outCap := by decide +kernel

/-- Also a witness for `HistogramConservation` and `ContainerSize`, at the clause's last length of 2341 bytes. -/
theorem witness_TotalBitsIsBodyLength :
    ([0x41] : List Byte) ≠ [] ∧ ([0x41] : List Byte).length < 2 ^ 64 ∧ (List.replicate 2341 (0 : Byte)) ≠ [] ∧
    (List.replicate 2341 (0 : Byte)).length ≤ 2341 :=
  ⟨by simp, by decide, List.cons_ne_nil _ _, by rw [List.length_replicate]⟩

/-- A total that is a multiple of 8 and one that is not. -/
theorem witness_CValidWrites :
    State.reset.outLen < State.reset.outCap ∧ (totalBits State.reset.hist State.reset.code).toNat % 8 = 0 ∧
    (totalBits (histOf [(0x41, 9)]) (codesIn [(0x41, [false])])).toNat % 8 ≠ 0 := by decide +kernel

theorem witness_PackerLeavesValidBits :
    (withLength 0).hist = histogram (withLength 0).inBytes ∧ (∀ b, (codeAt (withLength 0).code b).length ≤ 255) ∧
    packBytes (withLength 0).inBytes { withLength 0 with acc := 0, nb := 0, iptr := 0 } =
      .next { withLength 0 with acc := 0, nb := 0, iptr := 0 } :=
  ⟨rfl, fun b => by simp [withLength, State.reset, codeAt_tabulate], rfl⟩

/-- One byte of body in an `OUT` with one byte left. -/
theorem witness_CPackWrites :
    let s : State := { withInput [0x41, 0x42] with
      outCap := 1, code := codesIn [(0x41, [true]), (0x42, [false, true])] }
    s.inLen ≤ s.inCap ∧ s.outLen.toNat + (pack (s.inBytes.flatMap (codeAt s.code))).length ≤ s.outCap.toNat := by
  decide +kernel

/-- Both ends of each range. -/
theorem witness_DCheckLength :
    (withLength 0).inLen = 0 ∧ (1 ≤ (withLength 1).inLen ∧ (withLength 1).inLen ≤ 2048) ∧
    (1 ≤ (withLength 2048).inLen ∧ (withLength 2048).inLen ≤ 2048) ∧ 2049 ≤ (withLength 2049).inLen := by decide +kernel

theorem witness_DHeaderParses : 2048 ≤ ({ State.reset with inCap := 2048 } : State).inCap := by decide +kernel

/-- `VB` at 0, 1, 8 and 9, in an `IN` that just has the byte. -/
theorem witness_DValidRange :
    let s := fun vb : Byte => ({ withLength 2049 with inCap := 2049, inMem := [(2048, vb)] } : State)
    2048 < (s 0).inCap ∧ (s 0).inByte 2048 = 0 ∧ 9 ≤ (s 9).inByte 2048 ∧ 1 ≤ (s 1).inByte 2048 ∧
    (s 8).inByte 2048 ≤ 8 := by decide +kernel

theorem witness_DSumTotals :
    (withHist [(0x41, 3)]).build = State.build (withHist [(0x41, 3)]) ∧ ∃ b, histAt (withHist [(0x41, 3)]).hist b ≠ 0 :=
  ⟨rfl, 0x41, by decide +kernel⟩

/-- A body of no byte and one of a full byte, in an `OUT` that just has the room. -/
theorem witness_DWalkResult :
    (let s : State := { State.reset with vb := 1, inCap := 2049, outCap := 0 }
     2049 + s.bodyLen.toNat ≤ s.inCap.toNat ∧ 1 ≤ s.vb ∧ s.vb ≤ 8 ∧
     s.outLen.toNat + walkableBits s.bodyLen.toNat s.vb.toNat ≤ s.outCap.toNat) ∧
    let s : State := { State.reset with vb := 8, bodyLen := 1, inCap := 2050, outCap := 8 }
    2049 + s.bodyLen.toNat ≤ s.inCap.toNat ∧ 1 ≤ s.vb ∧ s.vb ≤ 8 ∧
    s.outLen.toNat + walkableBits s.bodyLen.toNat s.vb.toNat ≤ s.outCap.toNat := by decide +kernel

/-- One symbol from a single-leaf tree. -/
theorem witness_ExcessBitsIgnored :
    walkBits (fun _ => some (.leaf 1 0x41 true)) 1 0 1 0 [false] = .ok [0x41] := rfl

/-- The shortest container that decodes: 2048 zero bytes and a valid-bits byte (V14a). -/
theorem witness_DecodedOutput :
    2049 ≤ (List.replicate 2048 (0 : Byte) ++ [1]).length ∧
    decompress (List.replicate 2048 (0 : Byte) ++ [1]) = .ok [] := by
  have len : (List.replicate 2048 (0 : Byte) ++ [1]).length = 2049 := by
    rw [List.length_append, List.length_replicate, List.length_singleton]
  have zero : ∀ a < 2048, (List.replicate 2048 (0 : Byte) ++ [1]).getD a 0 = 0 := fun a ha =>
    (List.getD_append _ _ _ _ (by rwa [List.length_replicate])).trans (List.getD_replicate _ ha)
  have last : (List.replicate 2048 (0 : Byte) ++ [1]).getD 2048 0 = 1 := by
    rw [List.getD_append_right _ _ _ _ (by rw [List.length_replicate]), List.length_replicate]
    rfl
  generalize List.replicate 2048 (0 : Byte) ++ [1] = c at *
  have none : leafNodes (parseHeader fun a => c.getD a 0) = [] := by
    rw [leafNodes, List.filterMap_eq_nil_iff]
    refine fun s _ => if_pos ?_
    rw [parseHeader, histAt_tabulate, counterAt]
    have : s.toNat < 256 := s.isLt
    simp only [List.range, List.range.loop, List.foldl]
    rw [zero, zero, zero, zero, zero, zero, zero, zero] <;> first | omega | rfl
  refine ⟨len.ge, ?_⟩
  rw [decompress, if_neg (by omega), if_neg (by omega)]
  dsimp only
  rw [if_neg (by rw [last]; decide), if_pos (by rw [buildNodes, none]; rfl)]

theorem witness_CompressRun :
    let s : State := { withInput [0x41] with host := [.writeCmd 0x01], outCap := 2050 }
    s.launches 0x01 ∧ s.inLen ≤ s.inCap ∧ (compress s.inBytes).length ≤ s.outCap.toNat :=
  ⟨⟨rfl, rfl⟩, by decide +kernel, by decide +kernel⟩

theorem witness_DecompressRun :
    let s : State := { withLength 2050 with host := [.writeCmd 0x02], outCap := 8 }
    s.launches 0x02 ∧ s.inLen ≤ s.inCap ∧ 8 * (s.inLen.toNat - 2049) ≤ s.outCap.toNat :=
  ⟨⟨rfl, rfl⟩, by decide +kernel, by decide +kernel⟩

theorem witness_CompressDecompressRoundTrip : ([0x41, 0x42] : List Byte).length < 2 ^ 64 := by decide

theorem witness_EmptyIdentity :
    (withHost (.writeCmd 0x01)).launches 0x01 ∧ (withHost (.writeCmd 0x01)).inLen = 0 ∧
    (withHost (.writeCmd 0x02)).launches 0x02 := ⟨⟨rfl, rfl⟩, rfl, ⟨rfl, rfl⟩⟩

theorem witness_SingleSymbolContainer : 1 ≤ 1 ∧ 1 < 2 ^ 64 ∧ 1 ≤ 2 ^ 64 - 1 ∧ 2 ^ 64 - 1 < 2 ^ 64 := by decide

/-- Two idle blocks with the same one-byte input, one fresh and one full of an earlier operation's leavings. -/
theorem witness_ResultDependsOnInputAlone :
    let s : State := { withInput [0x41] with host := [.writeCmd 0x01] }
    let s' : State := { withInput [0x41] with
      host := [.writeCmd 0x01], done := true, err := .corruptStream, root := 3, nleaf := 2, outMem := [(0, 9)] }
    s.launches 0x01 ∧ s'.launches 0x01 ∧ s.inLen = s'.inLen ∧ s.inBytes = s'.inBytes ∧ s.inLen ≤ s.inCap ∧
    s.inLen ≤ s'.inCap ∧ (compress s.inBytes).length ≤ s.outCap.toNat ∧
    (compress s.inBytes).length ≤ s'.outCap.toNat ∧ 8 * (s.inLen.toNat - 2049) ≤ s.outCap.toNat ∧
    8 * (s.inLen.toNat - 2049) ≤ s'.outCap.toNat :=
  ⟨⟨rfl, rfl⟩, ⟨rfl, rfl⟩, rfl, rfl, by decide +kernel, by decide +kernel, by decide +kernel, by decide +kernel,
    by decide +kernel, by decide +kernel⟩

/-- A DECOMPRESS of the shortest container past its length check. -/
def inHeader : State := { withLength 2049 with phase := .dHeader, op := .decompress }

theorem witness_StepKeepsStateInvariant : inHeader.Inv ∧ ∃ t, step inHeader = .next t := by
  refine ⟨⟨Memory.wf_nil, Memory.wf_nil, nofun, nofun, by decide +kernel, ?_, by decide +kernel, fun _ => rfl,
    fun h => absurd rfl h, fun _ => by decide, fun _ => by decide +kernel, fun c hc => ?_⟩, _, rfl⟩
  · intro a ha
    exact absurd ha (Nat.not_lt_zero a)
  · obtain ⟨i, -, rfl⟩ := mem_tabulate hc
    exact Nat.zero_le _

/-- Also a witness for `OperationEnds` and `StagesStopOnlyForCapacity`. -/
theorem witness_StepKeepsStageInvariant :
    inHeader.StageInv ∧ inHeader.busy = true ∧ inHeader.host = [] ∧ decodePhase inHeader.phase.code = .ok .dHeader := by
  refine ⟨⟨fun _ _ _ => rfl, fun h => ?_, fun _ => by decide +kernel, fun h => ?_, fun h => ?_, fun h => ?_, fun h => ?_,
    fun h => ?_, fun h => ?_, fun h => ?_, fun h => ?_, fun h => ?_⟩, rfl, rfl, rfl⟩ <;>
    simp [inHeader, withLength, State.reset, State.pastValid, State.pastBuild] at h

end Sys2Proof.Tests
end

section
/-!
Where an outcome can stop (spec/00_scope.md R9, spec/93 U5, U6): the launch, refused beyond `IN_CAP`, and the stage
operations, whose only stop in the states of the invariants is `outputBeyondCapacity`.
-/

namespace Sys2Proof.Machine

/-! ## The launch -/

/-- An idle block refuses either command where the input is longer than `IN` (spec/93 U5). -/
theorem launch_of_beyond_capacity {s : State} (c : Op) (hp : s.phase = .idle) (hc : s.inCap < s.inLen) :
    launch c s = .refused .inputBeyondCapacity := by
  rcases launch_cases c s with ⟨hb, -⟩ | ⟨-, -, e⟩ | ⟨-, hf, -⟩
  · exact absurd hp hb
  · exact e
  · exact absurd hc (BitVec.not_lt.2 hf)

/-- Settles O11: both commands are `launch`. -/
theorem launchBeyondCapacityRefused : Obligations.LaunchBeyondCapacityRefused :=
  fun _ hp hc => ⟨launch_of_beyond_capacity .compress hp hc, launch_of_beyond_capacity .decompress hp hc⟩

/-! ## Outcomes that stop only for the capacity of `OUT` -/

/-- The outcome is a next state, or the refusal of a result longer than `OUT_CAP`; it is no fault. -/
def StopsOnlyForCapacity (o : Outcome) : Prop := (∃ t, o = .next t) ∨ o = .refused .outputBeyondCapacity

@[simp] theorem stopsOnlyForCapacity_next (s : State) : StopsOnlyForCapacity (.next s) := .inl ⟨s, rfl⟩

@[simp] theorem stopsOnlyForCapacity_refused : StopsOnlyForCapacity (.refused .outputBeyondCapacity) := .inr rfl

/-- A sequence stops only for capacity where its first part does, and its second does after every state the first answers. -/
theorem StopsOnlyForCapacity.andThen {o : Outcome} {f : State → Outcome} (ho : StopsOnlyForCapacity o)
    (hf : ∀ s, o = .next s → StopsOnlyForCapacity (f s)) : StopsOnlyForCapacity (andThen o f) := by
  rcases ho with ⟨s, rfl⟩ | rfl
  · exact hf s rfl
  · exact .inr rfl

theorem emit_stopsOnlyForCapacity (v : Byte) (s : State) : StopsOnlyForCapacity (emit v s) := by
  unfold emit
  split <;> simp

/-! ## The packer -/

theorem packBit_stopsOnlyForCapacity (b : Bool) (s : State) : StopsOnlyForCapacity (packBit b s) := by
  unfold packBit
  dsimp only
  split
  · exact (emit_stopsOnlyForCapacity _ _).andThen fun _ _ => stopsOnlyForCapacity_next _
  · exact stopsOnlyForCapacity_next _

theorem packBits_stopsOnlyForCapacity (bs : List Bool) (s : State) : StopsOnlyForCapacity (packBits bs s) := by
  induction bs generalizing s with
  | nil => exact stopsOnlyForCapacity_next s
  | cons b bs ih => exact (packBit_stopsOnlyForCapacity b s).andThen fun u _ => ih u

theorem packBytes_stopsOnlyForCapacity (bs : List Byte) (s : State) : StopsOnlyForCapacity (packBytes bs s) := by
  induction bs generalizing s with
  | nil => exact stopsOnlyForCapacity_next s
  | cons b bs ih => exact (packBits_stopsOnlyForCapacity _ s).andThen fun _ _ => ih _

theorem flush_stopsOnlyForCapacity (s : State) : StopsOnlyForCapacity (flush s) := by
  unfold flush
  split
  · exact stopsOnlyForCapacity_next s
  · exact emit_stopsOnlyForCapacity _ s

/-! ## The walk -/

/-- A body bit in a byte below `IN_CAP` can be read. -/
theorem bodyBit_of_lt {s : State} {t : Nat} (h : 2049 + t / 8 < s.inCap.toNat) :
    ∃ b, s.bodyBit t = some b :=
  ⟨_, by rw [State.bodyBit, memReadIn_of_lt h, Option.map_some]⟩

/-- A walk whose bits all lie in `IN` meets no byte that does not exist. -/
theorem walk_stopsOnlyForCapacity {n : Nat} {s : State}
    (hin : ∀ t < s.tpos.toNat + n, 2049 + t / 8 < s.inCap.toNat) : StopsOnlyForCapacity (walk n s) := by
  induction n generalizing s with
  | zero =>
    unfold walk
    split <;> exact stopsOnlyForCapacity_next _
  | succ n ih =>
    have hpos : (s.tpos + 1).toNat ≤ s.tpos.toNat + 1 := Nat.mod_le _ _
    have hrest : ∀ t < (s.tpos + 1).toNat + n, 2049 + t / 8 < s.inCap.toNat :=
      fun t ht => hin t (by omega)
    obtain ⟨bit, hbit⟩ := bodyBit_of_lt (hin s.tpos.toNat (by omega))
    unfold walk
    split
    · rw [hbit]
      dsimp only
      split
      · exact stopsOnlyForCapacity_next _
      · refine (emit_stopsOnlyForCapacity _ _).andThen fun u hu => ih ?_
        obtain ⟨-, rfl⟩ := emit_eq_next.1 hu
        exact hrest
      · exact ih hrest
    · exact stopsOnlyForCapacity_next _

/-- With `VB` at most 8 the walk may read no bit beyond the body's bytes (R176). -/
theorem walkableBits_le {n vb : Nat} (h : vb ≤ 8) : walkableBits n vb ≤ 8 * n := by
  unfold walkableBits
  split <;> omega

/-! ## The stage operations, each under what its case of the invariants gives -/

theorem execHist_stopsOnlyForCapacity {s : State} (h : s.inLen ≤ s.inCap) : StopsOnlyForCapacity (execHist s) := by
  unfold execHist
  rw [if_neg (BitVec.not_lt.2 h)]
  dsimp only
  split <;> exact stopsOnlyForCapacity_next _

theorem execBuild_stopsOnlyForCapacity (s : State) : StopsOnlyForCapacity (execBuild s) := by
  unfold execBuild
  split
  · exact stopsOnlyForCapacity_next _
  · split <;> exact stopsOnlyForCapacity_next _

theorem execCHeader_stopsOnlyForCapacity (s : State) : StopsOnlyForCapacity (execCHeader s) :=
  StopsOnlyForCapacity.andThen emitAll_stop fun _ _ => stopsOnlyForCapacity_next _

theorem execCValid_stopsOnlyForCapacity (s : State) : StopsOnlyForCapacity (execCValid s) :=
  (emit_stopsOnlyForCapacity _ _).andThen fun _ _ => stopsOnlyForCapacity_next _

theorem execCPack_stopsOnlyForCapacity {s : State} (h : s.inLen ≤ s.inCap) : StopsOnlyForCapacity (execCPack s) := by
  unfold execCPack
  rw [if_neg (BitVec.not_lt.2 h)]
  exact (packBytes_stopsOnlyForCapacity _ _).andThen fun u _ =>
    (flush_stopsOnlyForCapacity u).andThen fun _ _ => stopsOnlyForCapacity_next _

theorem execDCheck_stopsOnlyForCapacity (s : State) : StopsOnlyForCapacity (execDCheck s) := by
  unfold execDCheck
  split
  · exact stopsOnlyForCapacity_next _
  · split <;> exact stopsOnlyForCapacity_next _

theorem execDHeader_stopsOnlyForCapacity {s : State} (h : 2048 ≤ s.inCap) : StopsOnlyForCapacity (execDHeader s) := by
  unfold execDHeader
  rw [if_neg (BitVec.not_lt.2 h)]
  exact stopsOnlyForCapacity_next _

theorem execDValid_stopsOnlyForCapacity {s : State} (h : 2048 < s.inCap.toNat) :
    StopsOnlyForCapacity (execDValid s) := by
  unfold execDValid
  rw [memReadIn_of_lt h]
  exact stopsOnlyForCapacity_next _

theorem execDWalk_stopsOnlyForCapacity {s : State} (hvb : s.vb.toNat ≤ 8)
    (hbody : 2049 + s.bodyLen.toNat ≤ s.inCap.toNat) : StopsOnlyForCapacity (execDWalk s) := by
  have havail : s.startWalk.avail.toNat ≤ 8 * s.bodyLen.toNat :=
    (BitVec.toNat_ofNat _ _).trans_le ((Nat.mod_le _ _).trans (walkableBits_le hvb))
  have hstart : s.startWalk.tpos.toNat = 0 := rfl
  refine walk_stopsOnlyForCapacity fun t ht => ?_
  rw [State.startWalk_inCap]
  omega

/-! ## Every stage operation -/

/-- Past `D_CHECK` the container's bytes lie in `IN`: 2049 of them and then the body (R171). -/
theorem container_fits {s : State} (hfit : s.inLen ≤ s.inCap) (hlen : 2049 ≤ s.inLen ∧ s.bodyLen = s.inLen - 2049) :
    2049 + s.bodyLen.toNat ≤ s.inCap.toNat := by
  obtain ⟨hlong, hbody⟩ := hlen
  rw [hbody]
  bv_omega

/-- In the states of the invariants the stage operation that `PHASE` selects stops only for the capacity of `OUT`. -/
theorem exec_stopsOnlyForCapacity {s : State} {i : Instr} (hs : s.Inv) (hg : s.StageInv)
    (hi : decodePhase s.phase.code = .ok i) : StopsOnlyForCapacity (exec i s) := by
  have hfit : s.phase ≠ .idle → s.inLen ≤ s.inCap := fun hp => hs.inFits (by simpa using hp)
  have hcontainer : s.pastValid ∨ s.phase = .dHeader ∨ s.phase = .dValid →
      2049 + s.bodyLen.toNat ≤ s.inCap.toNat := fun h =>
    container_fits (hfit (by rcases h with (⟨h, -⟩ | h | h) | h | h <;> simp [h])) (hg.longEnough h)
  cases hp : s.phase <;> rw [hp] at hi <;> cases hi
  case hist => exact execHist_stopsOnlyForCapacity (hfit (by simp [hp]))
  case build => exact execBuild_stopsOnlyForCapacity s
  case gen => exact stopsOnlyForCapacity_next _
  case cHeader => exact execCHeader_stopsOnlyForCapacity s
  case cValid => exact execCValid_stopsOnlyForCapacity s
  case cPack => exact execCPack_stopsOnlyForCapacity (hfit (by simp [hp]))
  case dCheck => exact execDCheck_stopsOnlyForCapacity s
  case dHeader =>
    have hlen := hcontainer (.inr (.inl hp))
    exact execDHeader_stopsOnlyForCapacity (by bv_omega)
  case dValid =>
    have hlen := hcontainer (.inr (.inr hp))
    exact execDValid_stopsOnlyForCapacity (by omega)
  case dSum => exact stopsOnlyForCapacity_next _
  case dWalk =>
    have hpast : s.pastValid := .inr (.inr hp)
    obtain ⟨-, -, hvb⟩ := hg.validBits hpast
    exact execDWalk_stopsOnlyForCapacity hvb (hcontainer (.inl hpast))

/-- Settles O54: `PHASE` selects a stage operation, and each one's reads of `IN` lie within what the invariants give it. -/
theorem stagesStopOnlyForCapacity : Obligations.StagesStopOnlyForCapacity :=
  fun _ _ hs hg hi => exec_stopsOnlyForCapacity hs hg hi

end Sys2Proof.Machine
end

section
/-!
The host's side of a step (spec/10_state.md R22 to R25, R34, spec/20_memory.md R58): which step the next transaction makes,
what a register or buffer write changes, and the bits and the life of `STATUS` (R23).
-/

namespace Sys2Proof.Machine

/-! ## Whose step it is -/

/-- A transaction other than a command and a turn is performed by the host port. -/
theorem step_of_move {s : State} {m : HostMove} {rest : List HostMove} (h : s.host = m :: rest) (ht : m ≠ .turn)
    (hc : ∀ v, m ≠ .writeCmd v) : step s = hostMove m { s with host := rest } := by
  cases m with
  | turn => exact absurd rfl ht
  | writeCmd v => exact absurd rfl (hc v)
  | _ => simp only [step, nextTurn, h]

/-- A turn gives the block the stage operation that `PHASE` selects. -/
theorem step_of_turn {s : State} {rest : List HostMove} (h : s.host = .turn :: rest) {i : Instr}
    (hi : decodePhase s.phase.code = .ok i) : step s = exec i { s with host := rest } := by
  simp only [step, nextTurn, h, stageTurn, hi]

/-- Settles O6: one rule for each way a step reaches an instruction, and one for waiting. -/
theorem stepRunsDecoded : Obligations.StepRunsDecoded :=
  ⟨fun _ _ _ _ h hi => step_of_command h hi, fun _ _ h hi => step_of_quiet h hi, fun _ _ _ h hi => step_of_turn h hi,
    fun _ h hp => step_of_idle h hp⟩

/-! ## `STATUS` -/

/-- The parts of a byte put together as `STATUS` is. -/
theorem statusByte_parts (e : BitVec 2) (d b : Bool) :
    ((0 : BitVec 4) ++ e ++ BitVec.ofBool d ++ BitVec.ofBool b).getLsbD 0 = b ∧
    ((0 : BitVec 4) ++ e ++ BitVec.ofBool d ++ BitVec.ofBool b).getLsbD 1 = d ∧
    ((0 : BitVec 4) ++ e ++ BitVec.ofBool d ++ BitVec.ofBool b).extractLsb' 2 2 = e ∧
    ((0 : BitVec 4) ++ e ++ BitVec.ofBool d ++ BitVec.ofBool b).extractLsb' 4 4 = 0 := by
  revert e d b
  decide

theorem ErrKind.code_ne_three (e : ErrKind) : e.code ≠ 3 := by cases e <;> decide

theorem State.busy_eq_decide (s : State) : s.busy = decide (s.phase ≠ .idle) :=
  Bool.eq_iff_iff.2 (by simp)

/-- Settles O12: `STATUS` is put together from `ERR`'s code, `DONE` and `BUSY`. -/
theorem statusRegisterLayout : Obligations.StatusRegisterLayout := by
  intro s
  obtain ⟨hbusy, hdone, herr, hzero⟩ := statusByte_parts s.err.code s.done s.busy
  exact ⟨hbusy.trans s.busy_eq_decide, hdone, herr, s.err.code_ne_three, hzero⟩

/-- Settles O16: of the ways an instruction ends, only an accepted command and an end touch `DONE` and `ERR`. -/
theorem doneAndErrOnlyAtEnds : Obligations.DoneAndErrOnlyAtEnds := by
  intro i s t h
  cases exec_cases h with
  | ignored _ _ same => exact .inl (same ▸ ⟨rfl, rfl⟩)
  | accepted c cmd idle _ eq =>
    subst eq
    exact .inr (.inr ⟨cmd.imp And.left And.left, idle, by cases c <;> simp [Op.firstPhase], rfl, rfl⟩)
  | goto u p _ worked _ eq => exact .inl (eq ▸ ⟨worked.done, worked.err⟩)
  | finish u _ _ eq => exact .inr (.inl (eq ▸ ⟨rfl, rfl⟩))
  | raise u e _ _ eq => exact .inr (.inl (eq ▸ ⟨rfl, rfl⟩))

/-! ## Register writes -/

theorem step_of_writeInLen_busy {s : State} {v : InLen} {rest : List HostMove} (h : s.host = .writeInLen v :: rest)
    (hb : s.busy = true) : step s = .next { s with host := rest } :=
  (step_of_move h nofun nofun).trans (if_pos hb)

theorem step_of_writeInLen_idle {s : State} {v : InLen} {rest : List HostMove} (h : s.host = .writeInLen v :: rest)
    (hb : s.busy = false) : step s = .next { s with host := rest, inLen := v } :=
  (step_of_move h nofun nofun).trans (if_neg (ne_true_of_eq_false hb))

/-- Settles O13: the host port ignores what is read-only to the host and takes `IN_LEN` while idle alone. -/
theorem hostRegisterWrites : Obligations.HostRegisterWrites :=
  ⟨fun _ _ _ h => step_of_move h nofun nofun, fun _ _ _ h => step_of_move h nofun nofun,
    fun _ _ _ h hb => step_of_writeInLen_busy h hb, fun _ _ _ h hb => step_of_writeInLen_idle h hb⟩

/-! ## Buffer writes -/

section
variable {s : State} {a : Nat} {v : Byte} {rest : List HostMove}

theorem step_of_writeIn_lt (h : s.host = .writeIn a v :: rest) (hb : s.busy = false) (ha : a < s.inCap.toNat) :
    step s = .next { s with host := rest, inMem := s.inMem.write a v } :=
  (step_of_move h nofun nofun).trans ((if_neg (ne_true_of_eq_false hb)).trans (if_pos ha))

theorem step_of_writeOut_lt (h : s.host = .writeOut a v :: rest) (hb : s.busy = false) (ha : a < s.outCap.toNat) :
    step s = .next { s with host := rest, outMem := s.outMem.write a v } :=
  (step_of_move h nofun nofun).trans ((if_neg (ne_true_of_eq_false hb)).trans (if_pos ha))

theorem step_of_writeIn_le (h : s.host = .writeIn a v :: rest) (hb : s.busy = false) (ha : s.inCap.toNat ≤ a) :
    step s = .fault .noSuchByte :=
  (step_of_move h nofun nofun).trans ((if_neg (ne_true_of_eq_false hb)).trans (if_neg (Nat.not_lt.2 ha)))

theorem step_of_writeOut_le (h : s.host = .writeOut a v :: rest) (hb : s.busy = false) (ha : s.outCap.toNat ≤ a) :
    step s = .fault .noSuchByte :=
  (step_of_move h nofun nofun).trans ((if_neg (ne_true_of_eq_false hb)).trans (if_neg (Nat.not_lt.2 ha)))

/-- A buffer write while busy breaks the ownership rule (R58, log entry 12). -/
theorem step_of_bufferWrite_busy (h : s.host = .writeIn a v :: rest ∨ s.host = .writeOut a v :: rest)
    (hb : s.busy = true) : step s = .refused .hostBreaksOwnership := by
  rcases h with h | h
  · exact (step_of_move h nofun nofun).trans (if_pos hb)
  · exact (step_of_move h nofun nofun).trans (if_pos hb)

end

/-- The byte written to `IN` is read where `IN_LEN` covers it. -/
theorem inByte_write_same {s t : State} {a : Nat} {v : Byte} (hl : t.inLen = s.inLen) (hm : t.inMem = s.inMem.write a v)
    (ha : a < s.inLen.toNat) : t.inByte a = v := by
  rw [State.inByte, hl, hm, if_pos ha, Memory.read_write_same, Option.getD_some]

/-- Every other byte of `IN` reads as before a write. -/
theorem inByte_write_other {s t : State} {a b : Nat} {v : Byte} (hl : t.inLen = s.inLen) (he : t.era = s.era)
    (hm : t.inMem = s.inMem.write a v) (hb : b ≠ a) : t.inByte b = s.inByte b := by
  simp only [State.inByte, hl, he, hm, Memory.read_write_other v hb]

/-- The byte written to `OUT` is read where `OUT_LEN` covers it. -/
theorem outByte_write_same {s t : State} {a : Nat} {v : Byte} (hl : t.outLen = s.outLen)
    (hm : t.outMem = s.outMem.write a v) (ha : a < s.outLen.toNat) : t.outByte a = some v := by
  rw [State.outByte, hl, hm, if_pos ha, Memory.read_write_same]

/-- Every other byte of `OUT` reads as before a write. -/
theorem outByte_write_other {s t : State} {a b : Nat} {v : Byte} (hl : t.outLen = s.outLen)
    (hm : t.outMem = s.outMem.write a v) (hb : b ≠ a) : t.outByte b = s.outByte b := by
  simp only [State.outByte, hl, hm, Memory.read_write_other v hb]

/-- Settles O14: a write below the capacity of an idle block stores its byte by `Memory.write`; each other case is a stop
of the host port. -/
theorem hostBufferWrites : Obligations.HostBufferWrites := by
  refine ⟨fun s a v rest h hb ha => ?_, fun s a v rest h hb ha => ?_, fun s a v rest => step_of_bufferWrite_busy,
    fun s a v rest => step_of_writeIn_le, fun s a v rest => step_of_writeOut_le⟩
  · exact ⟨_, step_of_writeIn_lt h hb ha, rfl, Memory.read_write_same a v, fun b => Memory.read_write_other v,
      inByte_write_same rfl rfl, fun b => inByte_write_other (v := v) rfl rfl rfl⟩
  · exact ⟨_, step_of_writeOut_lt h hb ha, rfl, Memory.read_write_same a v, fun b => Memory.read_write_other v,
      outByte_write_same rfl rfl, fun b => outByte_write_other (v := v) rfl rfl⟩

end Sys2Proof.Machine
end

section
/-!
The state invariant (spec/10_state.md R23, R25, R34): it holds at reset, and every step keeps it. Each way `exec_cases` and
`hostMove_spec` name to get to a next state has its lemma.
-/

namespace Sys2Proof.Machine

/-! ## Reset (R38, R220) -/

/-- In `IDLE` the stage invariant says nothing: each of its clauses speaks of the stages of an operation in progress. -/
theorem State.StageInv.of_idle {s : State} (h : s.phase = .idle) : s.StageInv := by
  constructor <;> intro hp <;> simp [h, State.pastValid, State.pastBuild] at hp

theorem State.not_busy_of_idle {s : State} (h : s.phase = .idle) : ¬ s.busy = true := by simp [h]

/-- An idle block with both buffers empty and `STATUS` clear meets the state invariant. -/
theorem State.Inv.of_empty {s : State} (phase : s.phase = .idle) (done : s.done = false) (err : s.err = .none)
    (outLen : s.outLen = 0) (inMem : s.inMem = []) (outMem : s.outMem = []) (code : ∀ c ∈ s.code, c.length ≤ 255) :
    s.Inv where
  inWf := inMem ▸ Memory.wf_nil
  outWf := outMem ▸ Memory.wf_nil
  inBound := by simp [inMem]
  outBound := by simp [outMem]
  outFits := outLen ▸ Nat.zero_le _
  outWritten := by simp [outLen]
  notBusyDone := by simp [done]
  errOnlyDone _ := err
  errNoOutput _ := outLen
  phaseOfOp h := absurd h (not_busy_of_idle phase)
  inFits h := absurd h (not_busy_of_idle phase)
  codeBound := code

theorem State.reset_inv : State.reset.Inv :=
  .of_empty rfl rfl rfl rfl rfl rfl fun _ h => by
    obtain ⟨i, -, rfl⟩ := mem_tabulate h
    exact Nat.zero_le _

/-- A reset leads into the invariant from any state (R222). -/
theorem State.resetEvent_inv (s : State) : s.resetEvent.Inv :=
  .of_empty rfl rfl rfl rfl rfl rfl (codeBound_retire _)

/-- Settles O55: at reset the block is idle, both buffers are empty and every code has length 0. -/
theorem resetMeetsInvariants : Obligations.ResetMeetsInvariants := ⟨State.reset_inv, .of_idle rfl⟩

/-! ## The host's moves -/

theorem State.Inv.with_host {s : State} (hs : s.Inv) (l : List HostMove) : ({ s with host := l } : State).Inv :=
  ⟨hs.inWf, hs.outWf, hs.inBound, hs.outBound, hs.outFits, hs.outWritten, hs.notBusyDone, hs.errOnlyDone, hs.errNoOutput,
    hs.phaseOfOp, hs.inFits, hs.codeBound⟩

/-- `IN_LEN` is free while the block is idle (R24). -/
theorem State.Inv.with_inLen {s : State} (hs : s.Inv) (hp : s.phase = .idle) (v : InLen) :
    ({ s with inLen := v } : State).Inv :=
  { hs with inFits := fun hb => absurd hb (not_busy_of_idle hp) }

theorem State.Inv.write_inMem {s : State} (hs : s.Inv) {a : Nat} (ha : a < s.inCap.toNat) (v : Byte) :
    ({ s with inMem := s.inMem.write a v } : State).Inv :=
  { hs with
    inWf := Memory.wf_write hs.inWf a v
    inBound := fun c hc => by
      rcases Memory.mem_write hc with rfl | hc
      · exact ha
      · exact hs.inBound c hc }

theorem State.Inv.write_outMem {s : State} (hs : s.Inv) {a : Nat} (ha : a < s.outCap.toNat) (v : Byte) :
    ({ s with outMem := s.outMem.write a v } : State).Inv :=
  { hs with
    outWf := Memory.wf_write hs.outWf a v
    outBound := fun c hc => by
      rcases Memory.mem_write hc with rfl | hc
      · exact ha
      · exact hs.outBound c hc
    outWritten := fun b hb => by
      rw [Memory.read_write]
      split
      · rfl
      · exact hs.outWritten b hb }

/-- A host transaction keeps the state invariant. -/
theorem State.Inv.hostMove {m : HostMove} {s t : State} (hs : s.Inv) (h : hostMove m s = .next t) : t.Inv := by
  rcases hostMove_spec h with rfl | ⟨-, rfl⟩ | ⟨hp, ⟨v, -, rfl⟩ | ⟨a, v, -, ha, rfl⟩ | ⟨a, v, -, ha, rfl⟩⟩
  · exact hs
  · exact State.resetEvent_inv s
  · exact hs.with_inLen hp v
  · exact hs.write_inMem ha v
  · exact hs.write_outMem ha v

/-! ## Commands and stage operations -/

/-- Acceptance starts with the first stage of the command and empties `OUT` (R90); the launch asks for the input inside
`IN`. -/
theorem State.Inv.accept {s : State} (hs : s.Inv) (hfit : s.inLen ≤ s.inCap) (c : Op) : (s.accept c).Inv :=
  { hs with
    outWf := Memory.wf_nil
    outBound := fun _ h => absurd h List.not_mem_nil
    outFits := Nat.zero_le _
    outWritten := fun a h => absurd h (Nat.not_lt_zero a)
    notBusyDone := fun h => Bool.false_ne_true h.2
    errOnlyDone := fun _ => rfl
    errNoOutput := fun _ => rfl
    phaseOfOp := fun _ => by cases c <;> simp [Op.firstPhase, Op.stages]
    inFits := fun _ => hfit }

theorem State.Inv.done_of_busy {s : State} (hs : s.Inv) (hb : s.busy = true) : s.done = false := by
  simpa using fun hd => hs.notBusyDone ⟨hb, hd⟩

/-- The work of a stage operation keeps the invariant: while busy there is no error, so appending to `OUT` is no output
after one. -/
theorem Worked.inv {s u : State} (hw : Worked s u) (hs : s.Inv) (hb : s.busy = true) : u.Inv := by
  have hbusy : u.busy = s.busy := by simp only [State.busy, hw.phase]
  have herr : u.err = .none := hw.err.trans (hs.errOnlyDone (hs.done_of_busy hb))
  exact
  { inWf := by simpa only [hw.inMem] using hs.inWf
    outWf := hw.outWf hs.outWf
    inBound := by simpa only [hw.inMem, hw.inCap] using hs.inBound
    outBound := hw.outBound hs.outBound
    outFits := hw.outFits hs.outFits
    outWritten := hw.written hs.outWritten
    notBusyDone := by simpa only [hbusy, hw.done] using hs.notBusyDone
    errOnlyDone := fun _ => herr
    errNoOutput := fun h => absurd herr h
    phaseOfOp := by simpa only [hbusy, hw.phase, hw.op] using hs.phaseOfOp
    inFits := by simpa only [hbusy, hw.inLen, hw.inCap] using hs.inFits
    codeBound := hw.codeBound hs.codeBound }

/-- Going on from a busy state to another phase of the same command. -/
theorem State.Inv.goto {s : State} (hs : s.Inv) (hb : s.busy = true) {p : Phase} (hp : p ∈ s.op.stages) : (s.goto p).Inv :=
  { hs with
    notBusyDone := fun h => Bool.false_ne_true ((hs.done_of_busy hb).symm.trans h.2)
    phaseOfOp := fun _ => hp
    inFits := fun _ => hs.inFits hb }

/-- The successful end (R96). -/
theorem State.Inv.finish {s : State} (hs : s.Inv) : s.finish.Inv :=
  { hs with
    notBusyDone := fun h => not_busy_of_idle rfl h.1
    errOnlyDone := fun _ => rfl
    errNoOutput := fun h => absurd rfl h
    phaseOfOp := fun h => absurd h (not_busy_of_idle rfl)
    inFits := fun h => absurd h (not_busy_of_idle rfl)
    codeBound := codeBound_retire s }

/-- The error end (R204). -/
theorem State.Inv.raise {s : State} (hs : s.Inv) (e : ErrKind) : (s.raise e).Inv :=
  { hs with
    outWf := Memory.wf_nil
    outBound := fun _ h => absurd h List.not_mem_nil
    outFits := Nat.zero_le _
    outWritten := fun a h => absurd h (Nat.not_lt_zero a)
    notBusyDone := fun h => not_busy_of_idle rfl h.1
    errOnlyDone := nofun
    errNoOutput := fun _ => rfl
    phaseOfOp := fun h => absurd h (not_busy_of_idle rfl)
    inFits := fun h => absurd h (not_busy_of_idle rfl)
    codeBound := codeBound_retire s }

/-- A command word names a command. -/
theorem command_of_decodeCmd {v : BitVec 8} {i : Instr} (h : decodeCmd v = .ok i) : i = .compress ∨ i = .decompress := by
  unfold decodeCmd at h
  split at h <;> cases h
  · exact .inl rfl
  · exact .inr rfl

/-- A phase that selects a stage operation is not `IDLE`. -/
theorem busy_of_decodePhase {s : State} {i : Instr} (h : decodePhase s.phase.code = .ok i) : s.busy = true := by
  rw [State.busy_eq_true]
  intro hp
  rw [hp, decodePhase_code_idle] at h
  cases h

/-- The instruction of a turn, a command or the stage operation that `PHASE` selects, keeps the state invariant. -/
theorem State.Inv.exec {i : Instr} {s t : State} (hs : s.Inv)
    (hi : decodePhase s.phase.code = .ok i ∨ ∃ v, decodeCmd v = .ok i) (h : exec i s = .next t) : t.Inv := by
  have hstage : i ≠ .compress ∧ i ≠ .decompress → decodePhase s.phase.code = .ok i := fun ⟨hc, hd⟩ =>
    hi.resolve_right fun ⟨_, hv⟩ => (command_of_decodeCmd hv).elim hc hd
  have hwork : ∀ {u}, i ≠ .compress ∧ i ≠ .decompress → Worked s u → u.Inv ∧ u.busy = true := fun hst hw =>
    have hb := busy_of_decodePhase (hstage hst)
    ⟨hw.inv hs hb, by rwa [State.busy, hw.phase]⟩
  cases exec_cases h with
  | ignored _ _ same => exact same ▸ hs
  | accepted c _ _ fits eq => exact eq ▸ hs.accept fits c
  | goto u p stage worked busy eq =>
    obtain ⟨hu, hb⟩ := hwork stage worked
    have hin := hs.phaseOfOp (busy_of_decodePhase (hstage stage))
    have hp := (exec_next_phase (hstage stage) hin h (by simpa [eq] using busy)).2
    subst eq
    exact hu.goto hb (by simpa [worked.op] using hp)
  | finish u stage worked eq => exact eq ▸ (hwork stage worked).1.finish
  | raise u e cause worked eq =>
    have stage : i ≠ .compress ∧ i ≠ .decompress := by
      rcases cause with ⟨-, rfl | rfl⟩ | ⟨-, rfl⟩ <;> simp
    exact eq ▸ (hwork stage worked).1.raise e

/-! ## Steps -/

theorem State.Inv.step {s t : State} (hs : s.Inv) (h : step s = .next t) : t.Inv := by
  obtain ⟨l, ⟨hn, -⟩ | ⟨i, hn, hi⟩ | ⟨m, hn⟩⟩ := nextTurn_spec s <;> simp only [Machine.step, hn] at h
  · cases h
    exact hs.with_host l
  · exact (hs.with_host l).exec hi h
  · exact (hs.with_host l).hostMove h

/-- Settles O56: a step is an instruction, a host transaction or waiting, and each of them keeps the invariant. -/
theorem stepKeepsStateInvariant : Obligations.StepKeepsStateInvariant := fun _ _ hs h => hs.step h

end Sys2Proof.Machine
end

section
/-!
The tree of `BUILD` (spec/42_tree_builder.md R121 to R126) keeps the invariants of spec/10_state.md R36: an invariant of the
arena that holds of the leaves and that every merge pass keeps.
-/

namespace Sys2Proof.Machine

/-! ## Nodes without their `inq` flag -/

/-- The byte value a leaf owns (R27). -/
def Node.sym? : Node → Option Byte
  | .leaf _ b _ => some b
  | .internal .. => none

@[simp] theorem Node.w_extracted (n : Node) : n.extracted.w = n.w := by cases n <;> rfl

@[simp] theorem Node.inq_extracted (n : Node) : n.extracted.inq = false := by cases n <;> rfl

@[simp] theorem Node.extracted_extracted (n : Node) : n.extracted.extracted = n.extracted := by cases n <;> rfl

/-- The arena with every `inq` cleared: what an extraction leaves as it is. -/
def plain (ns : List Node) : List Node := ns.map Node.extracted

@[simp] theorem length_plain (ns : List Node) : (plain ns).length = ns.length := List.length_map _

theorem plain_append (ns ms : List Node) : plain (ns ++ ms) = plain ns ++ plain ms := List.map_append

theorem getElem?_plain (ns : List Node) (i : Nat) : (plain ns)[i]? = ns[i]?.map Node.extracted := List.getElem?_map

theorem plain_modify_extracted (ns : List Node) (a : Nat) : plain (ns.modify a Node.extracted) = plain ns := by
  refine List.ext_getElem? fun i => ?_
  rw [getElem?_plain, getElem?_plain, List.getElem?_modify]
  cases ns[i]? with
  | none => rfl
  | some n => by_cases h : a = i <;> simp [h]

/-- The nodes of the priority structure, those with `inq = 1`. -/
def live (ns : List Node) : List Node := ns.filter Node.inq

theorem live_append (ns ms : List Node) : live (ns ++ ms) = live ns ++ live ms := List.filter_append ..

/-- An extraction takes one node from the structure. -/
theorem live_modify_extracted {ns : List Node} {a : Nat} {n : Node} (h : ns[a]? = some n) (hq : n.inq = true) :
    (live ns).Perm (n :: live (ns.modify a Node.extracted)) := by
  induction ns generalizing a with
  | nil => simp at h
  | cons m ns ih =>
    cases a with
    | zero =>
      obtain rfl : m = n := by simpa using h
      simp [live, hq]
    | succ a =>
      have := ih (by simpa using h)
      by_cases hm : m.inq = true
      · simpa [live, hm] using (this.cons m).trans (.swap n m _)
      · simpa [live, hm] using this

/-- The sum of the weights in the priority structure, as a number. -/
def liveWeight (ns : List Node) : Nat := ((live ns).map fun n => n.w.toNat).sum

/-! ## Extraction -/

theorem leastKey_eq_none {ns : List Node} {i : Nat} : leastKey ns i = none ↔ live ns = [] := by
  induction ns generalizing i with
  | nil => simp [leastKey, live]
  | cons n ns ih =>
    cases hq : n.inq
    · simpa [leastKey, live, hq] using ih
    · simp only [leastKey, live, hq, if_true, List.filter_cons_of_pos, reduceCtorEq, iff_false]
      split
      · simp
      · split <;> simp

/-- The least key is a node's of the structure: its weight and its index. -/
theorem leastKey_eq_some {ns : List Node} {i : Nat} {k : Weight × Nat} (h : leastKey ns i = some k) :
    ∃ j n, k = (n.w, i + j) ∧ ns[j]? = some n ∧ n.inq = true := by
  induction ns generalizing i with
  | nil => simp [leastKey] at h
  | cons m ns ih =>
    have later : leastKey ns (i + 1) = some k → ∃ j n, k = (n.w, i + j) ∧ (m :: ns)[j]? = some n ∧ n.inq = true := by
      intro h
      obtain ⟨j, n, rfl, hn, hq⟩ := ih h
      exact ⟨j + 1, n, by rw [Nat.add_assoc, Nat.add_comm 1], hn, hq⟩
    simp only [leastKey] at h
    split at h
    · have first : some (m.w, i) = some k → ∃ j n, k = (n.w, i + j) ∧ (m :: ns)[j]? = some n ∧ n.inq = true :=
        fun e => ⟨0, m, (Option.some.inj e).symm, rfl, ‹_›⟩
      split at h
      · exact first h
      · split at h
        · exact first h
        · exact later (‹leastKey ns (i + 1) = _›.trans h)
    · exact later h

/-- From a structure that is not empty `extract_min` takes one of its nodes (R125). -/
theorem extractMin_of_live {ns : List Node} (h : live ns ≠ []) :
    ∃ a n, extractMin ns = some (a, ns.modify a Node.extracted) ∧ ns[a]? = some n ∧ n.inq = true := by
  obtain ⟨k, hk⟩ := Option.ne_none_iff_exists'.1 (mt (leastKey_eq_none (i := 0)).1 h)
  obtain ⟨a, n, rfl, hn, hq⟩ := leastKey_eq_some hk
  exact ⟨a, n, by simp only [extractMin, hk, Nat.zero_add], hn, hq⟩

/-- The weight of a node, read from the arena without its flags. -/
theorem weightAt_of_plain {ns : List Node} {i : Nat} {n : Node} (h : (plain ns)[i]? = some n) : weightAt ns i = n.w := by
  rw [getElem?_plain, Option.map_eq_some_iff] at h
  obtain ⟨m, hm, rfl⟩ := h
  simp [weightAt, hm]

/-- A merge pass over two nodes or more takes two of them from the structure and puts a new last node over them. -/
theorem mergePass_of_two_live {ns : List Node} (h : 2 ≤ (live ns).length) :
    ∃ a b m n ns', plain ns' = plain ns ∧ (plain ns)[a]? = some m ∧ (plain ns)[b]? = some n ∧
      (live ns).length = (live ns').length + 2 ∧ liveWeight ns = m.w.toNat + n.w.toNat + liveWeight ns' ∧
      mergePass ns = ns' ++ [.internal (m.w + n.w) (BitVec.ofNat 9 a) (BitVec.ofNat 9 b) true] := by
  obtain ⟨a, m, ha, hm, hmq⟩ := extractMin_of_live (ns := ns) (List.ne_nil_of_length_pos (by omega))
  have pa := live_modify_extracted hm hmq
  have hla := pa.length_eq
  rw [List.length_cons] at hla
  obtain ⟨b, n, hb, hn, hnq⟩ := extractMin_of_live (ns := ns.modify a Node.extracted)
    (List.ne_nil_of_length_pos (by omega))
  have pb := live_modify_extracted hn hnq
  have hlb := pb.length_eq
  rw [List.length_cons] at hlb
  have hm' : (plain ns)[a]? = some m.extracted := by rw [getElem?_plain, hm, Option.map_some]
  have hn' : (plain ns)[b]? = some n.extracted := by
    rw [← plain_modify_extracted ns a, getElem?_plain, hn, Option.map_some]
  refine ⟨a, b, _, _, (ns.modify a Node.extracted).modify b Node.extracted, ?_, hm', hn', by omega, ?_, ?_⟩
  · rw [plain_modify_extracted, plain_modify_extracted]
  · have wa := (pa.map fun n => n.w.toNat).sum_eq
    have wb := (pb.map fun n => n.w.toNat).sum_eq
    simp only [List.map_cons, List.sum_cons] at wa wb
    simp only [Node.w_extracted]
    show (List.map _ _).sum = _ + (List.map _ _).sum
    omega
  · simp only [mergePass, ha, hb, weightAt_of_plain hm', weightAt_of_plain hn']

/-! ## The leaves -/

/-- The symbols that get a leaf, ascending (R121). -/
def leafSyms (h : Vector Counter 256) : List Byte := allBytes.filter fun b => histAt h b != 0

theorem mem_leafSyms {h : Vector Counter 256} {b : Byte} : b ∈ leafSyms h ↔ histAt h b ≠ 0 := by
  simp [leafSyms, mem_allBytes]

theorem nodup_leafSyms (h : Vector Counter 256) : (leafSyms h).Nodup := nodup_allBytes.filter _

theorem length_leafSyms_le (h : Vector Counter 256) : (leafSyms h).length ≤ 256 :=
  (List.length_filter_le ..).trans_eq length_allBytes

theorem leafNodes_eq_map (h : Vector Counter 256) :
    leafNodes h = (leafSyms h).map fun b => .leaf ((histAt h b).setWidth 72) b true := by
  rw [leafNodes, leafSyms, ← List.filterMap_eq_filter, List.map_filterMap]
  refine List.filterMap_congr fun b _ => ?_
  by_cases hb : histAt h b = 0 <;> simp_all [Option.guard]

@[simp] theorem length_leafNodes (h : Vector Counter 256) : (leafNodes h).length = (leafSyms h).length := by
  rw [leafNodes_eq_map, List.length_map]

theorem live_leafNodes (h : Vector Counter 256) : live (leafNodes h) = leafNodes h :=
  List.filter_eq_self.2 (by simp [leafNodes_eq_map, Node.inq])

theorem sum_leafSyms (h : Vector Counter 256) : ((leafSyms h).map fun b => (histAt h b).toNat).sum = countSum h := by
  unfold leafSyms countSum
  induction allBytes with
  | nil => rfl
  | cons b bs ih =>
    rw [List.map_cons, List.sum_cons]
    by_cases hb : histAt h b = 0
    · rw [List.filter_cons_of_neg (by simp [hb]), ih, hb]
      exact (Nat.zero_add _).symm
    · rw [List.filter_cons_of_pos (by simpa using hb), List.map_cons, List.sum_cons, ih]

theorem liveWeight_leafNodes (h : Vector Counter 256) : liveWeight (leafNodes h) = countSum h := by
  rw [liveWeight, live_leafNodes, leafNodes_eq_map, List.map_map, ← sum_leafSyms]
  exact congrArg List.sum (List.map_congr_left fun b _ => BitVec.toNat_setWidth_of_le (by decide))

/-- No sum of 256 counters overflows a weight (R6). -/
theorem countSum_lt (h : Vector Counter 256) : countSum h < 2 ^ 72 := by
  have : countSum h ≤ (allBytes.map fun s => (histAt h s).toNat).length • (2 ^ 64 - 1) :=
    List.sum_le_card_nsmul _ _ fun x hx => by
      obtain ⟨b, -, rfl⟩ := List.mem_map.1 hx
      have := (histAt h b).isLt
      omega
  rw [List.length_map, length_allBytes, smul_eq_mul] at this
  omega

/-! ## The arena's invariant -/

/-- What holds of the arena of the histogram `h` before and after every merge pass (R36, R128). -/
structure Arena (h : Vector Counter 256) (ns : List Node) : Prop where
  /-- The leaves stand first, in ascending byte value (R121). -/
  syms : ∀ i : Nat, (plain ns)[i]?.bind Node.sym? = (leafSyms h)[i]?
  /-- An internal node has two children in the arena, and their weights add up to its own (R36 (a), (b)). -/
  children : ∀ (i : Nat) (w : Weight) (c0 c1 : Idx), (plain ns)[i]? = some (.internal w c0 c1 false) →
    ∃ m n, (plain ns)[c0.toNat]? = some m ∧ (plain ns)[c1.toNat]? = some n ∧ w.toNat = m.w.toNat + n.w.toNat
  /-- Each pass takes one node from the structure, on balance, and adds one to the arena (R125). -/
  size : ns.length + (live ns).length = 2 * (leafSyms h).length
  /-- The weights in the structure always add up to the counters' sum. -/
  weight : liveWeight ns = countSum h
  /-- The last node is in the structure. -/
  last : ∃ ms x, ns = ms ++ [x] ∧ x.inq = true

theorem Arena.leafNodes {h : Vector Counter 256} (hk : leafSyms h ≠ []) : Arena h (leafNodes h) where
  syms i := by
    rw [getElem?_plain, leafNodes_eq_map, List.getElem?_map, Option.map_map]
    cases (leafSyms h)[i]? <;> rfl
  children i w c0 c1 hi := by
    rw [getElem?_plain, leafNodes_eq_map, List.getElem?_map, Option.map_map] at hi
    cases e : (leafSyms h)[i]? <;> simp [e, Node.extracted] at hi
  size := by rw [live_leafNodes, length_leafNodes]; omega
  weight := liveWeight_leafNodes h
  last := by
    obtain ⟨bs, b, e⟩ := List.eq_nil_or_concat' (leafSyms h) |>.resolve_left hk
    exact ⟨_, _, by rw [leafNodes_eq_map, e, List.map_append]; rfl, rfl⟩

/-- An entry of an arena is one of those before the last, or the last. -/
theorem getElem?_concat_eq_some {ns : List Node} {x y : Node} {i : Nat} :
    (ns ++ [x])[i]? = some y ↔ ns[i]? = some y ∨ (i = ns.length ∧ x = y) := by
  rcases lt_trichotomy i ns.length with hi | rfl | hi
  · simp [List.getElem?_append_left hi, hi.ne]
  · simp
  · have hlen : (ns ++ [x]).length ≤ i := by simpa using hi
    simp [List.getElem?_eq_none hlen, List.getElem?_eq_none hi.le, hi.ne']

/-- The sentinel `NONE` lies beyond every arena (R6). -/
theorem Arena.length_le {h : Vector Counter 256} {ns : List Node} (ha : Arena h ns) : ns.length ≤ 511 := by
  have hlive : live ns ≠ [] := by
    obtain ⟨ms, x, rfl, hx⟩ := ha.last
    simp [live, hx]
  have := List.length_pos_iff.2 hlive
  have := length_leafSyms_le h
  have := ha.size
  omega

/-- The index of a node fits `IDX_W` bits (R6). -/
theorem Arena.toNat_index {h : Vector Counter 256} {ns : List Node} (ha : Arena h ns) {i : Nat} (hi : i < ns.length) :
    (BitVec.ofNat 9 i).toNat = i := by
  have := ha.length_le
  rw [BitVec.toNat_ofNat, Nat.mod_eq_of_lt (by omega)]

/-- A new last node over two of the arena's nodes, whose weights add up to its own, keeps the clauses on the arena. -/
theorem Arena.children_concat {h : Vector Counter 256} {ns : List Node} (ha : Arena h ns) {a b : Nat} {m n : Node}
    (hm : (plain ns)[a]? = some m) (hn : (plain ns)[b]? = some n) {v : Weight} (hv : v.toNat = m.w.toNat + n.w.toNat)
    {x : Node} (hx : x = .internal v (BitVec.ofNat 9 a) (BitVec.ofNat 9 b) false) (i : Nat) (w : Weight) (c0 c1 : Idx)
    (hi : (plain ns ++ [x])[i]? = some (.internal w c0 c1 false)) :
    ∃ m n, (plain ns ++ [x])[c0.toNat]? = some m ∧ (plain ns ++ [x])[c1.toNat]? = some n ∧
      w.toNat = m.w.toNat + n.w.toNat := by
  have hindex : ∀ {i y}, (plain ns)[i]? = some y → (BitVec.ofNat 9 i).toNat = i := fun hy =>
    ha.toNat_index (by simpa using (List.getElem?_eq_some_iff.1 hy).1)
  rcases getElem?_concat_eq_some.1 hi with hi | ⟨-, e⟩
  · obtain ⟨m, n, hm, hn, hw⟩ := ha.children i w c0 c1 hi
    exact ⟨m, n, getElem?_concat_eq_some.2 (.inl hm), getElem?_concat_eq_some.2 (.inl hn), hw⟩
  · cases hx.symm.trans e
    exact ⟨m, n, getElem?_concat_eq_some.2 (.inl (by rw [hindex hm, hm])),
      getElem?_concat_eq_some.2 (.inl (by rw [hindex hn, hn])), hv⟩

/-- A merge pass over two nodes or more keeps the invariant and takes one node from the structure on balance. -/
theorem Arena.mergePass {h : Vector Counter 256} {ns : List Node} (ha : Arena h ns) (hl : 2 ≤ (live ns).length) :
    Arena h (mergePass ns) ∧ (live (mergePass ns)).length + 1 = (live ns).length := by
  obtain ⟨a, b, m, n, ns', hp, hm, hn, hlen, hw, e⟩ := mergePass_of_two_live hl
  have hsize := ha.size
  have hlength : ns'.length = ns.length := by simpa using congrArg List.length hp
  have hadd : (m.w + n.w).toNat = m.w.toNat + n.w.toNat := by
    have := countSum_lt h
    have := ha.weight
    rw [BitVec.toNat_add, Nat.mod_eq_of_lt (by omega)]
  rw [e]
  generalize hx : Node.internal (m.w + n.w) (BitVec.ofNat 9 a) (BitVec.ofNat 9 b) true = x
  have hq : x.inq = true := hx ▸ rfl
  have hsym : x.extracted.sym? = none := hx ▸ rfl
  have hxw : x.w = m.w + n.w := hx ▸ rfl
  have hplain : plain (ns' ++ [x]) = plain ns ++ [x.extracted] := by rw [plain_append, hp]; rfl
  have hlive : live (ns' ++ [x]) = live ns' ++ [x] := by simp [live, hq]
  have hcount : (live (ns' ++ [x])).length = (live ns').length + 1 := by rw [hlive, List.length_append]; rfl
  refine ⟨{ syms := fun i => ?_, children := ?_, size := ?_, weight := ?_, last := ⟨ns', x, rfl, hq⟩ }, by omega⟩
  · rw [hplain, ← ha.syms i]
    refine Option.ext fun c => ?_
    simp only [Option.bind_eq_some_iff, getElem?_concat_eq_some]
    constructor
    · rintro ⟨y, hy | ⟨-, rfl⟩, hc⟩
      · exact ⟨y, hy, hc⟩
      · exact absurd (hsym.symm.trans hc) nofun
    · rintro ⟨y, hy, hc⟩
      exact ⟨y, .inl hy, hc⟩
  · rw [hplain]
    exact ha.children_concat hm hn hadd (by rw [← hx]; rfl)
  · rw [hcount, List.length_append, List.length_singleton]
    omega
  · rw [← ha.weight, hw, liveWeight, hlive, List.map_append, List.sum_append, List.map_singleton, List.sum_singleton,
      hxw, hadd, Nat.add_comm]
    rfl

/-- Passing the loop until one node is left in the structure. -/
theorem Arena.mergeLoop {h : Vector Counter 256} {n : Nat} {ns : List Node} (ha : Arena h ns)
    (hl : (live ns).length = n + 1) : Arena h (mergeLoop n ns) ∧ (live (mergeLoop n ns)).length = 1 := by
  induction n generalizing ns with
  | zero => exact ⟨ha, hl⟩
  | succ n ih =>
    obtain ⟨hpass, hlen⟩ := ha.mergePass (by omega)
    exact ih hpass (by omega)

/-! ## The tree -/

/-- After the loop the root alone is left in the structure. -/
theorem buildNodes_arena {h : Vector Counter 256} (hk : leafSyms h ≠ []) :
    Arena h (buildNodes h) ∧ (live (buildNodes h)).length = 1 := by
  have := List.length_pos_iff.2 hk
  exact (Arena.leafNodes hk).mergeLoop (by rw [live_leafNodes, length_leafNodes]; omega)

theorem Arena.leaf_iff {h : Vector Counter 256} {ns : List Node} (ha : Arena h ns) {i : Nat} {b : Byte} :
    (∃ w q, ns[i]? = some (.leaf w b q)) ↔ (leafSyms h)[i]? = some b := by
  rw [← ha.syms, getElem?_plain]
  cases ns[i]? with
  | none => simp
  | some n => cases n <;> simp [Node.extracted, Node.sym?]

theorem Arena.children_of_internal {h : Vector Counter 256} {ns : List Node} (ha : Arena h ns) {i : Nat} {w : Weight}
    {c0 c1 : Idx} {q : Bool} (hi : ns[i]? = some (.internal w c0 c1 q)) :
    ∃ m n, ns[c0.toNat]? = some m ∧ ns[c1.toNat]? = some n ∧ w.toNat = m.w.toNat + n.w.toNat := by
  obtain ⟨m, n, hm, hn, hw⟩ := ha.children i w c0 c1 (by rw [getElem?_plain, hi]; rfl)
  simp only [getElem?_plain, Option.map_eq_some_iff] at hm hn
  obtain ⟨m, hm, rfl⟩ := hm
  obtain ⟨n, hn, rfl⟩ := hn
  exact ⟨m, n, hm, hn, by simpa using hw⟩

/-- With one node left in the structure, that node is the last one and holds the whole weight. -/
theorem Arena.root {h : Vector Counter 256} {ns : List Node} (ha : Arena h ns) (hl : (live ns).length = 1) :
    ∃ x, ns[(rootOf ns).toNat]? = some x ∧ x.w.toNat = countSum h := by
  obtain ⟨ms, x, rfl, hx⟩ := ha.last
  have hlast : live [x] = [x] := by simp [live, hx]
  have hms : live ms = [] := by simpa [live_append, hlast] using hl
  have hroot : (rootOf (ms ++ [x])).toNat = ms.length := by
    rw [rootOf, if_neg (by simp), List.length_append, List.length_singleton, Nat.add_sub_cancel]
    exact ha.toNat_index (by simp)
  refine ⟨x, by rw [hroot, List.getElem?_concat_length], ?_⟩
  rw [← ha.weight, liveWeight, live_append, hlast, hms]
  simp

/-- A byte value with a non-zero counter owns exactly one leaf. -/
theorem Arena.existsUnique_leaf {h : Vector Counter 256} {ns : List Node} (ha : Arena h ns) {b : Byte}
    (hb : b ∈ leafSyms h) : ∃! i : Idx, ∃ w q, ns[i.toNat]? = some (.leaf w b q) := by
  obtain ⟨j, hj, e⟩ := List.mem_iff_getElem.1 hb
  have hj' : (leafSyms h)[j]? = some b := List.getElem?_eq_some_iff.2 ⟨hj, e⟩
  obtain ⟨w, q, hleaf⟩ := ha.leaf_iff.2 hj'
  have hindex := ha.toNat_index (List.getElem?_eq_some_iff.1 hleaf).1
  refine ⟨BitVec.ofNat 9 j, ⟨w, q, by rw [hindex, hleaf]⟩, fun i hi => BitVec.eq_of_toNat_eq ?_⟩
  rw [hindex]
  exact ((List.getElem?_inj hj (nodup_leafSyms h)).1 (hj'.trans (ha.leaf_iff.1 hi).symm)).symm

/-! ## The tree in `NODE` -/

theorem nodeAt_storeNodes {ns : List Node} {i : Idx} (hlen : ns.length ≤ 511) (hi : i.toNat < ns.length)
    (v : Vector Node 511) : nodeAt (storeNodes ns v) i = ns[i.toNat]? := by
  rw [nodeAt, getElem?_storeNodes ns v _ (by omega), List.getElem?_eq_getElem hi, Option.getD_some]

/-- Below `NNODE` the entries of `NODE` after `BUILD` are the arena's nodes. -/
theorem nodeAt_build_eq_some {s : State} (ha : Arena s.hist (buildNodes s.hist)) {i : Idx} {x : Node} :
    i.toNat < s.build.nnode.toNat ∧ nodeAt s.build.node i = some x ↔ (buildNodes s.hist)[i.toNat]? = some x := by
  have hlen := ha.length_le
  have hnnode : s.build.nnode.toNat = (buildNodes s.hist).length := by
    rw [State.build_nnode, BitVec.toNat_ofNat, Nat.mod_eq_of_lt (by omega)]
  rw [hnnode, State.build_node]
  constructor
  · rintro ⟨hi, hx⟩
    exact (nodeAt_storeNodes hlen hi _).symm.trans hx
  · intro hx
    have hi := (List.getElem?_eq_some_iff.1 hx).1
    exact ⟨hi, (nodeAt_storeNodes hlen hi _).trans hx⟩

/-- The index of a node of the arena is not the sentinel. -/
theorem Arena.ne_none {h : Vector Counter 256} {ns : List Node} (ha : Arena h ns) {i : Idx} {x : Node}
    (hx : ns[i.toNat]? = some x) : i ≠ Idx.none := by
  rintro rfl
  have hi : 511 < ns.length := (List.getElem?_eq_some_iff.1 hx).1
  have := ha.length_le
  omega

/-- Settles O26: the arena of `BUILD` meets `Arena`, with the root alone left in the priority structure. -/
theorem treeInvariants : Obligations.TreeInvariants := by
  rintro s ⟨b₀, hb₀⟩
  have hk : leafSyms s.hist ≠ [] := List.ne_nil_of_mem (mem_leafSyms.2 hb₀)
  obtain ⟨ha, hl⟩ := buildNodes_arena hk
  have hsize := ha.size
  have hpos := List.length_pos_iff.2 hk
  have hcount := length_leafSyms_le s.hist
  have hnleaf : s.build.nleaf.toNat = (leafSyms s.hist).length := by
    rw [State.build_nleaf, BitVec.toNat_ofNat, length_leafNodes, Nat.mod_eq_of_lt (by omega)]
  refine ⟨fun i w c0 c1 q hi hn => ?_, fun i w b q hi hn => ?_, fun b hb => ?_, by omega, by omega, ?_, fun h1 => ?_⟩
  · obtain ⟨m, n, hm, hn, hw⟩ := ha.children_of_internal ((nodeAt_build_eq_some ha).1 ⟨hi, hn⟩)
    exact ⟨ha.ne_none hm, ha.ne_none hn, m, n, ((nodeAt_build_eq_some ha).2 hm).2, ((nodeAt_build_eq_some ha).2 hn).2, hw⟩
  · have hb := ha.leaf_iff.1 ⟨w, q, (nodeAt_build_eq_some ha).1 ⟨hi, hn⟩⟩
    exact ⟨mem_leafSyms.1 (List.mem_of_getElem? hb), rfl, rfl⟩
  · simpa only [← exists_and_left, nodeAt_build_eq_some ha] using ha.existsUnique_leaf (mem_leafSyms.2 hb)
  · obtain ⟨x, hx, hw⟩ := ha.root hl
    exact ⟨x, ((nodeAt_build_eq_some ha).2 hx).2, hw⟩
  · rw [h1] at hnleaf
    have hone : (buildNodes s.hist).length = 1 := by
      have : (1 : Idx).toNat = 1 := rfl
      omega
    have hne : buildNodes s.hist ≠ [] := List.ne_nil_of_length_pos (by omega)
    rw [State.build_nnode, State.build_root, rootOf, if_neg hne, hone]
    exact ⟨rfl, rfl⟩

end Sys2Proof.Machine
end

section
/-!
The memory family (spec/20_memory.md): `OUT` is append-only (R57), and the bits of a packed body stand in the order of R52.
-/

namespace Sys2Proof.Machine

/-! ## Appending to `OUT` (R57) -/

theorem Appended.outLen_le {s u : State} {vs : List Byte} (h : Appended s u vs) : s.outLen ≤ u.outLen := by
  show s.outLen.toNat ≤ u.outLen.toNat
  rw [h.outLen]
  exact Nat.le_add_right _ _

/-- A byte of `OUT` that appending changes lies from the old `OUT_LEN` up to the new one. -/
theorem Appended.mem_range_of_changed {s u : State} {vs : List Byte} (h : Appended s u vs) {a : Nat}
    (hne : u.outMem.read a ≠ s.outMem.read a) : s.outLen.toNat ≤ a ∧ a < u.outLen.toNat := by
  rw [h.outLen]
  by_contra hout
  exact hne (h.others a (by omega))

/-- A stage operation's work changes `OUT` from the old `OUT_LEN` up to the new one alone. -/
theorem Worked.out_grows {s u : State} (h : Worked s u) : s.outLen ≤ u.outLen ∧
    ∀ a, u.outMem.read a ≠ s.outMem.read a → s.outLen.toNat ≤ a ∧ a < u.outLen.toNat := by
  obtain ⟨vs, hvs⟩ := h.appended
  exact ⟨hvs.outLen_le, fun _ => hvs.mem_range_of_changed⟩

/-- Settles O19: of the ways an instruction ends, an accepted command and an error void `OUT`, and the others leave it as the
work before them did. -/
theorem outAppendOnly : Obligations.OutAppendOnly := by
  intro i s t h
  cases exec_cases h with
  | ignored _ _ same => exact .inr (same ▸ (Worked.refl s).out_grows)
  | accepted c _ _ _ eq => exact .inl (eq ▸ ⟨rfl, rfl⟩)
  | goto u p _ worked _ eq => exact .inr (eq ▸ worked.out_grows)
  | finish u _ worked eq => exact .inr (eq ▸ worked.out_grows)
  | raise u e _ _ eq => exact .inl (eq ▸ ⟨rfl, rfl⟩)

/-! ## The bits of a packed body (R52, R77) -/

/-- The bit after the others becomes the least significant one (R143). -/
theorem codeValue_concat (c : Code) (b : Bool) : codeValue (c ++ [b]) = Nat.bit b (codeValue c) := by
  rw [codeValue, List.foldl_append, Nat.bit_val]
  rfl

/-- The bits of a code's value, least significant first, are the code's from its last bit on (R143). -/
theorem testBit_codeValue (c : Code) (k : Nat) : (codeValue c).testBit k = c.reverse[k]?.getD false := by
  induction c using List.reverseRecOn generalizing k with
  | nil => exact Nat.zero_testBit k
  | append_singleton c b ih =>
    rw [codeValue_concat, List.reverse_concat]
    cases k with
    | zero => exact Nat.testBit_bit_zero ..
    | succ k => exact (Nat.testBit_bit_succ ..).trans (ih k)

/-- Bit 7 of a byte is the first of its bits; below the last of them stand zeros (R77). -/
theorem getLsbD_byteOf {bits : List Bool} (hlen : bits.length ≤ 8) {i : Nat} (hi : i < 8) :
    (byteOf bits).getLsbD (7 - i) = bits[i]?.getD false := by
  have hpad : (bits ++ List.replicate (8 - bits.length) false).length = 8 := by
    rw [List.length_append, List.length_replicate]
    omega
  rw [byteOf, BitVec.getLsbD_ofNat, testBit_codeValue, List.getElem?_reverse (by omega), hpad,
    show 8 - 1 - (7 - i) = i by omega, decide_eq_true (by omega), Bool.true_and]
  by_cases h : i < bits.length
  · rw [List.getElem?_append_left h]
  · rw [List.getElem?_append_right (by omega), List.getElem?_replicate, if_pos (by omega),
      List.getElem?_eq_none (by omega)]
    rfl

@[simp] theorem length_packedBytes (n : Nat) (bits : List Bool) : (packedBytes n bits).length = n := by
  induction n generalizing bits with
  | zero => rfl
  | succ n ih => rw [packedBytes, List.length_cons, ih]

@[simp] theorem length_pack (bits : List Bool) : (pack bits).length = (bits.length + 7) / 8 := length_packedBytes _ _

/-- Byte `j` of a packed bit string holds its bits from `8 * j` on. -/
theorem getElem?_packedBytes {n j : Nat} (hj : j < n) (bits : List Bool) :
    (packedBytes n bits)[j]? = some (byteOf ((bits.drop (8 * j)).take 8)) := by
  induction n generalizing j bits with
  | zero => exact absurd hj (Nat.not_lt_zero j)
  | succ n ih =>
    cases j with
    | zero => rfl
    | succ j =>
      rw [packedBytes, List.getElem?_cons_succ, ih (by omega), List.drop_drop, Nat.mul_succ, Nat.add_comm]

/-- Bit `t` of a packed body is bit `t` of the string, and 0 where the string has none. -/
theorem bodyBitOf_pack (bits : List Bool) (t : Nat) :
    bodyBitOf (fun j => (pack bits).getD j 0) t = bits[t]?.getD false := by
  rw [bodyBitOf, List.getD_eq_getElem?_getD]
  by_cases ht : t / 8 < (bits.length + 7) / 8
  · have hmod : t % 8 < 8 := Nat.mod_lt _ (by decide)
    rw [pack, getElem?_packedBytes ht, Option.getD_some, getLsbD_byteOf (List.length_take_le _ _) hmod,
      List.getElem?_take_of_lt hmod, List.getElem?_drop, Nat.div_add_mod]
  · rw [List.getElem?_eq_none (by rw [length_pack]; omega), List.getElem?_eq_none (by omega)]
    exact BitVec.getLsbD_zero

/-- Settles O5: both clauses on bits are `bodyBitOf_pack`, below the string's length and from it on. -/
theorem bodyBitOrder : Obligations.BodyBitOrder := by
  refine fun bits => ⟨length_pack bits, fun t ht => ?_, fun t ht => ?_⟩
  · rw [bodyBitOf_pack, List.getElem?_eq_getElem ht, Option.getD_some]
  · rw [bodyBitOf_pack, List.getElem?_eq_none ht, Option.getD_none]

end Sys2Proof.Machine
end

section
/-!
The encoding family (spec/30_encoding.md): the words of the opcode table (R71, R72, R82) and the bytes of a header (R75).
-/

namespace Sys2Proof.Machine

/-! ## Words (R71, R82) -/

/-- The statement made per instruction, for every instruction. -/
theorem statement_of_instr (i : Instr) : Laws.F.Statement i :=
  match i with
  | .compress => Laws.F.compress
  | .decompress => Laws.F.decompress
  | .hist => Laws.F.hist
  | .build => Laws.F.build
  | .gen => Laws.F.gen
  | .cHeader => Laws.F.cHeader
  | .cValid => Laws.F.cValid
  | .cPack => Laws.F.cPack
  | .dCheck => Laws.F.dCheck
  | .dHeader => Laws.F.dHeader
  | .dValid => Laws.F.dValid
  | .dSum => Laws.F.dSum
  | .dWalk => Laws.F.dWalk

theorem wellFormed_encode (i : Instr) : (encode i).WellFormed = true := by
  obtain ⟨-, hword, -, -⟩ := statement_of_instr i
  exact hword

theorem decode_encode (i : Instr) : decode (encode i) = .ok i := by
  obtain ⟨-, -, hdecode, -⟩ := statement_of_instr i
  exact hdecode

theorem encode_of_decodeCmd {v : BitVec 8} {i : Instr} (h : decodeCmd v = .ok i) : encode i = ⟨.cmdw, v.toNat⟩ := by
  unfold decodeCmd at h
  split at h <;> cases h <;> simp [encode, *]

theorem encode_of_decodePhase {v : BitVec 4} {i : Instr} (h : decodePhase v = .ok i) : encode i = ⟨.phase, v.toNat⟩ := by
  unfold decodePhase at h
  split at h <;> cases h <;> simp [encode, *]

/-- A word that decodes has no bit outside its format, so the decoder reads all of it. -/
theorem eq_encode_of_decode {w : TableWord} {i : Instr} (h : decode w = .ok i) : w = encode i := by
  obtain ⟨f, c⟩ := w
  unfold decode at h
  split at h
  case isFalse => cases h
  case isTrue hfits =>
    have hlt : c < 2 ^ f.width := of_decide_eq_true hfits
    cases f with
    | cmdw =>
      rw [encode_of_decodeCmd (v := BitVec.ofNat 8 c) h, BitVec.toNat_ofNat, Nat.mod_eq_of_lt (show c < 2 ^ 8 from hlt)]
    | phase =>
      rw [encode_of_decodePhase (v := BitVec.ofNat 4 c) h, BitVec.toNat_ofNat, Nat.mod_eq_of_lt (show c < 2 ^ 4 from hlt)]

/-- The table gives every well-formed word an instruction (R71, R82). -/
theorem exists_decode_of_wellFormed {w : TableWord} (h : w.WellFormed = true) : ∃ i, decode w = .ok i := by
  obtain ⟨f, c⟩ := w
  obtain ⟨-, hassigned⟩ := Bool.and_eq_true_iff.1 h
  cases f with
  | cmdw =>
    have hc : c ∈ [1, 2] := List.contains_iff_mem.1 hassigned
    fin_cases hc <;> exact ⟨_, rfl⟩
  | phase =>
    have hc : c ∈ [1, 2, 3, 4, 5, 6, 8, 9, 10, 11, 12] := List.contains_iff_mem.1 hassigned
    fin_cases hc <;> exact ⟨_, rfl⟩

theorem wellFormed_iff_decode {w : TableWord} : w.WellFormed = true ↔ ∃ i, decode w = .ok i :=
  ⟨exists_decode_of_wellFormed, fun ⟨i, h⟩ => eq_encode_of_decode h ▸ wellFormed_encode i⟩

/-- Settles O3: a word decodes to an instruction exactly when it is the instruction's word, and the table's words are the
well-formed ones. -/
theorem decodeEncodeAgree : Obligations.DecodeEncodeAgree :=
  ⟨decode_encode, fun _ _ => eq_encode_of_decode, fun _ => wellFormed_iff_decode⟩

/-- Settles O2: the words are `encode`'s, and no word with an unused phase code is well formed. -/
theorem writtenWordsDecode : Obligations.WrittenWordsDecode := by
  have hunused : ∀ c ∈ [0, 7, 13, 14, 15], TableWord.WellFormed ⟨.phase, c⟩ ≠ true := by decide
  exact ⟨decode_encode .compress, decode_encode .decompress, decode_encode .hist, decode_encode .build,
    decode_encode .gen, decode_encode .cHeader, decode_encode .cValid, decode_encode .cPack, decode_encode .dCheck,
    decode_encode .dHeader, decode_encode .dValid, decode_encode .dSum, decode_encode .dWalk,
    fun c hc i h => hunused c hc (wellFormed_iff_decode.2 ⟨i, h⟩)⟩

/-- A value of `CMD`, as a word of the table, decodes to the command it names (R71). -/
theorem decode_cmdw (v : BitVec 8) : decode ⟨.cmdw, v.toNat⟩ = decodeCmd v := by
  have hfits : TableWord.fits ⟨.cmdw, v.toNat⟩ = true := decide_eq_true v.isLt
  rw [decode, if_pos hfits]
  exact congrArg decodeCmd (BitVec.ofNat_toNat 8 v)

/-- A value of `CMD` names an instruction exactly when it is the code of the instruction's word (R71). -/
theorem decodeCmd_eq_ok {v : BitVec 8} {i : Instr} : decodeCmd v = .ok i ↔ encode i = ⟨.cmdw, v.toNat⟩ :=
  ⟨encode_of_decodeCmd, fun h => by rw [← decode_cmdw, ← h, decode_encode]⟩

/-- A value that is no command is reserved (R72). -/
theorem decodeCmd_eq_reserved {v : BitVec 8} (h1 : v ≠ 0x01) (h2 : v ≠ 0x02) :
    decodeCmd v = .error (.reservedCommand v) := by
  unfold decodeCmd
  split
  · exact absurd (BitVec.eq_of_toNat_eq ‹_›) h1
  · exact absurd (BitVec.eq_of_toNat_eq ‹_›) h2
  · rfl

/-- Settles O1: the two words of format `CMDW` are `0x01` and `0x02`, and the other values are reserved. -/
theorem commandOpcodeMap : Obligations.CommandOpcodeMap := by
  refine fun v => ⟨decodeCmd_eq_ok.trans ?_, decodeCmd_eq_ok.trans ?_, decodeCmd_eq_reserved⟩
  · simp [encode, ← BitVec.toNat_inj, eq_comm]
  · simp [encode, ← BitVec.toNat_inj, eq_comm]

/-! ## The bytes of a counter (R51) -/

/-- Byte `b` of a counter: its bits `8b+7..8b`. -/
def counterByte (c : Counter) (b : Nat) : Byte := (c >>> (8 * b)).setWidth 8

theorem counterBytes_eq_map (c : Counter) : counterBytes c = (List.range 8).map (counterByte c) := rfl

theorem getLsbD_counterByte (c : Counter) {b i : Nat} (hi : i < 8) :
    (counterByte c b).getLsbD i = c.getLsbD (8 * b + i) := by
  simp [counterByte, hi]

theorem toNat_counterByte (c : Counter) (b : Nat) : (counterByte c b).toNat = c.toNat / 2 ^ (8 * b) % 2 ^ 8 := by
  rw [counterByte, BitVec.toNat_setWidth, BitVec.toNat_ushiftRight, Nat.shiftRight_eq_div_pow]

/-- The low `n` bytes of a counter add up, by their powers of 256, to its low `8n` bits. -/
theorem sum_counterByte (c : Counter) (n : Nat) :
    ((List.range n).map fun b => (counterByte c b).toNat * 2 ^ (8 * b)).sum = c.toNat % 2 ^ (8 * n) := by
  induction n with
  | zero => simp [Nat.mod_one]
  | succ n ih =>
    rw [List.range_succ, List.map_append, List.sum_append, ih, List.map_singleton, List.sum_singleton,
      toNat_counterByte, Nat.mul_succ, Nat.pow_add, Nat.mod_mul, Nat.mul_comm (2 ^ (8 * n))]

theorem sum_counterByte_eq_toNat (c : Counter) :
    ((List.range 8).map fun b => (counterByte c b).toNat * 2 ^ (8 * b)).sum = c.toNat :=
  (sum_counterByte c 8).trans (Nat.mod_eq_of_lt c.isLt)

/-- A counter is determined by its eight bytes. -/
theorem counter_ext {c d : Counter} (h : ∀ b < 8, counterByte c b = counterByte d b) : c = d := by
  refine BitVec.eq_of_toNat_eq ?_
  rw [← sum_counterByte_eq_toNat, ← sum_counterByte_eq_toNat]
  exact congrArg List.sum (List.map_congr_left fun b hb => by rw [h b (List.mem_range.1 hb)])

/-- Bit `i` of a counter of which `n` bytes are read: bit `i % 8` of byte `i / 8`, where that is one of them. -/
theorem getLsbD_foldl_counter (byteAt : Nat → Byte) (s n i : Nat) (hi : i < 64) :
    ((List.range n).foldl (fun v b => v ||| ((byteAt (8 * s + b)).setWidth 64 <<< (8 * b))) (0 : Counter)).getLsbD i =
      (decide (i < 8 * n) && (byteAt (8 * s + i / 8)).getLsbD (i % 8)) := by
  induction n with
  | zero => simp
  | succ n ih =>
    rw [List.range_succ, List.foldl_append, List.foldl_cons, List.foldl_nil, BitVec.getLsbD_or, ih]
    by_cases hlow : i < 8 * n
    · simp [hlow, show i < 8 * (n + 1) by omega]
    by_cases hbyte : i < 8 * (n + 1)
    · simp [hlow, hbyte, hi, show i / 8 = n by omega, show i % 8 = i - 8 * n by omega]
    · simp [hlow, hbyte, show 8 ≤ i - 8 * n by omega]

/-- Byte `b` of a parsed counter is the byte of the header it was read from. -/
theorem counterByte_counterAt (byteAt : Nat → Byte) (s : Nat) {b : Nat} (hb : b < 8) :
    counterByte (counterAt byteAt s) b = byteAt (8 * s + b) := by
  refine BitVec.eq_of_getLsbD_eq fun i hi => ?_
  rw [getLsbD_counterByte _ hi, counterAt, getLsbD_foldl_counter _ _ _ _ (by omega), decide_eq_true (by omega),
    Bool.true_and, show (8 * b + i) / 8 = b by omega, show (8 * b + i) % 8 = i by omega]

/-! ## The bytes of a header (R75) -/

/-- Rows of `k` entries one after the other: entry `a` is entry `a % k` of row `a / k`. -/
theorem flatMap_range_map {α : Type} (n : Nat) {k : Nat} (hk : 0 < k) (f : Nat → Nat → α) :
    ((List.range n).flatMap fun s => (List.range k).map (f s)) =
      (List.range (k * n)).map fun a => f (a / k) (a % k) := by
  induction n with
  | zero => rfl
  | succ n ih =>
    rw [List.range_succ, List.flatMap_append, ih, List.flatMap_singleton, Nat.mul_succ, List.range_add,
      List.map_append, List.map_map]
    congr 1
    refine List.map_congr_left fun b hb => ?_
    have hb := List.mem_range.1 hb
    simp [Nat.mul_add_div hk, Nat.div_eq_of_lt hb, Nat.mod_eq_of_lt hb]

/-- Byte `a` of a header is byte `a % 8` of counter `a / 8`. -/
theorem headerBytes_eq_map (h : Vector Counter 256) :
    headerBytes h = (List.range 2048).map fun a => counterByte (histAt h (BitVec.ofNat 8 (a / 8))) (a % 8) := by
  rw [headerBytes, allBytes, List.flatMap_map]
  exact flatMap_range_map 256 (by decide) fun s => counterByte (histAt h (BitVec.ofNat 8 s))

@[simp] theorem length_headerBytes (h : Vector Counter 256) : (headerBytes h).length = 2048 := by
  rw [headerBytes_eq_map, List.length_map, List.length_range]

theorem getElem?_headerBytes (h : Vector Counter 256) {s b : Nat} (hs : s < 256) (hb : b < 8) :
    (headerBytes h)[8 * s + b]? = some (counterByte (histAt h (BitVec.ofNat 8 s)) b) := by
  rw [headerBytes_eq_map, List.getElem?_map, List.getElem?_range (by omega), Option.map_some,
    show (8 * s + b) / 8 = s by omega, show (8 * s + b) % 8 = b by omega]

theorem histAt_parseHeader (byteAt : Nat → Byte) (s : Byte) :
    histAt (parseHeader byteAt) s = counterAt byteAt s.toNat := histAt_tabulate _ s

/-- Counter by counter and byte by byte, parsing reads what the header's writing put there. -/
theorem parseHeader_headerBytes (h : Vector Counter 256) : parseHeader (fun a => (headerBytes h).getD a 0) = h := by
  refine hist_ext fun s => counter_ext fun b hb => ?_
  rw [histAt_parseHeader, counterByte_counterAt _ _ hb, List.getD_eq_getElem?_getD, getElem?_headerBytes h s.isLt hb,
    Option.getD_some, BitVec.ofNat_toNat, BitVec.setWidth_eq]

theorem headerBytes_parseHeader (byteAt : Nat → Byte) :
    headerBytes (parseHeader byteAt) = (List.range 2048).map byteAt := by
  rw [headerBytes_eq_map]
  refine List.map_congr_left fun a ha => ?_
  have hs : a / 8 < 256 := by have := List.mem_range.1 ha; omega
  rw [histAt_parseHeader, BitVec.toNat_ofNat, Nat.mod_eq_of_lt hs, counterByte_counterAt _ _ (Nat.mod_lt _ (by decide)),
    Nat.div_add_mod]

/-- Settles O4: bytes and counters correspond through `counterByte`, in the header as in a parsed counter. -/
theorem headerRoundTrip : Obligations.HeaderRoundTrip := by
  refine ⟨fun h s b => getElem?_headerBytes h, fun byteAt s => ?_,
    fun h => ⟨length_headerBytes h, parseHeader_headerBytes h⟩, headerBytes_parseHeader⟩
  rw [histAt_parseHeader, ← sum_counterByte_eq_toNat]
  exact congrArg List.sum
    (List.map_congr_left fun b hb => by rw [counterByte_counterAt _ _ (List.mem_range.1 hb)])

end Sys2Proof.Machine
end

section
/-!
The two commands at the host's port (spec/40_commands.md R90, R91), and what every instruction leaves of the input (R96).
-/

namespace Sys2Proof.Machine

/-! ## The launch -/

/-- While busy neither command has an effect (R91). -/
theorem launch_of_busy {s : State} (c : Op) (hb : s.busy = true) : launch c s = .next s := if_pos hb

/-- An idle block whose input lies in `IN` accepts either command (R90). -/
theorem launch_of_idle {s : State} (c : Op) (hp : s.phase = .idle) (hfit : s.inLen ≤ s.inCap) :
    launch c s = .next (s.accept c) :=
  (if_neg (State.not_busy_of_idle hp)).trans (if_neg (BitVec.not_lt.2 hfit))

/-- Settles O9: both commands are `launch`, and `accept` writes out the event. -/
theorem commandAccepted : Obligations.CommandAccepted :=
  fun _ hp hfit => ⟨launch_of_idle .compress hp hfit, launch_of_idle .decompress hp hfit⟩

/-- A `CMD` write of `0x01` launches a COMPRESS (R71). -/
theorem step_of_writeCmd_compress {s : State} {rest : List HostMove} (h : s.host = .writeCmd 0x01 :: rest) :
    step s = launch .compress { s with host := rest } := step_of_command (i := .compress) h rfl

/-- A `CMD` write of `0x02` launches a DECOMPRESS (R71). -/
theorem step_of_writeCmd_decompress {s : State} {rest : List HostMove} (h : s.host = .writeCmd 0x02 :: rest) :
    step s = launch .decompress { s with host := rest } := step_of_command (i := .decompress) h rfl

/-- A `CMD` write of a reserved value uses up the transaction alone (R72, R91). -/
theorem step_of_reserved {s : State} {v : BitVec 8} {rest : List HostMove} (h : s.host = .writeCmd v :: rest)
    (h1 : v ≠ 0x01) (h2 : v ≠ 0x02) : step s = .next { s with host := rest } := by
  simp only [step, nextTurn, h, decodeCmd_eq_reserved h1 h2, hostMove]

/-- A `CMD` write while busy uses up the transaction alone, whatever its value (R91). -/
theorem step_of_writeCmd_busy {s : State} {v : BitVec 8} {rest : List HostMove} (h : s.host = .writeCmd v :: rest)
    (hb : s.busy = true) : step s = .next { s with host := rest } := by
  by_cases h1 : v = 0x01
  · exact (step_of_writeCmd_compress (h1 ▸ h)).trans (launch_of_busy .compress hb)
  by_cases h2 : v = 0x02
  · exact (step_of_writeCmd_decompress (h2 ▸ h)).trans (launch_of_busy .decompress hb)
  exact step_of_reserved h h1 h2

/-- Settles O10: `launch` does nothing while busy, and the host port nothing for a reserved value. -/
theorem commandNotAccepted : Obligations.CommandNotAccepted :=
  ⟨fun _ hb => ⟨launch_of_busy .compress hb, launch_of_busy .decompress hb⟩, fun _ _ _ h hc =>
    hc.elim (step_of_writeCmd_busy h) fun ⟨h1, h2⟩ => step_of_reserved h h1 h2⟩

/-! ## The input -/

/-- What no instruction changes: the input, the capacities and the host's coming transactions (R7, R34, R96). -/
structure SameInput (s t : State) : Prop where
  inLen : t.inLen = s.inLen
  inMem : t.inMem = s.inMem
  inCap : t.inCap = s.inCap
  outCap : t.outCap = s.outCap
  host : t.host = s.host
  era : t.era = s.era

theorem SameInput.refl (s : State) : SameInput s s := ⟨rfl, rfl, rfl, rfl, rfl, rfl⟩

theorem SameInput.trans {s t u : State} (h : SameInput s t) (k : SameInput t u) : SameInput s u :=
  ⟨k.inLen.trans h.inLen, k.inMem.trans h.inMem, k.inCap.trans h.inCap, k.outCap.trans h.outCap, k.host.trans h.host,
    k.era.trans h.era⟩

theorem SameInput.inByte {s t : State} (h : SameInput s t) : t.inByte = s.inByte := inByte_congr h.inLen h.inMem h.era

theorem SameInput.inBytes {s t : State} (h : SameInput s t) : t.inBytes = s.inBytes := by
  rw [State.inBytes, State.inBytes, h.inLen, h.inByte]

theorem Worked.sameInput {s u : State} (h : Worked s u) : SameInput s u :=
  ⟨h.inLen, h.inMem, h.inCap, h.outCap, h.host, h.era⟩

/-- Every way an instruction ends keeps the input, as the work before it did. -/
theorem exec_sameInput {i : Instr} {s t : State} (h : exec i s = .next t) : SameInput s t := by
  cases exec_cases h with
  | ignored _ _ same => exact same ▸ .refl s
  | accepted c _ _ _ eq => exact eq ▸ ⟨rfl, rfl, rfl, rfl, rfl, rfl⟩
  | goto u p _ worked _ eq => exact eq ▸ worked.sameInput.trans ⟨rfl, rfl, rfl, rfl, rfl, rfl⟩
  | finish u _ worked eq => exact eq ▸ worked.sameInput.trans ⟨rfl, rfl, rfl, rfl, rfl, rfl⟩
  | raise u e _ worked eq => exact eq ▸ worked.sameInput.trans ⟨rfl, rfl, rfl, rfl, rfl, rfl⟩

/-- Settles O15: no instruction touches the input, by `exec_sameInput`. -/
theorem inputUntouched : Obligations.InputUntouched := by
  intro i s t h
  have hin := exec_sameInput h
  exact ⟨hin.inLen, hin.inMem, hin.inCap, hin.outCap, hin.host, congrFun hin.inByte⟩

end Sys2Proof.Machine
end

section
/-!
The stage invariant (spec/40_commands.md R94, R95): for each phase a lemma with what the invariant asks of a state there, and
for each stage operation a lemma that its end meets what is asked of the phase it goes on to.
-/

namespace Sys2Proof.Machine

/-! ## What is asked at each phase -/

/-- `HIST` holds the counts of a non-empty input (R110). -/
def State.Counted (s : State) : Prop := s.inLen ≠ 0 ∧ s.hist = histogram s.inBytes

/-- The container has at least 2049 bytes and `BODY_LEN` is what is above (R171). -/
def State.Measured (s : State) : Prop := 2049 ≤ s.inLen ∧ s.bodyLen = s.inLen - 2049

/-- `VB` is the container's valid-bits byte, in `1 .. 8` (R173). -/
def State.Validated (s : State) : Prop := s.vb = s.inByte 2048 ∧ 1 ≤ s.vb ∧ s.vb ≤ 8

/-- The arena is the tree of `HIST` (R120). -/
def State.Built (s : State) : Prop :=
  s.node = storeNodes (buildNodes s.hist) s.node ∧ s.nleaf = BitVec.ofNat 9 (leafNodes s.hist).length ∧
    s.nnode = BitVec.ofNat 9 (buildNodes s.hist).length ∧ s.root = rootOf (buildNodes s.hist)

/-- The code table holds the tree's codes (R140). -/
def State.Coded (s : State) : Prop := s.code = storeCodes (codesOf (nodeAt s.node) s.nleaf s.root) s.code

/-- The header stands in `OUT` (R151). -/
def State.HeaderOut (s : State) : Prop := ∀ a < 2048, s.outMem.read a = (headerBytes s.hist)[a]?

/-- The valid-bits byte stands in `OUT`, as the last byte (R153). -/
def State.ValidOut (s : State) : Prop :=
  s.outLen = 2049 ∧ s.totBits = totalBits s.hist s.code ∧ s.vb = BitVec.ofNat 8 (validBitsOf s.totBits.toNat) ∧
    s.outMem.read 2048 = some s.vb

section
variable {s : State}

/-- The first stage of either command starts from an empty output alone (R90). -/
theorem State.StageInv.of_first (hp : s.phase = .hist ∨ s.phase = .dCheck) (hout : s.outLen = 0) : s.StageInv := by
  constructor
  case nothingOut => exact fun _ _ _ => hout
  all_goals rcases hp with hp | hp <;> simp [hp, State.pastValid, State.pastBuild]

theorem State.StageInv.of_build_compress (hp : s.phase = .build) (ho : s.op = .compress) (hout : s.outLen = 0)
    (hc : s.Counted) : s.StageInv := by
  constructor
  case nothingOut => exact fun _ _ _ => hout
  case counted => exact fun _ => hc
  all_goals simp [hp, ho, State.pastValid, State.pastBuild]

theorem State.StageInv.of_gen (hp : s.phase = .gen) (hout : s.outLen = 0) (hc : s.Counted) (hb : s.Built) :
    s.StageInv := by
  constructor
  case nothingOut => exact fun _ _ _ => hout
  case counted => exact fun _ => hc
  case built => exact fun _ => hb
  all_goals simp [hp, State.pastValid]

theorem State.StageInv.of_cHeader (hp : s.phase = .cHeader) (hout : s.outLen = 0) (hc : s.Counted) (hb : s.Built)
    (hcode : s.Coded) : s.StageInv := by
  constructor
  case nothingOut => exact fun _ _ _ => hout
  case counted => exact fun _ => hc
  case built => exact fun _ => hb
  case coded => exact fun _ => hcode
  all_goals simp [hp, State.pastValid]

theorem State.StageInv.of_cValid (hp : s.phase = .cValid) (hout : s.outLen = 2048) (hc : s.Counted) (hb : s.Built)
    (hcode : s.Coded) (hh : s.HeaderOut) : s.StageInv := by
  constructor
  case counted => exact fun _ => hc
  case built => exact fun _ => hb
  case coded => exact fun _ => hcode
  case headerOut => exact fun _ => hh
  case headerLen => exact fun _ => hout
  all_goals simp [hp, State.pastValid]

theorem State.StageInv.of_cPack (hp : s.phase = .cPack) (hc : s.Counted) (hb : s.Built) (hcode : s.Coded)
    (hh : s.HeaderOut) (hv : s.ValidOut) : s.StageInv := by
  constructor
  case counted => exact fun _ => hc
  case built => exact fun _ => hb
  case coded => exact fun _ => hcode
  case headerOut => exact fun _ => hh
  case validOut => exact fun _ => hv
  all_goals simp [hp, State.pastValid]

theorem State.StageInv.of_dHeader (hp : s.phase = .dHeader) (hout : s.outLen = 0) (hm : s.Measured) : s.StageInv := by
  constructor
  case nothingOut => exact fun _ _ _ => hout
  case longEnough => exact fun _ => hm
  all_goals simp [hp, State.pastValid, State.pastBuild]

theorem State.StageInv.of_dValid (hp : s.phase = .dValid) (hout : s.outLen = 0) (hm : s.Measured)
    (hh : s.hist = parseHeader s.inByte) : s.StageInv := by
  constructor
  case nothingOut => exact fun _ _ _ => hout
  case longEnough => exact fun _ => hm
  case parsed => exact fun _ => hh
  all_goals simp [hp, State.pastValid, State.pastBuild]

theorem State.StageInv.of_build_decompress (hp : s.phase = .build) (ho : s.op = .decompress) (hout : s.outLen = 0)
    (hm : s.Measured) (hh : s.hist = parseHeader s.inByte) (hv : s.Validated) : s.StageInv := by
  constructor
  case nothingOut => exact fun _ _ _ => hout
  case longEnough => exact fun _ => hm
  case parsed => exact fun _ => hh
  case validBits => exact fun _ => hv
  all_goals simp [hp, ho, State.pastBuild]

theorem State.StageInv.of_dSum (hp : s.phase = .dSum) (hout : s.outLen = 0) (hm : s.Measured)
    (hh : s.hist = parseHeader s.inByte) (hv : s.Validated) (hb : s.Built) (hroot : s.root ≠ Idx.none) : s.StageInv := by
  constructor
  case nothingOut => exact fun _ _ _ => hout
  case longEnough => exact fun _ => hm
  case parsed => exact fun _ => hh
  case validBits => exact fun _ => hv
  case built => exact fun _ => hb
  case hasTree => exact fun _ => hroot
  all_goals simp [hp]

theorem State.StageInv.of_dWalk (hp : s.phase = .dWalk) (hout : s.outLen = 0) (hm : s.Measured)
    (hh : s.hist = parseHeader s.inByte) (hv : s.Validated) (hb : s.Built) (hroot : s.root ≠ Idx.none)
    (ht : s.total = totalCount s.hist) : s.StageInv := by
  constructor
  case nothingOut => exact fun _ _ _ => hout
  case longEnough => exact fun _ => hm
  case parsed => exact fun _ => hh
  case validBits => exact fun _ => hv
  case built => exact fun _ => hb
  case hasTree => exact fun _ => hroot
  case summed => exact fun _ => ht
  all_goals simp [hp]

end

/-! ## The stages of a COMPRESS (R94) -/

/-- `emitAll` completes exactly where `OUT` has room for the bytes. -/
theorem emitAll_eq_next {vs : List Byte} {s t : State} :
    emitAll vs s = .next t ↔ s.outLen.toNat + vs.length ≤ s.outCap.toNat ∧
      t = { s with outMem := s.outMem.writeRun s.outLen.toNat vs, outLen := s.outLen + BitVec.ofNat 72 vs.length } := by
  unfold emitAll
  split <;> simp [*, eq_comm]

/-- What `BUILD` writes is the tree of `HIST`. -/
theorem State.build_built (s : State) : s.build.Built := ⟨(storeNodes_idem _ _).symm, rfl, rfl, rfl⟩

/-- Storing the same codes again changes nothing. -/
theorem storeCodes_idem (cs : List (Byte × Code)) (t : Vector Code 256) :
    storeCodes cs (storeCodes cs t) = storeCodes cs t := by
  have hentry : ∀ b, codeAt (storeCodes cs (storeCodes cs t)) b = codeAt (storeCodes cs t) b := fun b => by
    by_cases hb : ∃ c ∈ cs, c.1 = b
    · exact codeAt_storeCodes_of_mem _ _ hb
    · exact codeAt_storeCodes_of_not_mem _ fun c hc e => hb ⟨c, hc, e⟩
  refine Vector.ext fun i hi => ?_
  simpa [codeAt, Nat.mod_eq_of_lt hi] using hentry (BitVec.ofNat 8 i)

section
variable {s t : State} (hg : s.StageInv)
include hg

/-- In the stages before `C_VALID` and in those of a DECOMPRESS nothing is in `OUT` yet (R90, R150, R178). -/
theorem State.StageInv.outLen_eq_zero (h : s.phase ∉ [.idle, .cValid, .cPack]) : s.outLen = 0 := by
  simp only [List.mem_cons, List.not_mem_nil, or_false, not_or] at h
  obtain ⟨hidle, hvalid, hpack⟩ := h
  exact hg.nothingOut (by simpa using hidle) hvalid hpack

theorem State.StageInv.execHist (hp : s.phase = .hist) (ho : s.op = .compress) (h : execHist s = .next t) :
    t.StageInv := by
  unfold Machine.execHist at h
  split at h
  · cases h
  · split at h <;> cases h
    · exact .of_idle rfl
    · exact .of_build_compress rfl ho (hg.outLen_eq_zero (by simp [hp])) ⟨‹_›, rfl⟩

theorem State.StageInv.execBuild (hp : s.phase = .build) (h : execBuild s = .next t) : t.StageInv := by
  have hout := hg.outLen_eq_zero (by simp [hp])
  cases ho : s.op <;> simp only [Machine.execBuild, ho] at h
  case compress =>
    cases h
    exact .of_gen rfl hout (hg.counted (.inl ⟨hp, ho⟩)) s.build_built
  case decompress =>
    have hpast : s.pastValid := .inl ⟨hp, ho⟩
    split at h <;> cases h
    · exact .of_idle rfl
    · exact .of_dSum rfl hout (hg.longEnough (.inl hpast)) (hg.parsed (.inl hpast)) (hg.validBits hpast) s.build_built ‹_›

theorem State.StageInv.execGen (hp : s.phase = .gen) (h : execGen s = .next t) : t.StageInv := by
  cases h
  exact .of_cHeader rfl (hg.outLen_eq_zero (by simp [hp])) (hg.counted (.inr (by simp [hp])))
    (hg.built (by simp [hp, State.pastBuild])) (storeCodes_idem _ _).symm

theorem State.StageInv.execCHeader (hp : s.phase = .cHeader) (h : execCHeader s = .next t) : t.StageInv := by
  have hout := hg.outLen_eq_zero (by simp [hp])
  obtain ⟨u, h₁, h₂⟩ := andThen_eq_next.1 h
  cases h₂
  obtain ⟨-, rfl⟩ := emitAll_eq_next.1 h₁
  refine .of_cValid rfl ?_ (hg.counted (.inr (by simp [hp]))) (hg.built (by simp [hp, State.pastBuild]))
    (hg.coded (by simp [hp])) fun a ha => ?_
  · show s.outLen + BitVec.ofNat 72 (headerBytes s.hist).length = 2048
    rw [hout, length_headerBytes]
    rfl
  · show (s.outMem.writeRun s.outLen.toNat (headerBytes s.hist)).read a = (headerBytes s.hist)[a]?
    rw [hout, Memory.read_writeRun, length_headerBytes, if_pos (by simpa using ha)]
    rfl

theorem State.StageInv.execCValid (hp : s.phase = .cValid) (h : execCValid s = .next t) : t.StageInv := by
  have hout := hg.headerLen hp
  obtain ⟨u, h₁, h₂⟩ := andThen_eq_next.1 h
  cases h₂
  obtain ⟨-, rfl⟩ := emit_eq_next.1 h₁
  have hread : ∀ v a, (s.outMem.write s.outLen.toNat v).read a = if a = 2048 then some v else s.outMem.read a :=
    fun v a => by rw [hout, Memory.read_write]; rfl
  refine .of_cPack rfl (hg.counted (.inr (by simp [hp]))) (hg.built (by simp [hp, State.pastBuild]))
    (hg.coded (by simp [hp])) (fun a ha => ?_) ⟨?_, rfl, rfl, (hread _ _).trans (if_pos rfl)⟩
  · exact ((hread _ a).trans (if_neg ha.ne)).trans (hg.headerOut (.inl hp) a ha)
  · show s.outLen + 1 = 2049
    rw [hout]
    rfl

omit hg in
theorem State.StageInv.execCPack (h : execCPack s = .next t) : t.StageInv := by
  unfold Machine.execCPack at h
  split at h
  · cases h
  · obtain ⟨u, -, h₂⟩ := andThen_eq_next.1 h
    obtain ⟨v, -, h₄⟩ := andThen_eq_next.1 h₂
    cases h₄
    exact .of_idle rfl

/-! ## The stages of a DECOMPRESS (R95) -/

theorem State.StageInv.execDCheck (hp : s.phase = .dCheck) (h : execDCheck s = .next t) : t.StageInv := by
  unfold Machine.execDCheck at h
  split at h
  · cases h
    exact .of_idle rfl
  · split at h <;> cases h
    · exact .of_idle rfl
    · exact .of_dHeader rfl (hg.outLen_eq_zero (by simp [hp])) ⟨BitVec.not_lt.1 ‹_›, rfl⟩

theorem State.StageInv.execDHeader (hp : s.phase = .dHeader) (h : execDHeader s = .next t) : t.StageInv := by
  unfold Machine.execDHeader at h
  split at h <;> cases h
  exact .of_dValid rfl (hg.outLen_eq_zero (by simp [hp])) (hg.longEnough (.inr (.inl hp))) rfl

theorem State.StageInv.execDValid (hp : s.phase = .dValid) (ho : s.op = .decompress) (h : execDValid s = .next t) :
    t.StageInv := by
  unfold Machine.execDValid at h
  split at h
  · cases h
  · rename_i v hv
    split at h <;> cases h
    · exact .of_idle rfl
    · rename_i hrange
      obtain ⟨hlo, hhi⟩ := not_or.1 hrange
      have hbyte : v = s.inByte 2048 := by
        rw [State.memReadIn] at hv
        split at hv <;> simp_all
      exact .of_build_decompress rfl ho (hg.outLen_eq_zero (by simp [hp]))
        (hg.longEnough (.inr (.inr hp))) (hg.parsed (.inr hp)) ⟨hbyte, BitVec.not_lt.1 hlo, BitVec.not_lt.1 hhi⟩

theorem State.StageInv.execDSum (hp : s.phase = .dSum) (h : execDSum s = .next t) : t.StageInv := by
  have hpast : s.pastValid := .inr (.inl hp)
  cases h
  exact .of_dWalk rfl (hg.outLen_eq_zero (by simp [hp])) (hg.longEnough (.inl hpast))
    (hg.parsed (.inl hpast)) (hg.validBits hpast) (hg.built (by simp [hp, State.pastBuild])) (hg.hasTree (.inl hp)) rfl

omit hg in
theorem State.StageInv.execDWalk (h : execDWalk s = .next t) : t.StageInv := by
  obtain ⟨u, -, rfl | rfl⟩ := walk_cases h <;> exact .of_idle rfl

end

/-! ## Every step -/

/-- The stage operation that `PHASE` selects keeps the stage invariant. -/
theorem State.StageInv.exec_stage {s t : State} {i : Instr} (hg : s.StageInv) (ho : s.phase ∈ s.op.stages)
    (hi : decodePhase s.phase.code = .ok i) (h : exec i s = .next t) : t.StageInv := by
  cases hp : s.phase <;> rw [hp] at hi ho <;> cases hi
  case hist => exact hg.execHist hp (by cases hs : s.op <;> simp_all [Op.stages]) h
  case build => exact hg.execBuild hp h
  case gen => exact hg.execGen hp h
  case cHeader => exact hg.execCHeader hp h
  case cValid => exact hg.execCValid hp h
  case cPack => exact .execCPack h
  case dCheck => exact hg.execDCheck hp h
  case dHeader => exact hg.execDHeader hp h
  case dValid => exact hg.execDValid hp (by cases hs : s.op <;> simp_all [Op.stages]) h
  case dSum => exact hg.execDSum hp h
  case dWalk => exact .execDWalk h

/-- A command keeps the stage invariant: it has no effect, or starts from an empty output. -/
theorem State.StageInv.launch {s t : State} {c : Op} (hg : s.StageInv) (h : launch c s = .next t) : t.StageInv := by
  rcases launch_cases c s with ⟨-, e⟩ | ⟨-, -, e⟩ | ⟨-, -, e⟩ <;> rw [e] at h <;> cases h
  · exact hg
  · exact .of_first (by cases c <;> simp [Op.firstPhase]) rfl

/-- A host transaction keeps the stage invariant: while busy it changes nothing but by a reset (R24, R91). -/
theorem State.StageInv.hostMove {m : HostMove} {s t : State} (hg : s.StageInv) (h : hostMove m s = .next t) :
    t.StageInv := by
  rcases hostMove_spec h with rfl | ⟨-, rfl⟩ | ⟨hp, ⟨v, -, rfl⟩ | ⟨a, v, -, -, rfl⟩ | ⟨a, v, -, -, rfl⟩⟩
  · exact hg
  · exact .of_idle rfl
  all_goals exact .of_idle hp

theorem State.StageInv.with_host {s : State} (hg : s.StageInv) (l : List HostMove) :
    ({ s with host := l } : State).StageInv :=
  ⟨hg.nothingOut, hg.counted, hg.longEnough, hg.parsed, hg.validBits, hg.built, hg.hasTree, hg.coded, hg.headerOut,
    hg.headerLen, hg.validOut, hg.summed⟩

theorem State.StageInv.step {s t : State} (hs : s.Inv) (hg : s.StageInv) (h : step s = .next t) : t.StageInv := by
  obtain ⟨l, ⟨hn, -⟩ | ⟨i, hn, hi | ⟨v, hv⟩⟩ | ⟨m, hn⟩⟩ := nextTurn_spec s <;> simp only [Machine.step, hn] at h
  · cases h
    exact hg.with_host l
  · exact (hg.with_host l).exec_stage (hs.phaseOfOp (busy_of_decodePhase hi)) hi h
  · rcases command_of_decodeCmd hv with rfl | rfl <;> exact (hg.with_host l).launch h
  · exact (hg.with_host l).hostMove h

/-- Settles O57: a step is a stage operation, a command, a host transaction or waiting, and each keeps the invariant. -/
theorem stepKeepsStageInvariant : Obligations.StepKeepsStageInvariant := fun _ _ hs hg h => hg.step hs h

end Sys2Proof.Machine
end

section
/-!
An operation ends (spec/40_commands.md R94, R95, R105): each stage operation ends it or goes on to the next stage of its
command, and there are six.
-/

namespace Sys2Proof.Machine

/-! ## The order of the stages -/

/-- The stage after a stage (R94, R95); `BUILD` is the one stage both commands have. -/
def Phase.next (o : Op) : Phase → Phase
  | .idle => .idle
  | .hist => .build
  | .build => match o with
    | .compress => .gen
    | .decompress => .dSum
  | .gen => .cHeader
  | .cHeader => .cValid
  | .cValid => .cPack
  | .cPack => .idle
  | .dCheck => .dHeader
  | .dHeader => .dValid
  | .dValid => .build
  | .dSum => .dWalk
  | .dWalk => .idle

/-- A stage operation that does not end the operation goes on to the next stage. -/
theorem exec_phase_next {i : Instr} {s t : State} (hi : decodePhase s.phase.code = .ok i) (h : exec i s = .next t)
    (hne : t.phase ≠ .idle) : t.phase = s.phase.next s.op := by
  cases hp : s.phase <;> rw [hp] at hi <;> cases hi
  case hist =>
    simp only [exec, execHist] at h
    split at h
    · cases h
    · split at h <;> cases h
      · exact absurd rfl hne
      · rfl
  case build =>
    cases ho : s.op <;> simp only [exec, execBuild, ho] at h
    · cases h
      rfl
    · split at h <;> cases h
      · exact absurd rfl hne
      · rfl
  case gen =>
    cases h
    rfl
  case cHeader =>
    obtain ⟨u, -, h₂⟩ := andThen_eq_next.1 h
    cases h₂
    rfl
  case cValid =>
    obtain ⟨u, -, h₂⟩ := andThen_eq_next.1 h
    cases h₂
    rfl
  case cPack =>
    simp only [exec, execCPack] at h
    split at h
    · cases h
    · obtain ⟨u, -, h₂⟩ := andThen_eq_next.1 h
      obtain ⟨v, -, h₄⟩ := andThen_eq_next.1 h₂
      cases h₄
      exact absurd rfl hne
  case dCheck =>
    simp only [exec, execDCheck] at h
    split at h
    · cases h
      exact absurd rfl hne
    · split at h <;> cases h
      · exact absurd rfl hne
      · rfl
  case dHeader =>
    simp only [exec, execDHeader] at h
    split at h <;> cases h
    rfl
  case dValid =>
    simp only [exec, execDValid] at h
    split at h
    · cases h
    · split at h <;> cases h
      · exact absurd rfl hne
      · rfl
  case dSum =>
    cases h
    rfl
  case dWalk =>
    obtain ⟨u, -, rfl | rfl⟩ := walk_cases h <;> exact absurd rfl hne

/-- How many stages of the command are left at a phase, that phase's included. -/
def Phase.stagesLeft (o : Op) (p : Phase) : Nat := o.stages.length - o.stages.idxOf p

theorem Phase.stagesLeft_le (o : Op) (p : Phase) : p.stagesLeft o ≤ 6 := by
  cases o <;> exact Nat.sub_le 6 _

/-- The next stage, where there is one, leaves one stage less. -/
theorem Phase.stagesLeft_next {o : Op} {p : Phase} (hp : p ∈ o.stages) (hne : p.next o ≠ .idle) :
    (p.next o).stagesLeft o + 1 = p.stagesLeft o := by
  revert hp hne
  cases o <;> cases p <;> decide

/-! ## The operation's steps -/

/-- A busy block's phase selects a stage operation (R21). -/
theorem exists_decodePhase_of_busy {s : State} (hb : s.busy = true) : ∃ i, decodePhase s.phase.code = .ok i := by
  rw [State.busy_eq_true] at hb
  cases hp : s.phase
  case idle => exact absurd hp hb
  all_goals exact ⟨_, rfl⟩

/-- No phase selects a command. -/
theorem stage_of_decodePhase {v : BitVec 4} {i : Instr} (h : decodePhase v = .ok i) : i ≠ .compress ∧ i ≠ .decompress := by
  have hword := encode_of_decodePhase h
  constructor <;> rintro rfl <;> cases hword

/-- A stage operation ends the operation with `DONE = 1`, or goes on to the next stage. -/
theorem exec_done_or_next {i : Instr} {s t : State} (hs : s.Inv) (hi : decodePhase s.phase.code = .ok i)
    (h : exec i s = .next t) :
    (t.done = true ∧ t.phase = .idle) ∨ (t.busy = true ∧ t.phase.stagesLeft t.op + 1 = s.phase.stagesLeft s.op) := by
  obtain ⟨hcompress, hdecompress⟩ := stage_of_decodePhase hi
  cases exec_cases h with
  | ignored cmd _ _ => exact absurd cmd (not_or.2 ⟨hcompress, hdecompress⟩)
  | accepted _ cmd _ _ _ => exact absurd (cmd.imp And.left And.left) (not_or.2 ⟨hcompress, hdecompress⟩)
  | goto u p _ _ busy eq =>
    have hne : t.phase ≠ .idle := by simpa [eq] using busy
    have hin := hs.phaseOfOp (busy_of_decodePhase hi)
    have hnext := exec_phase_next hi h hne
    refine .inr ⟨by simpa using hne, ?_⟩
    rw [(exec_next_phase hi hin h hne).1, hnext]
    exact Phase.stagesLeft_next hin (hnext ▸ hne)
  | finish u _ _ eq => exact .inl (eq ▸ ⟨rfl, rfl⟩)
  | raise u e _ _ eq => exact .inl (eq ▸ ⟨rfl, rfl⟩)

/-- A first step and `k` more. -/
theorem steps_succ_of_step {s t : State} (h : step s = .next t) (k : Nat) : steps (k + 1) s = steps k t := by
  rw [steps, h, andThen_next]

/-- Left to itself, a block in operation ends it, or is refused for want of room, in as many steps as stages are left. -/
theorem ends_within_stagesLeft {n : Nat} {s : State} (hs : s.Inv) (hg : s.StageInv) (hb : s.busy = true)
    (hh : s.host = []) (hn : s.phase.stagesLeft s.op ≤ n) :
    ∃ k ≤ n, (∃ t, steps k s = .next t ∧ t.done = true ∧ t.phase = .idle) ∨
      steps k s = .refused .outputBeyondCapacity := by
  induction n generalizing s with
  | zero =>
    have := List.idxOf_lt_length_of_mem (hs.phaseOfOp hb)
    simp only [Phase.stagesLeft] at hn
    omega
  | succ n ih =>
    obtain ⟨i, hi⟩ := exists_decodePhase_of_busy hb
    have hstep := step_of_quiet hh hi
    rcases exec_stopsOnlyForCapacity hs hg hi with ⟨t, ht⟩ | ht <;> rw [ht] at hstep
    · rcases exec_done_or_next hs hi ht with hend | ⟨hbusy, hleft⟩
      · exact ⟨1, by omega, .inl ⟨t, steps_succ_of_step hstep 0, hend⟩⟩
      · obtain ⟨k, hk, hrun⟩ := ih (hs.step hstep) (hg.step hs hstep) hbusy ((exec_sameInput ht).host.trans hh) (by omega)
        exact ⟨k + 1, by omega, by rwa [steps_succ_of_step hstep]⟩
    · exact ⟨1, by omega, .inr (by rw [steps, hstep, andThen_refused])⟩

/-- Settles O53: either command has six stages. -/
theorem operationEnds : Obligations.OperationEnds :=
  fun s hs hg hb hh => ends_within_stagesLeft hs hg hb hh (s.phase.stagesLeft_le s.op)

end Sys2Proof.Machine
end

section
/-!
Paths in the tree of `BUILD` (spec/43_code_generator.md R140, R141): every node is reached from the root, in fewer steps than
there are leaves, and the codes of `GEN` are the paths to the leaves.
-/

namespace Sys2Proof.Machine

/-! ## Parents and children -/

/-- Node `i` is a child of the internal node `j`. -/
def IsChild (ns : List Node) (j i : Nat) : Prop :=
  ∃ w c0 c1, (plain ns)[j]? = some (.internal w c0 c1 false) ∧ (c0.toNat = i ∨ c1.toNat = i)

/-- What makes the arena a forest whose roots are the nodes of the priority structure: a child stands before its parent, and
every node taken from the structure has a parent (R125, R128). -/
structure Linked (ns : List Node) : Prop where
  before : ∀ j i, IsChild ns j i → i < j
  parent : ∀ i n, ns[i]? = some n → n.inq = false → ∃ j, IsChild ns j i

theorem linked_leafNodes (h : Vector Counter 256) : Linked (leafNodes h) where
  before j i := by
    rintro ⟨w, c0, c1, hj, -⟩
    rw [getElem?_plain, leafNodes_eq_map, List.getElem?_map, Option.map_map] at hj
    cases e : (leafSyms h)[j]? <;> simp [e, Node.extracted] at hj
  parent i n hi hq := by
    have hn : n ∈ leafNodes h := List.mem_of_getElem? hi
    rw [leafNodes_eq_map, List.mem_map] at hn
    obtain ⟨b, -, rfl⟩ := hn
    cases hq

/-- A merge pass over two nodes or more takes two nodes from the structure and makes them the children of a new last one. -/
theorem mergePass_eq_modify {ns : List Node} (h : 2 ≤ (live ns).length) :
    ∃ a b w, a < ns.length ∧ b < ns.length ∧ mergePass ns =
      (ns.modify a Node.extracted).modify b Node.extracted ++ [.internal w (BitVec.ofNat 9 a) (BitVec.ofNat 9 b) true] := by
  obtain ⟨a, m, ha, hm, hmq⟩ := extractMin_of_live (ns := ns) (List.ne_nil_of_length_pos (by omega))
  have hlen := (live_modify_extracted hm hmq).length_eq
  rw [List.length_cons] at hlen
  obtain ⟨b, n, hb, hn, -⟩ := extractMin_of_live (ns := ns.modify a Node.extracted)
    (List.ne_nil_of_length_pos (by omega))
  refine ⟨a, b, _, (List.getElem?_eq_some_iff.1 hm).1, ?_, by simp only [mergePass, ha, hb]; rfl⟩
  simpa using (List.getElem?_eq_some_iff.1 hn).1

theorem Linked.pass {h : Vector Counter 256} {ns : List Node} (ha : Arena h ns) (hk : Linked ns)
    (hl : 2 ≤ (live ns).length) : Linked (mergePass ns) := by
  obtain ⟨a, b, w, hal, hbl, e⟩ := mergePass_eq_modify hl
  have hplain : plain (mergePass ns) = plain ns ++ [.internal w (BitVec.ofNat 9 a) (BitVec.ofNat 9 b) false] := by
    rw [e, plain_append, plain_modify_extracted, plain_modify_extracted]
    rfl
  have hchild : ∀ j i, IsChild (mergePass ns) j i ↔ IsChild ns j i ∨ (j = ns.length ∧ (a = i ∨ b = i)) := by
    intro j i
    simp only [IsChild, hplain, getElem?_concat_eq_some, length_plain]
    constructor
    · rintro ⟨v, c0, c1, hj | ⟨rfl, hx⟩, hc⟩
      · exact .inl ⟨v, c0, c1, hj, hc⟩
      · cases hx
        exact .inr ⟨rfl, by rwa [ha.toNat_index hal, ha.toNat_index hbl] at hc⟩
    · rintro (⟨v, c0, c1, hj, hc⟩ | ⟨rfl, hc⟩)
      · exact ⟨v, c0, c1, .inl hj, hc⟩
      · exact ⟨w, _, _, .inr ⟨rfl, rfl⟩, by rwa [ha.toNat_index hal, ha.toNat_index hbl]⟩
  constructor
  · intro j i hji
    rcases (hchild j i).1 hji with hold | ⟨rfl, rfl | rfl⟩
    · exact hk.before j i hold
    · exact hal
    · exact hbl
  · intro i n hi hq
    simp only [hchild, exists_or]
    by_cases hab : a = i ∨ b = i
    · exact .inr ⟨ns.length, rfl, hab⟩
    · obtain ⟨hai, hbi⟩ := not_or.1 hab
      rw [e, getElem?_concat_eq_some, List.getElem?_modify_ne _ _ hbi, List.getElem?_modify_ne _ _ hai] at hi
      rcases hi with hi | ⟨-, rfl⟩
      · exact .inl (hk.parent i n hi hq)
      · cases hq

theorem Linked.loop {h : Vector Counter 256} {n : Nat} {ns : List Node} (ha : Arena h ns) (hk : Linked ns)
    (hl : (live ns).length = n + 1) : Linked (mergeLoop n ns) := by
  induction n generalizing ns with
  | zero => exact hk
  | succ n ih =>
    obtain ⟨hpass, hlen⟩ := ha.mergePass (by omega)
    exact ih hpass (hk.pass ha (by omega)) (by omega)

theorem buildNodes_linked {h : Vector Counter 256} (hk : leafSyms h ≠ []) : Linked (buildNodes h) := by
  have := List.length_pos_iff.2 hk
  exact (linked_leafNodes h).loop (.leafNodes hk) (by rw [live_leafNodes, length_leafNodes]; omega)

/-! ## Paths -/

/-- The bits of `p` lead from node `i` to the leaf of the byte value `b` (R141). -/
def LeadsTo (node : Idx → Option Node) (i : Idx) (p : List Bool) (b : Byte) : Prop :=
  ∃ l w q, follow node i p = some l ∧ node l = some (.leaf w b q)

theorem leadsTo_nil {node : Idx → Option Node} {i : Idx} {b : Byte} :
    LeadsTo node i [] b ↔ ∃ w q, node i = some (.leaf w b q) := by
  simp [LeadsTo, follow]

theorem leadsTo_cons {node : Idx → Option Node} {i : Idx} {bit : Bool} {p : List Bool} {b : Byte} :
    LeadsTo node i (bit :: p) b ↔
      ∃ w c0 c1 q, node i = some (.internal w c0 c1 q) ∧ LeadsTo node (if bit then c1 else c0) p b := by
  unfold LeadsTo
  rw [follow]
  cases hn : node i with
  | none => simp
  | some n => cases n <;> simp

theorem follow_append {node : Idx → Option Node} {i j : Idx} {p : List Bool} (h : follow node i p = some j)
    (r : List Bool) : follow node i (p ++ r) = follow node j r := by
  induction p generalizing i with
  | nil =>
    cases h
    rfl
  | cons bit p ih =>
    rw [follow] at h
    rw [List.cons_append, follow]
    split at h
    · exact ih h
    · cases h

theorem leadsTo_of_leaf {node : Idx → Option Node} {i : Idx} {w : Weight} {a : Byte} {q : Bool}
    (hn : node i = some (.leaf w a q)) {p : List Bool} {b : Byte} : LeadsTo node i p b ↔ p = [] ∧ b = a := by
  cases p with
  | nil => simp [leadsTo_nil, hn, eq_comm]
  | cons bit p => simp [leadsTo_cons, hn]

theorem leadsTo_of_internal {node : Idx → Option Node} {i : Idx} {w : Weight} {c0 c1 : Idx} {q : Bool}
    (hn : node i = some (.internal w c0 c1 q)) {p : List Bool} {b : Byte} :
    LeadsTo node i p b ↔ (∃ r, p = false :: r ∧ LeadsTo node c0 r b) ∨ ∃ r, p = true :: r ∧ LeadsTo node c1 r b := by
  cases p with
  | nil => simp [leadsTo_nil, hn]
  | cons bit p => cases bit <;> simp [leadsTo_cons, hn]

theorem not_leadsTo_of_none {node : Idx → Option Node} {i : Idx} (hn : node i = none) (p : List Bool) (b : Byte) :
    ¬ LeadsTo node i p b := by
  cases p with
  | nil => simp [leadsTo_nil, hn]
  | cons bit p => simp [leadsTo_cons, hn]

/-- The traversal finds exactly the leaves that at most `d` bits lead to, each with the bits that lead there. -/
theorem mem_visit {node : Idx → Option Node} {d : Nat} {i : Idx} {path : List Bool} {b : Byte} {c : Code} :
    (b, c) ∈ visit node d i path ↔ ∃ p, c = path ++ p ∧ p.length ≤ d ∧ LeadsTo node i p b := by
  induction d generalizing i path with
  | zero =>
    cases hn : node i with
    | none => simp [visit, hn, not_leadsTo_of_none hn]
    | some n => cases n with
      | leaf w a q => simp [visit, hn, leadsTo_of_leaf hn, and_comm]
      | internal w c0 c1 q => simp [visit, hn, leadsTo_of_internal hn]
  | succ d ih =>
    cases hn : node i with
    | none => simp [visit, hn, not_leadsTo_of_none hn]
    | some n => cases n with
      | leaf w a q => simp [visit, hn, leadsTo_of_leaf hn, and_comm]
      | internal w c0 c1 q =>
        simp only [visit, hn, List.mem_append, ih, leadsTo_of_internal hn]
        constructor
        · rintro (⟨p, rfl, hp, hl⟩ | ⟨p, rfl, hp, hl⟩)
          · exact ⟨false :: p, by simp, by simpa using hp, .inl ⟨p, rfl, hl⟩⟩
          · exact ⟨true :: p, by simp, by simpa using hp, .inr ⟨p, rfl, hl⟩⟩
        · rintro ⟨_, rfl, hp, ⟨r, rfl, hl⟩ | ⟨r, rfl, hl⟩⟩
          · exact .inl ⟨r, by simp, by simpa using hp, hl⟩
          · exact .inr ⟨r, by simp, by simpa using hp, hl⟩

/-! ## Paths in an arena -/

theorem isChild_of_internal {ns : List Node} {j : Nat} {w : Weight} {c0 c1 : Idx} {q : Bool}
    (hj : ns[j]? = some (.internal w c0 c1 q)) (bit : Bool) : IsChild ns j (if bit then c1 else c0).toNat := by
  refine ⟨w, c0, c1, by rw [getElem?_plain, hj]; rfl, ?_⟩
  cases bit
  · exact .inl rfl
  · exact .inr rfl

theorem internal_of_isChild {ns : List Node} {j i : Nat} (h : IsChild ns j i) :
    ∃ w c0 c1 q, ∃ bit : Bool, ns[j]? = some (.internal w c0 c1 q) ∧ (if bit then c1 else c0).toNat = i := by
  obtain ⟨w, c0, c1, hj, hc⟩ := h
  rw [getElem?_plain, Option.map_eq_some_iff] at hj
  obtain ⟨n, hj, hn⟩ := hj
  cases n <;> cases hn
  rcases hc with hc | hc
  · exact ⟨w, c0, c1, _, false, hj, hc⟩
  · exact ⟨w, c0, c1, _, true, hj, hc⟩

/-- The leaves stand first, so an internal node has at least as many nodes before it as there are leaves. -/
theorem Arena.le_of_internal {h : Vector Counter 256} {ns : List Node} (ha : Arena h ns) {i : Nat} {w : Weight}
    {c0 c1 : Idx} {q : Bool} (hi : ns[i]? = some (.internal w c0 c1 q)) : (leafSyms h).length ≤ i := by
  have hsym := ha.syms i
  rw [getElem?_plain, hi] at hsym
  exact List.getElem?_eq_none_iff.1 hsym.symm

/-- Each bit of a path leads further down in the arena, from internal node to internal node. -/
theorem Arena.length_follow_le {h : Vector Counter 256} {ns : List Node} (ha : Arena h ns) (hk : Linked ns) {i l : Idx}
    {p : List Bool} (hp : follow (listNode ns) i p = some l) : p = [] ∨ p.length + (leafSyms h).length ≤ i.toNat + 1 := by
  induction p generalizing i with
  | nil => exact .inl rfl
  | cons bit p ih =>
    rw [follow] at hp
    split at hp
    · rename_i w c0 c1 q hi
      have hle := ha.le_of_internal hi
      have hlt := hk.before _ _ (isChild_of_internal hi bit)
      rcases ih hp with rfl | hlen
      · exact .inr (by simp only [List.length_singleton]; omega)
      · exact .inr (by simp only [List.length_cons]; omega)
    · cases hp

/-- The last node of the arena, the root, is reached by no bit, and every other one through its parent. -/
theorem Arena.exists_follow {h : Vector Counter 256} {ns : List Node} (ha : Arena h ns) (hk : Linked ns)
    (hl : (live ns).length = 1) {i : Nat} (hi : i < ns.length) :
    ∃ p, follow (listNode ns) (rootOf ns) p = some (BitVec.ofNat 9 i) := by
  obtain ⟨ms, x, rfl, hx⟩ := ha.last
  have hms : live ms = [] := by simpa [live_append, live, hx] using hl
  induction hd : ms.length - i using Nat.strong_induction_on generalizing i with
  | _ d ih =>
    rw [List.length_append, List.length_singleton] at hi
    rcases Nat.lt_or_ge i ms.length with hlt | hge
    · have hmem := List.getElem_mem hlt
      have hq : ms[i].inq = false := by simpa [live] using List.filter_eq_nil_iff.1 hms _ hmem
      obtain ⟨j, hj⟩ := hk.parent i ms[i] (by simp [List.getElem?_append_left hlt]) hq
      have hij := hk.before j i hj
      obtain ⟨w, c0, c1, q, bit, hn, hc⟩ := internal_of_isChild hj
      have hjl := (List.getElem?_eq_some_iff.1 hn).1
      obtain ⟨p, hp⟩ := ih (ms.length - j) (by omega) hjl rfl
      refine ⟨p ++ [bit], ?_⟩
      have hjn : listNode (ms ++ [x]) (BitVec.ofNat 9 j) = some (.internal w c0 c1 q) := by
        rw [listNode, ha.toNat_index hjl, hn]
      rw [follow_append hp, follow, hjn]
      exact congrArg some (BitVec.eq_of_toNat_eq (by rw [hc, ha.toNat_index (by simp; omega)]))
    · obtain rfl : i = ms.length := by omega
      exact ⟨[], by rw [follow, rootOf, if_neg (by simp)]; simp⟩

end Sys2Proof.Machine
end

section
/-!
The codes of `GEN` (spec/43_code_generator.md R140 to R142) and the walk that reads them back (spec/45_decoder.md R178, R179).
-/

namespace Sys2Proof.Machine

/-! ## The arena's size and its root -/

theorem leafSyms_ne_nil {h : Vector Counter 256} {b : Byte} (hb : histAt h b ≠ 0) : leafSyms h ≠ [] :=
  List.ne_nil_of_mem (mem_leafSyms.2 hb)

/-- `k` leaves give `2k - 1` nodes (R128). -/
theorem length_buildNodes {h : Vector Counter 256} (hk : leafSyms h ≠ []) :
    (buildNodes h).length + 1 = 2 * (leafSyms h).length := by
  obtain ⟨ha, hl⟩ := buildNodes_arena hk
  rw [← ha.size, hl]

theorem buildNodes_ne_nil {h : Vector Counter 256} (hk : leafSyms h ≠ []) : buildNodes h ≠ [] := by
  have := length_buildNodes hk
  have := List.length_pos_iff.2 hk
  exact List.ne_nil_of_length_pos (by omega)

theorem toNat_rootOf {h : Vector Counter 256} (hk : leafSyms h ≠ []) :
    (rootOf (buildNodes h)).toNat + 1 = (buildNodes h).length := by
  have hpos := List.length_pos_iff.2 (buildNodes_ne_nil hk)
  rw [rootOf, if_neg (buildNodes_ne_nil hk), (buildNodes_arena hk).1.toNat_index (by omega)]
  omega

/-- A histogram with a leaf has one, or two and more. -/
theorem leafSyms_cases {h : Vector Counter 256} {b : Byte} (hb : histAt h b ≠ 0) :
    leafSyms h = [b] ∨ 2 ≤ (leafSyms h).length := by
  have hmem := mem_leafSyms.2 hb
  rcases Nat.lt_or_ge (leafSyms h).length 2 with hlt | hge
  · have hpos := List.length_pos_of_mem hmem
    obtain ⟨a, ha⟩ := List.length_eq_one_iff.1 (show (leafSyms h).length = 1 by omega)
    rw [ha, List.mem_singleton] at hmem
    exact .inl (hmem ▸ ha)
  · exact .inr hge

theorem nleaf_ne {k : Nat} (h2 : 2 ≤ k) (h256 : k ≤ 256) : BitVec.ofNat 9 k ≠ 0 ∧ BitVec.ofNat 9 k ≠ 1 := by
  constructor <;> intro h <;> have := congrArg BitVec.toNat h <;> simp at this <;> omega

theorem buildNodes_of_single {h : Vector Counter 256} {b : Byte} (hs : leafSyms h = [b]) :
    buildNodes h = [.leaf ((histAt h b).setWidth 72) b true] := by
  rw [buildNodes, length_leafNodes, leafNodes_eq_map, hs]
  rfl

/-! ## Paths to the leaves -/

/-- At most 255 bits lead from the root to any byte value with a counter (R131, R145). -/
theorem exists_leadsTo {h : Vector Counter 256} {b : Byte} (hb : histAt h b ≠ 0) :
    ∃ p : List Bool, p.length ≤ 255 ∧ LeadsTo (listNode (buildNodes h)) (rootOf (buildNodes h)) p b := by
  have hk := leafSyms_ne_nil hb
  obtain ⟨ha, hl⟩ := buildNodes_arena hk
  obtain ⟨i, hi⟩ := List.mem_iff_getElem?.1 (mem_leafSyms.2 hb)
  obtain ⟨w, q, hn⟩ := ha.leaf_iff.2 hi
  have hlen := (List.getElem?_eq_some_iff.1 hn).1
  obtain ⟨p, hp⟩ := ha.exists_follow (buildNodes_linked hk) hl hlen
  refine ⟨p, ?_, BitVec.ofNat 9 i, w, q, hp, by rw [listNode, ha.toNat_index hlen, hn]⟩
  rcases ha.length_follow_le (buildNodes_linked hk) hp with rfl | hle
  · exact Nat.zero_le _
  · have := toNat_rootOf hk
    have := length_buildNodes hk
    have := length_leafSyms_le h
    omega

/-- With two leaves or more the root is no leaf. -/
theorem ne_nil_of_leadsTo_root {h : Vector Counter 256} (h2 : 2 ≤ (leafSyms h).length) {p : List Bool} {b : Byte}
    (hp : LeadsTo (listNode (buildNodes h)) (rootOf (buildNodes h)) p b) : p ≠ [] := by
  rintro rfl
  have hk : leafSyms h ≠ [] := List.ne_nil_of_length_pos (by omega)
  have hlt := (List.getElem?_eq_some_iff.1 ((buildNodes_arena hk).1.leaf_iff.1 (leadsTo_nil.1 hp))).1
  have := toNat_rootOf hk
  have := length_buildNodes hk
  omega

/-! ## The codes -/

/-- The codes `GEN` assigns in the tree of a histogram (R140). -/
def treeCodes (h : Vector Counter 256) : List (Byte × Code) :=
  codesOf (listNode (buildNodes h)) (BitVec.ofNat 9 (leafNodes h).length) (rootOf (buildNodes h))

theorem treeCodes_of_single {h : Vector Counter 256} {b : Byte} (hs : leafSyms h = [b]) :
    treeCodes h = [(b, [false])] := by
  rw [treeCodes, length_leafNodes, buildNodes_of_single hs, hs]
  rfl

theorem treeCodes_of_two_le {h : Vector Counter 256} (h2 : 2 ≤ (leafSyms h).length) :
    treeCodes h = visit (listNode (buildNodes h)) 255 (rootOf (buildNodes h)) [] := by
  obtain ⟨h0, h1⟩ := nleaf_ne h2 (length_leafSyms_le h)
  rw [treeCodes, codesOf, length_leafNodes, if_neg h0, if_neg h1]

/-- With two leaves or more the codes are the paths to the leaves. -/
theorem mem_treeCodes {h : Vector Counter 256} (h2 : 2 ≤ (leafSyms h).length) {b : Byte} {c : Code} :
    (b, c) ∈ treeCodes h ↔ c.length ≤ 255 ∧ LeadsTo (listNode (buildNodes h)) (rootOf (buildNodes h)) c b := by
  rw [treeCodes_of_two_le h2, mem_visit]
  simp

/-- Every byte value with a counter gets a code. -/
theorem exists_mem_treeCodes {h : Vector Counter 256} {b : Byte} (hb : histAt h b ≠ 0) : ∃ c ∈ treeCodes h, c.1 = b := by
  rcases leafSyms_cases hb with hs | h2
  · exact ⟨(b, [false]), by simp [treeCodes_of_single hs], rfl⟩
  · obtain ⟨p, hp⟩ := exists_leadsTo hb
    exact ⟨(b, p), (mem_treeCodes h2).2 hp, rfl⟩

/-- A symbol that gets a code has one of the codes given to it. -/
theorem mem_of_storeCodes {cs : List (Byte × Code)} {b : Byte} (t : Vector Code 256) (h : ∃ c ∈ cs, c.1 = b) :
    (b, codeAt (storeCodes cs t) b) ∈ cs := by
  refine (codeAt_storeCodes_cases cs t b).elim id fun hold => ?_
  have hother := codeAt_storeCodes_cases cs (tabulate 256 fun _ => true :: codeAt t b) b
  rw [← codeAt_storeCodes_of_mem t _ h, hold, codeAt_tabulate] at hother
  exact hold ▸ hother.resolve_right (by simp)

theorem mem_treeCodes_codeAt {h : Vector Counter 256} {b : Byte} (hb : histAt h b ≠ 0) :
    (b, codeAt (codeTable h) b) ∈ treeCodes h := mem_of_storeCodes _ (exists_mem_treeCodes hb)

/-- In a single-leaf tree the code is `"0"` (R142). -/
theorem codeAt_codeTable_of_single {h : Vector Counter 256} {b : Byte} (hs : leafSyms h = [b]) :
    codeAt (codeTable h) b = [false] := by
  have hb : histAt h b ≠ 0 := mem_leafSyms.1 (by simp [hs])
  have hm := mem_treeCodes_codeAt hb
  simpa [treeCodes_of_single hs] using hm

theorem leadsTo_codeAt {h : Vector Counter 256} (h2 : 2 ≤ (leafSyms h).length) {b : Byte} (hb : histAt h b ≠ 0) :
    LeadsTo (listNode (buildNodes h)) (rootOf (buildNodes h)) (codeAt (codeTable h) b) b :=
  ((mem_treeCodes h2).1 (mem_treeCodes_codeAt hb)).2

theorem length_codeAt_codeTable_le {h : Vector Counter 256} {b : Byte} (hb : histAt h b ≠ 0) :
    (codeAt (codeTable h) b).length ≤ 255 :=
  length_of_mem_codesOf (mem_treeCodes_codeAt hb)

theorem one_le_length_codeAt_codeTable {h : Vector Counter 256} {b : Byte} (hb : histAt h b ≠ 0) :
    1 ≤ (codeAt (codeTable h) b).length := by
  rcases leafSyms_cases hb with hs | h2
  · rw [codeAt_codeTable_of_single hs]
    exact le_rfl
  · exact List.length_pos_iff.2 (ne_nil_of_leadsTo_root h2 (leadsTo_codeAt h2 hb))

/-! ## Reading a code back -/

theorem childOf_of_internal {node : Idx → Option Node} {nleaf root i : Idx} (h0 : nleaf ≠ 0) (h1 : nleaf ≠ 1)
    {w : Weight} {c0 c1 : Idx} {q : Bool} (hn : node i = some (.internal w c0 c1 q)) (bit : Bool) :
    childOf node nleaf root i bit = if bit then c1 else c0 := by
  rw [childOf, if_neg h0, if_neg h1, hn]
  rfl

/-- In a tree of two leaves or more the walk reads the bits that lead to a leaf and emits its byte value. -/
theorem walkBits_of_leadsTo {node : Idx → Option Node} {nleaf root : Idx} (h0 : nleaf ≠ 0) (h1 : nleaf ≠ 1) {n : Nat}
    {cur : Idx} {p : List Bool} {b : Byte} (hp : LeadsTo node cur p b) (hne : p ≠ []) (rest : List Bool) :
    walkBits node nleaf root (n + 1) cur (p ++ rest) = (walkBits node nleaf root n root rest).map (b :: ·) := by
  induction p generalizing cur with
  | nil => exact absurd rfl hne
  | cons bit p ih =>
    obtain ⟨w, c0, c1, q, hn, hp⟩ := leadsTo_cons.1 hp
    rw [List.cons_append, walkBits, childOf_of_internal h0 h1 hn]
    cases p with
    | nil =>
      obtain ⟨w, q, hleaf⟩ := leadsTo_nil.1 hp
      rw [hleaf]
      rfl
    | cons bit' p =>
      obtain ⟨w, d0, d1, q, hin, -⟩ := leadsTo_cons.1 hp
      rw [hin]
      exact ih hp (List.cons_ne_nil _ _)

/-- In a single-leaf tree the walk emits the leaf's byte value for every zero bit (R179). -/
theorem walkBits_of_single {node : Idx → Option Node} {root : Idx} {w : Weight} {b : Byte} {q : Bool}
    (hn : node root = some (.leaf w b q)) (n : Nat) (cur : Idx) (rest : List Bool) :
    walkBits node 1 root (n + 1) cur (false :: rest) = (walkBits node 1 root n root rest).map (b :: ·) := by
  have hc : childOf node 1 root cur false = root := rfl
  rw [walkBits, hc, hn]

/-- The walk of R178 in the tree of a histogram, from a node. -/
def treeWalk (h : Vector Counter 256) (n : Nat) (cur : Idx) (bits : List Bool) : Except ErrKind (List Byte) :=
  walkBits (listNode (buildNodes h)) (BitVec.ofNat 9 (leafNodes h).length) (rootOf (buildNodes h)) n cur bits

/-- From the root the walk reads one code and emits its byte value. -/
theorem treeWalk_code {h : Vector Counter 256} {b : Byte} (hb : histAt h b ≠ 0) (n : Nat) (rest : List Bool) :
    treeWalk h (n + 1) (rootOf (buildNodes h)) (codeAt (codeTable h) b ++ rest) =
      (treeWalk h n (rootOf (buildNodes h)) rest).map (b :: ·) := by
  rcases leafSyms_cases hb with hs | h2
  · have hroot : listNode (buildNodes h) (rootOf (buildNodes h)) = some (.leaf ((histAt h b).setWidth 72) b true) := by
      rw [buildNodes_of_single hs]
      rfl
    rw [treeWalk, treeWalk, length_leafNodes, hs, codeAt_codeTable_of_single hs]
    exact walkBits_of_single hroot n _ rest
  · obtain ⟨h0, h1⟩ := nleaf_ne h2 (length_leafSyms_le h)
    have hp := leadsTo_codeAt h2 hb
    rw [treeWalk, treeWalk, length_leafNodes]
    exact walkBits_of_leadsTo h0 h1 hp (ne_nil_of_leadsTo_root h2 hp) rest

/-- The walk reads the codes of a byte sequence, one after the other, and emits the sequence. -/
theorem treeWalk_codes {h : Vector Counter 256} {bytes : List Byte} (hb : ∀ b ∈ bytes, histAt h b ≠ 0) :
    treeWalk h bytes.length (rootOf (buildNodes h)) (bytes.flatMap (codeAt (codeTable h))) = .ok bytes := by
  induction bytes with
  | nil => rfl
  | cons b bytes ih =>
    rw [List.flatMap_cons, List.length_cons, treeWalk_code (hb b (by simp)), ih fun c hc => hb c (by simp [hc])]
    rfl

end Sys2Proof.Machine
end

section
/-!
The two commands as functions (spec/40_commands.md R92, R93, R98 to R102): what the header of a container says, its size, and
the round trip.
-/

namespace Sys2Proof.Machine

/-! ## Counting (R110) -/

/-- A sum over a byte sequence, taken byte value by byte value. -/
theorem sum_count_mul (bytes : List Byte) (f : Byte → Nat) :
    (allBytes.map fun b => bytes.count b * f b).sum = (bytes.map f).sum := by
  rw [Finset.sum_list_map_count bytes, ← List.sum_toFinset _ nodup_allBytes]
  refine (Finset.sum_subset (fun b _ => List.mem_toFinset.2 (mem_allBytes b)) fun b _ hb => ?_).symm
  rw [List.count_eq_zero.2 (by simpa using hb), Nat.zero_mul]

section
variable {bytes : List Byte} (hlen : bytes.length < 2 ^ 64)
include hlen

/-- No counter of a sequence that `IN_LEN` can hold wraps (R6). -/
theorem toNat_histAt_histogram (b : Byte) : (histAt (histogram bytes) b).toNat = bytes.count b := by
  have := List.count_le_length (a := b) (l := bytes)
  rw [histAt_histogram, BitVec.toNat_ofNat, Nat.mod_eq_of_lt (by omega)]

theorem histAt_histogram_eq_zero {b : Byte} : histAt (histogram bytes) b = 0 ↔ b ∉ bytes := by
  rw [← BitVec.toNat_inj, toNat_histAt_histogram hlen]
  exact List.count_eq_zero

theorem histAt_histogram_ne_zero {b : Byte} (hb : b ∈ bytes) : histAt (histogram bytes) b ≠ 0 :=
  fun h => (histAt_histogram_eq_zero hlen).1 h hb

theorem countSum_histogram : countSum (histogram bytes) = bytes.length := by
  have hsum := sum_count_mul bytes fun _ => 1
  simp only [mul_one, List.map_const', List.sum_replicate, smul_eq_mul] at hsum
  rw [← hsum, countSum]
  exact congrArg List.sum (List.map_congr_left fun b _ => toNat_histAt_histogram hlen b)

end

/-! ## The container of a sequence (R92) -/

theorem compress_of_ne_nil {bytes : List Byte} (h : bytes ≠ []) :
    compress bytes = headerBytes (histogram bytes) ++
      (BitVec.ofNat 8 (validBitsOf (bodyBits bytes).length) :: pack (bodyBits bytes)) := by
  rw [compress, if_neg h, List.append_assoc]
  rfl

section
variable {bytes : List Byte} (h : bytes ≠ [])
include h

theorem length_compress : (compress bytes).length = 2049 + ((bodyBits bytes).length + 7) / 8 := by
  rw [compress_of_ne_nil h, List.length_append, List.length_cons, length_headerBytes, length_pack]
  omega

theorem getD_compress_header {a : Nat} (ha : a < 2048) :
    (compress bytes).getD a 0 = (headerBytes (histogram bytes)).getD a 0 := by
  rw [compress_of_ne_nil h, List.getD_append _ _ _ _ (by rwa [length_headerBytes])]

theorem getD_compress_validBits :
    (compress bytes).getD 2048 0 = BitVec.ofNat 8 (validBitsOf (bodyBits bytes).length) := by
  rw [compress_of_ne_nil h, List.getD_append_right _ _ _ _ (by rw [length_headerBytes]), length_headerBytes]
  rfl

theorem drop_compress : (compress bytes).drop 2049 = pack (bodyBits bytes) := by
  rw [compress_of_ne_nil h, List.drop_append, length_headerBytes, List.drop_of_length_le (by rw [length_headerBytes]; omega)]
  rfl

end

/-- Parsing reads the first 2048 bytes alone (R172). -/
theorem parseHeader_congr {f g : Nat → Byte} (hfg : ∀ a < 2048, f a = g a) : parseHeader f = parseHeader g := by
  refine hist_ext fun s => counter_ext fun b hb => ?_
  have hs : s.toNat < 256 := s.isLt
  rw [histAt_parseHeader, histAt_parseHeader, counterByte_counterAt _ _ hb, counterByte_counterAt _ _ hb,
    hfg _ (by omega)]

/-- The header holds the histogram (R75). -/
theorem parseHeader_compress {bytes : List Byte} (h : bytes ≠ []) :
    parseHeader (fun a => (compress bytes).getD a 0) = histogram bytes :=
  (parseHeader_congr fun _ ha => getD_compress_header h ha).trans (parseHeader_headerBytes _)

/-- Settles O50: the header parses to the histogram, whose counters count every byte once. -/
theorem histogramConservation : Obligations.HistogramConservation := by
  intro bytes h hlen
  rw [parseHeader_compress h, countSum_histogram hlen]

/-! ## Sizes (R102) -/

theorem length_bodyBits (bytes : List Byte) :
    (bodyBits bytes).length = (bytes.map fun b => (codeAt (codeTable (histogram bytes)) b).length).sum :=
  List.length_flatMap

section
variable {bytes : List Byte} (hlen : bytes.length < 2 ^ 64)
include hlen

/-- Every code has a bit (R145). -/
theorem length_le_length_bodyBits : bytes.length ≤ (bodyBits bytes).length := by
  have hsum := List.card_nsmul_le_sum (bytes.map fun b => (codeAt (codeTable (histogram bytes)) b).length) 1
    (by simpa using fun b hb => one_le_length_codeAt_codeTable (histAt_histogram_ne_zero hlen hb))
  simpa [length_bodyBits] using hsum

/-- No code has more than 255 bits (R145). -/
theorem length_bodyBits_le : (bodyBits bytes).length ≤ 255 * bytes.length := by
  have hsum := List.sum_le_card_nsmul (bytes.map fun b => (codeAt (codeTable (histogram bytes)) b).length) 255
    (by simpa using fun b hb => length_codeAt_codeTable_le (histAt_histogram_ne_zero hlen hb))
  simpa [length_bodyBits, Nat.mul_comm] using hsum

end

/-- Settles O51: the container is header, `VB` and packed body, and each code has 1 to 255 bits. -/
theorem containerSize : Obligations.ContainerSize := by
  intro bytes h hlen
  have hpos := List.length_pos_iff.2 h
  have hsize := length_compress h
  have hle := length_le_length_bodyBits hlen
  exact ⟨hsize, by omega, hle, length_bodyBits_le hlen, fun _ => by omega⟩

/-! ## Decompression (R93) -/

/-- The walkable bits of a container (R176, R177). -/
def containerBits (c : List Byte) : List Bool :=
  (List.range (walkableBits (c.drop Config.bodyOffset).length (c.getD Config.validBitsOffset 0).toNat)).map
    (bodyBitOf fun j => (c.drop Config.bodyOffset).getD j 0)

/-- The counters in the header of a container (R172). -/
def containerHist (c : List Byte) : Vector Counter 256 := parseHeader fun a => c.getD a 0

/-- A container that passes the header checks is walked, or empty where there is no tree (R95). -/
theorem decompress_of_valid {c : List Byte} (hlen : 2049 ≤ c.length) (hlo : 1 ≤ c.getD 2048 0) (hhi : c.getD 2048 0 ≤ 8) :
    decompress c = if buildNodes (containerHist c) = [] then .ok []
      else treeWalk (containerHist c) (countSum (containerHist c)) (rootOf (buildNodes (containerHist c)))
        (containerBits c) := by
  rw [decompress, if_neg (by omega), if_neg (by omega)]
  dsimp only
  rw [if_neg (not_or.2 ⟨BitVec.not_lt.2 hlo, BitVec.not_lt.2 hhi⟩)]
  rfl

/-- Of 1 to 2048 bytes no header can be read (R171). -/
theorem decompress_of_short {c : List Byte} (h0 : c.length ≠ 0) (h : c.length < 2049) :
    decompress c = .error .malformedContainer := (if_neg h0).trans (if_pos h)

/-- A valid-bits byte of 0 or above 8 is no container's (R173). -/
theorem decompress_of_invalid {c : List Byte} (hlen : 2049 ≤ c.length) (h : c.getD 2048 0 < 1 ∨ 8 < c.getD 2048 0) :
    decompress c = .error .malformedContainer := by
  rw [decompress, if_neg (by omega), if_neg (by omega)]
  exact if_pos h

theorem validBitsOf_bounds (n : Nat) : 1 ≤ validBitsOf n ∧ validBitsOf n ≤ 8 := by
  unfold validBitsOf
  split <;> omega

theorem toNat_validBitsOf (n : Nat) : (BitVec.ofNat 8 (validBitsOf n)).toNat = validBitsOf n := by
  have := validBitsOf_bounds n
  rw [BitVec.toNat_ofNat, Nat.mod_eq_of_lt (by omega)]

/-- `VB` counts the bits of the last byte, so the walkable bits are those of the body (R76, R176). -/
theorem walkableBits_validBitsOf {n : Nat} (hn : 0 < n) : walkableBits ((n + 7) / 8) (validBitsOf n) = n := by
  rw [walkableBits, if_neg (by omega), validBitsOf]
  split <;> omega

theorem containerBits_compress {bytes : List Byte} (h : bytes ≠ []) (hpos : 0 < (bodyBits bytes).length) :
    containerBits (compress bytes) = bodyBits bytes := by
  rw [containerBits, getD_compress_validBits h, drop_compress h, length_pack, toNat_validBitsOf,
    walkableBits_validBitsOf hpos]
  refine List.ext_getElem (by simp) fun t ht _ => ?_
  rw [List.getElem_map, List.getElem_range, bodyBitOf_pack, List.getElem?_eq_getElem, Option.getD_some]

/-- Decompression gives back what was compressed (R98): the header gives the histogram and so the tree, the body gives the
code string, and the walk reads the codes of the input one after the other. -/
theorem decompress_compress {bytes : List Byte} (hlen : bytes.length < 2 ^ 64) :
    decompress (compress bytes) = .ok bytes := by
  rcases eq_or_ne bytes [] with rfl | h
  · rfl
  have hmem : ∀ b ∈ bytes, histAt (histogram bytes) b ≠ 0 := fun b hb => histAt_histogram_ne_zero hlen hb
  obtain ⟨b, hb⟩ := List.exists_mem_of_ne_nil bytes h
  have hpos : 0 < (bodyBits bytes).length := (List.length_pos_iff.2 h).trans_le (length_le_length_bodyBits hlen)
  obtain ⟨hlo, hhi⟩ := validBitsOf_bounds (bodyBits bytes).length
  have hvb := toNat_validBitsOf (bodyBits bytes).length
  have hhist : containerHist (compress bytes) = histogram bytes := parseHeader_compress h
  rw [decompress_of_valid (by rw [length_compress h]; omega) (by rw [getD_compress_validBits h]; bv_omega)
    (by rw [getD_compress_validBits h]; bv_omega), hhist, if_neg (buildNodes_ne_nil (leafSyms_ne_nil (hmem b hb))),
    countSum_histogram hlen, containerBits_compress h hpos]
  exact treeWalk_codes hmem

/-- Settles O47: `decompress_compress`, for every length that `IN_LEN` can hold. -/
theorem compressDecompressRoundTrip : Obligations.CompressDecompressRoundTrip := fun _ hlen => decompress_compress hlen

/-! ## One byte value repeated (R100) -/

section
variable {b : Byte} {n : Nat}

/-- The one leaf of a sequence of one byte value. -/
theorem leafSyms_histogram_replicate (h1 : 1 ≤ n) (hn : n < 2 ^ 64) : leafSyms (histogram (List.replicate n b)) = [b] := by
  have hlen : (List.replicate n b).length < 2 ^ 64 := by rwa [List.length_replicate]
  have hmem : ∀ c, c ∈ leafSyms (histogram (List.replicate n b)) ↔ c = b := fun c => by
    rw [mem_leafSyms, ne_eq, histAt_histogram_eq_zero hlen, not_not, List.mem_replicate]
    exact and_iff_right (by omega)
  refine List.perm_singleton.1 ((List.perm_ext_iff_of_nodup (nodup_leafSyms _) (List.nodup_singleton b)).2 fun c => ?_)
  rw [hmem, List.mem_singleton]

theorem bodyBits_replicate (h1 : 1 ≤ n) (hn : n < 2 ^ 64) : bodyBits (List.replicate n b) = List.replicate n false := by
  have hcode := codeAt_codeTable_of_single (leafSyms_histogram_replicate (b := b) h1 hn)
  rw [bodyBits, List.flatMap_replicate, hcode]
  simp

end

theorem codeValue_replicate_false (k : Nat) : codeValue (List.replicate k false) = 0 := by
  induction k with
  | zero => rfl
  | succ k ih => rw [List.replicate_succ', codeValue_concat, ih, Nat.bit_false]

theorem byteOf_replicate_false (k : Nat) : byteOf (List.replicate k false) = 0 := by
  rw [byteOf, List.replicate_append_replicate, codeValue_replicate_false]
  rfl

theorem packedBytes_replicate_false (k m : Nat) : packedBytes k (List.replicate m false) = List.replicate k 0 := by
  induction k generalizing m with
  | zero => rfl
  | succ k ih =>
    rw [packedBytes, List.take_replicate, List.drop_replicate, ih, byteOf_replicate_false, List.replicate_succ]

/-- A string of zeros packs into zero bytes. -/
theorem pack_replicate_false (n : Nat) : pack (List.replicate n false) = List.replicate ((n + 7) / 8) 0 := by
  rw [pack, packedBytes_replicate_false, List.length_replicate]

/-- Settles O49: the one code is `"0"`, so the body is a string of zeros as long as the input. -/
theorem singleSymbolContainer : Obligations.SingleSymbolContainer := by
  intro b n h1 hn
  have hlen : (List.replicate n b).length < 2 ^ 64 := by rwa [List.length_replicate]
  have hs := leafSyms_histogram_replicate (b := b) h1 hn
  have hvb : validBitsOf n = (n - 1) % 8 + 1 := by
    unfold validBitsOf
    split <;> omega
  refine ⟨fun c hc => ?_, ?_, decompress_compress hlen⟩
  · have hcb : c = b := by simpa [hs] using mem_leafSyms.2 hc
    rw [hcb, codeAt_codeTable_of_single hs]
  · rw [compress_of_ne_nil (List.ne_nil_of_length_pos (by rw [List.length_replicate]; omega)), bodyBits_replicate h1 hn,
      pack_replicate_false, List.length_replicate, hvb, List.append_assoc]
    rfl

end Sys2Proof.Machine
end

section
/-!
The packer (spec/44_encoder.md R155 to R157) and the sums of counters (R152, R175): the registers follow the bit string that
has gone in.
-/

namespace Sys2Proof.Machine

/-! ## Bits and bytes (R77) -/

/-- One more bit goes in at the low end (R156). -/
theorem shiftIn_ofNat (x : Nat) (b : Bool) :
    (BitVec.ofNat 8 x <<< 1) ||| (BitVec.ofBool b).setWidth 8 = BitVec.ofNat 8 (Nat.bit b x) := by
  refine BitVec.eq_of_getLsbD_eq fun i hi => ?_
  rw [BitVec.getLsbD_or, BitVec.getLsbD_shiftLeft, BitVec.getLsbD_ofNat, BitVec.getLsbD_ofNat]
  cases i with
  | zero => simp
  | succ i => simp [hi, show i < 8 by omega, Nat.testBit_bit_succ]

theorem shiftLeft_ofNat (x k : Nat) : BitVec.ofNat 8 x <<< k = BitVec.ofNat 8 (x * 2 ^ k) := by
  refine BitVec.eq_of_toNat_eq ?_
  rw [BitVec.toNat_shiftLeft, BitVec.toNat_ofNat, BitVec.toNat_ofNat, Nat.shiftLeft_eq, Nat.mod_mul_mod]

theorem codeValue_append_zeros (c : Code) (k : Nat) : codeValue (c ++ List.replicate k false) = codeValue c * 2 ^ k := by
  induction k with
  | zero => simp
  | succ k ih =>
    rw [List.replicate_succ', ← List.append_assoc, codeValue_concat, ih, Nat.bit_false, Nat.pow_succ]
    ring

/-- At most eight bits, shifted to the high-order end, are the byte they make (R157). -/
theorem shiftLeft_codeValue (c : Code) : BitVec.ofNat 8 (codeValue c) <<< (8 - c.length) = byteOf c := by
  rw [shiftLeft_ofNat, byteOf, codeValue_append_zeros]

/-- The bytes a string fills do not change when it goes on. -/
theorem packedBytes_append {n : Nat} {bits : List Bool} (h : 8 * n ≤ bits.length) (more : List Bool) :
    packedBytes n (bits ++ more) = packedBytes n bits := by
  induction n generalizing bits with
  | zero => rfl
  | succ n ih =>
    rw [packedBytes, packedBytes, List.take_append_of_le_length (by omega), List.drop_append_of_le_length (by omega),
      ih (by rw [List.length_drop]; omega)]

theorem packedBytes_succ_concat (n : Nat) (bits : List Bool) :
    packedBytes (n + 1) bits = packedBytes n bits ++ [byteOf ((bits.drop (8 * n)).take 8)] := by
  induction n generalizing bits with
  | zero => rfl
  | succ n ih =>
    rw [packedBytes, ih, packedBytes, List.drop_drop, List.cons_append, Nat.mul_succ, Nat.add_comm 8]

/-! ## The packer's registers -/

/-- From `s` to `t` the bits have gone into the packer: the full bytes into `OUT`, the rest into `ACC` (R156). -/
structure Packed (s t : State) (bits : List Bool) : Prop where
  nb : t.nb.toNat = bits.length % 8
  acc : t.acc = BitVec.ofNat 8 (codeValue (bits.drop (8 * (bits.length / 8))))
  appended : Appended s t (packedBytes (bits.length / 8) bits)
  code : t.code = s.code
  outCap : t.outCap = s.outCap

/-- An empty packer. -/
theorem Packed.start (s : State) : Packed s { s with acc := 0, nb := 0, iptr := 0 } [] :=
  ⟨rfl, rfl, .of_eq rfl rfl, rfl, rfl⟩

theorem Packed.with_iptr {s t : State} {bits : List Bool} (h : Packed s t bits) (i : BitVec 64) :
    Packed s { t with iptr := i } bits :=
  ⟨h.nb, h.acc, ⟨h.appended.outLen, h.appended.written, h.appended.others⟩, h.code, h.outCap⟩

/-- A bit that does not fill the byte stays in `ACC`. -/
theorem packBit_of_ne {t : State} (b : Bool) (h : t.nb + 1 ≠ 8) :
    packBit b t = .next { t with acc := (t.acc <<< 1) ||| (BitVec.ofBool b).setWidth 8, nb := t.nb + 1 } := if_neg h

/-- The eighth bit sends the byte to `OUT`. -/
theorem packBit_of_eq {t : State} (b : Bool) (h : t.nb + 1 = 8) (hroom : t.outLen < t.outCap) :
    packBit b t = .next { t with
      acc := 0, nb := 0, outLen := t.outLen + 1
      outMem := t.outMem.write t.outLen.toNat ((t.acc <<< 1) ||| (BitVec.ofBool b).setWidth 8) } := by
  simp [packBit, show t.nb + 1#4 = 8#4 from h, emit, hroom]

theorem Appended.congr {s t u : State} {vs : List Byte} (h : Appended s t vs) (hl : u.outLen = t.outLen)
    (hm : u.outMem = t.outMem) : Appended s u vs :=
  ⟨hl ▸ h.outLen, hm ▸ h.written, hm ▸ h.others⟩

section
variable {s t : State} {bits : List Bool}

/-- `ACC` with one more bit. -/
theorem Packed.shiftIn (h : Packed s t bits) (b : Bool) : (t.acc <<< 1) ||| (BitVec.ofBool b).setWidth 8 =
    BitVec.ofNat 8 (codeValue ((bits ++ [b]).drop (8 * (bits.length / 8)))) := by
  rw [h.acc, shiftIn_ofNat, ← codeValue_concat, List.drop_append_of_le_length (by omega)]

theorem Packed.outLen (h : Packed s t bits) : t.outLen.toNat = s.outLen.toNat + bits.length / 8 := by
  rw [h.appended.outLen, length_packedBytes]

theorem Packed.packBit (h : Packed s t bits) (b : Bool)
    (hroom : s.outLen.toNat + (bits ++ [b]).length / 8 ≤ s.outCap.toNat) :
    ∃ u, packBit b t = .next u ∧ Packed s u (bits ++ [b]) := by
  have hnb := h.nb
  have hacc := h.shiftIn b
  have hout := h.outLen
  have hlen : (bits ++ [b]).length = bits.length + 1 := List.length_append
  by_cases hfull : t.nb + 1 = 8
  · have hmod : bits.length % 8 = 7 := by bv_omega
    have hdiv : (bits ++ [b]).length / 8 = bits.length / 8 + 1 := by omega
    have hcap : t.outLen < t.outCap := by
      show t.outLen.toNat < t.outCap.toNat
      rw [h.outCap]
      omega
    have hbyte : byteOf (((bits ++ [b]).drop (8 * (bits.length / 8))).take 8) =
        (t.acc <<< 1) ||| (BitVec.ofBool b).setWidth 8 := by
      have h8 : ((bits ++ [b]).drop (8 * (bits.length / 8))).length = 8 := by rw [List.length_drop]; omega
      rw [hacc, List.take_of_length_le h8.le, byteOf, h8]
      simp
    refine ⟨_, packBit_of_eq b hfull hcap, ⟨?_, ?_, ?_, h.code, h.outCap⟩⟩
    · show 0 = _
      omega
    · rw [List.drop_of_length_le (by omega)]
      rfl
    · rw [hdiv, packedBytes_succ_concat, packedBytes_append (by omega), hbyte]
      exact (h.appended.trans (emit_appended (emit_of_lt hcap))).congr rfl rfl
  · have hdiv : (bits ++ [b]).length / 8 = bits.length / 8 := by bv_omega
    refine ⟨_, packBit_of_ne b hfull, ⟨?_, ?_, ?_, h.code, h.outCap⟩⟩
    · show (t.nb + 1).toNat = _
      bv_omega
    · rw [hdiv, hacc]
    · rw [hdiv, packedBytes_append (by omega)]
      exact h.appended.congr rfl rfl

theorem Packed.packBits (h : Packed s t bits) {cs : List Bool}
    (hroom : s.outLen.toNat + (bits ++ cs).length / 8 ≤ s.outCap.toNat) :
    ∃ u, packBits cs t = .next u ∧ Packed s u (bits ++ cs) := by
  induction cs generalizing t bits with
  | nil => exact ⟨t, rfl, by rwa [List.append_nil]⟩
  | cons c cs ih =>
    have happ : bits ++ c :: cs = (bits ++ [c]) ++ cs := List.append_cons ..
    rw [happ] at hroom ⊢
    obtain ⟨v, hv, hp⟩ := h.packBit c (by rw [List.length_append] at hroom; omega)
    obtain ⟨u, hu, hp⟩ := ih hp hroom
    exact ⟨u, by rw [Machine.packBits, hv, andThen_next, hu], hp⟩

theorem Packed.packBytes (h : Packed s t bits) {bs : List Byte}
    (hroom : s.outLen.toNat + (bits ++ bs.flatMap (codeAt s.code)).length / 8 ≤ s.outCap.toNat) :
    ∃ u, packBytes bs t = .next u ∧ Packed s u (bits ++ bs.flatMap (codeAt s.code)) := by
  induction bs generalizing t bits with
  | nil => exact ⟨t, rfl, by rwa [List.flatMap_nil, List.append_nil]⟩
  | cons b bs ih =>
    rw [List.flatMap_cons, ← List.append_assoc] at hroom ⊢
    obtain ⟨v, hv, hp⟩ := h.packBits (cs := codeAt s.code b) (by rw [List.length_append] at hroom; omega)
    obtain ⟨u, hu, hp⟩ := ih (hp.with_iptr (v.iptr + 1)) hroom
    exact ⟨u, by rw [Machine.packBytes, h.code, hv, andThen_next, hu], hp⟩

/-- The last byte goes out where a bit of it has come in, and the body is complete (R157). -/
theorem Packed.flush (h : Packed s t bits) (hroom : s.outLen.toNat + (pack bits).length ≤ s.outCap.toNat) :
    ∃ u, flush t = .next u ∧ Appended s u (pack bits) := by
  have hnb := h.nb
  have hout := h.outLen
  rw [length_pack] at hroom
  unfold Machine.flush
  by_cases h0 : t.nb = 0
  · have hmod : bits.length % 8 = 0 := by bv_omega
    rw [if_pos h0, pack, show (bits.length + 7) / 8 = bits.length / 8 by omega]
    exact ⟨t, rfl, h.appended⟩
  · have hmod : bits.length % 8 ≠ 0 := by bv_omega
    have hcap : t.outLen < t.outCap := by
      show t.outLen.toNat < t.outCap.toNat
      rw [h.outCap]
      omega
    have hrest : (bits.drop (8 * (bits.length / 8))).length = t.nb.toNat := by rw [List.length_drop]; omega
    have hbyte : t.acc <<< (8 - t.nb.toNat) = byteOf ((bits.drop (8 * (bits.length / 8))).take 8) := by
      rw [List.take_of_length_le (by omega), h.acc, ← hrest, shiftLeft_codeValue]
    rw [if_neg h0, pack, show (bits.length + 7) / 8 = bits.length / 8 + 1 by omega, packedBytes_succ_concat, ← hbyte]
    exact ⟨_, emit_of_lt hcap, h.appended.trans (emit_appended (emit_of_lt hcap))⟩

end

/-- `C_PACK` appends the packed codes of the input and ends the operation well (R156). -/
theorem execCPack_of_room {s : State} (hfit : s.inLen ≤ s.inCap)
    (hroom : s.outLen.toNat + (pack (s.inBytes.flatMap (codeAt s.code))).length ≤ s.outCap.toNat) :
    ∃ u, execCPack s = .next u.finish ∧ SameInput s u ∧ Appended s u (pack (s.inBytes.flatMap (codeAt s.code))) := by
  have hdiv := hroom
  rw [length_pack] at hdiv
  obtain ⟨u, hu, hp⟩ := (Packed.start s).packBytes (bs := s.inBytes) (by rw [List.nil_append]; omega)
  rw [List.nil_append] at hp
  obtain ⟨v, hv, happ⟩ := hp.flush hroom
  refine ⟨v, ?_, ?_, happ⟩
  · rw [execCPack, if_neg (BitVec.not_lt.2 hfit), hu, andThen_next, hv, andThen_next]
  · have hin := (Worked.of_packBytes hu).sameInput.trans (Worked.of_flush hv).sameInput
    exact ⟨hin.inLen, hin.inMem, hin.inCap, hin.outCap, hin.host, hin.era⟩

/-! ## Sums of counters (R152, R175) -/

/-- A sum of weights, as a number. -/
theorem toNat_foldl_add {α : Type} (l : List α) (f : α → Weight) (n : Weight) :
    (l.foldl (fun n a => n + f a) n).toNat = (n.toNat + (l.map fun a => (f a).toNat).sum) % 2 ^ 72 := by
  induction l generalizing n with
  | nil => exact (Nat.mod_eq_of_lt n.isLt).symm
  | cons a l ih =>
    rw [List.foldl_cons, ih, BitVec.toNat_add, List.map_cons, List.sum_cons, Nat.mod_add_mod, Nat.add_assoc]

theorem toNat_foldl_add_zero {α : Type} (l : List α) (f : α → Weight) :
    (l.foldl (fun n a => n + f a) 0).toNat = (l.map fun a => (f a).toNat).sum % 2 ^ 72 :=
  (toNat_foldl_add l f 0).trans (congrArg (· % 2 ^ 72) (Nat.zero_add _))

/-- `TOTAL` is the exact sum of the counters (R175). -/
theorem toNat_totalCount (h : Vector Counter 256) : (totalCount h).toNat = countSum h := by
  have hterm : (allBytes.map fun b => ((histAt h b).setWidth 72).toNat) = allBytes.map fun b => (histAt h b).toNat :=
    List.map_congr_left fun b _ => BitVec.toNat_setWidth_of_le (by decide)
  rw [totalCount, toNat_foldl_add_zero, hterm]
  exact Nat.mod_eq_of_lt (countSum_lt h)

/-- The bits that a byte value's occurrences take in the body (R152). -/
def bitsOf (h : Vector Counter 256) (t : Vector Code 256) (b : Byte) : Weight :=
  if histAt h b = 0 then 0 else (histAt h b).setWidth 72 * (codeLen (codeAt t b)).setWidth 72

theorem totalBits_eq_foldl (h : Vector Counter 256) (t : Vector Code 256) :
    totalBits h t = allBytes.foldl (fun n b => n + bitsOf h t b) 0 := by
  unfold totalBits bitsOf
  congr 1
  funext n b
  split
  · exact (BitVec.add_zero n).symm
  · rfl

section
variable {bytes : List Byte} (hlen : bytes.length < 2 ^ 64) {t : Vector Code 256}
  (ht : ∀ b ∈ bytes, (codeAt t b).length ≤ 255)
include hlen ht

theorem toNat_bitsOf (b : Byte) : (bitsOf (histogram bytes) t b).toNat = bytes.count b * (codeAt t b).length := by
  unfold bitsOf
  by_cases hb : b ∈ bytes
  · have hcode := ht b hb
    have hcount := List.count_le_length (a := b) (l := bytes)
    have hmul := Nat.mul_le_mul hcount hcode
    rw [if_neg (histAt_histogram_ne_zero hlen hb), BitVec.toNat_mul, BitVec.toNat_setWidth_of_le (by decide),
      BitVec.toNat_setWidth_of_le (by decide), toNat_histAt_histogram hlen, codeLen, BitVec.toNat_ofNat,
      Nat.mod_eq_of_lt (a := (codeAt t b).length) (by omega), Nat.mod_eq_of_lt (by omega)]
  · rw [if_pos ((histAt_histogram_eq_zero hlen).2 hb), List.count_eq_zero.2 hb, Nat.zero_mul]
    rfl

/-- `TOTBITS` is the length of the code string of the input (R152). -/
theorem toNat_totalBits : (totalBits (histogram bytes) t).toNat = (bytes.flatMap (codeAt t)).length := by
  have hsum : (bytes.map fun b => (codeAt t b).length).sum ≤ bytes.length * 255 := by
    simpa using List.sum_le_card_nsmul (bytes.map fun b => (codeAt t b).length) 255 (by simpa using ht)
  rw [totalBits_eq_foldl, toNat_foldl_add_zero, List.map_congr_left fun b _ => toNat_bitsOf hlen ht b, sum_count_mul,
    List.length_flatMap, Nat.mod_eq_of_lt (by omega)]

end

end Sys2Proof.Machine
end

section
/-!
The tree in `NODE` (spec/42_tree_builder.md R120): traversal and walk meet only the arena's nodes, so they are the same there
as in the list the arena was built as. And the register walk (spec/45_decoder.md R178) is the walk over a list of bits.
-/

namespace Sys2Proof.Machine

/-! ## The arena in `NODE` -/

/-- The index is that of a node of the arena, or `NONE`. -/
def InArena (ns : List Node) (i : Idx) : Prop := i = Idx.none ∨ i.toNat < ns.length

section
variable {h : Vector Counter 256} {ns : List Node} (ha : Arena h ns)
include ha

theorem Arena.nodeAt_eq_listNode {i : Idx} (hi : InArena ns i) (v : Vector Node 511) :
    nodeAt (storeNodes ns v) i = listNode ns i := by
  rcases hi with rfl | hlt
  · have hlen : ns.length ≤ Idx.none.toNat := ha.length_le
    rw [listNode, List.getElem?_eq_none hlen]
    exact Vector.getElem?_eq_none le_rfl
  · exact nodeAt_storeNodes ha.length_le hlt v

theorem Arena.inArena_children {i : Idx} {w : Weight} {c0 c1 : Idx} {q : Bool}
    (hi : listNode ns i = some (.internal w c0 c1 q)) : InArena ns c0 ∧ InArena ns c1 := by
  obtain ⟨m, n, hm, hn, -⟩ := ha.children_of_internal hi
  exact ⟨.inr (List.getElem?_eq_some_iff.1 hm).1, .inr (List.getElem?_eq_some_iff.1 hn).1⟩

theorem Arena.inArena_root : InArena ns (rootOf ns) := by
  obtain ⟨ms, x, rfl, -⟩ := ha.last
  refine .inr ?_
  rw [rootOf, if_neg (by simp), ha.toNat_index (by simp)]
  simp

/-- The traversal of `GEN` in `NODE` is that of the arena. -/
theorem Arena.visit_nodeAt (v : Vector Node 511) {d : Nat} {i : Idx} (hi : InArena ns i) (path : List Bool) :
    visit (nodeAt (storeNodes ns v)) d i path = visit (listNode ns) d i path := by
  induction d generalizing i path with
  | zero => rw [visit, visit, ha.nodeAt_eq_listNode hi]
  | succ d ih =>
    rw [visit, visit, ha.nodeAt_eq_listNode hi]
    cases hn : listNode ns i with
    | none => rfl
    | some n => cases n with
      | leaf w b q => rfl
      | internal w c0 c1 q =>
        obtain ⟨h0, h1⟩ := ha.inArena_children hn
        exact congrArg₂ (· ++ ·) (ih h0 _) (ih h1 _)

theorem Arena.codesOf_nodeAt (v : Vector Node 511) (nleaf : Idx) :
    codesOf (nodeAt (storeNodes ns v)) nleaf (rootOf ns) = codesOf (listNode ns) nleaf (rootOf ns) := by
  have h0 : InArena ns 0 := by
    obtain ⟨ms, x, rfl, -⟩ := ha.last
    exact .inr (by simp)
  rw [codesOf, codesOf, ha.nodeAt_eq_listNode h0, ha.visit_nodeAt v ha.inArena_root]

theorem Arena.childOf_nodeAt (v : Vector Node 511) (nleaf : Idx) {cur : Idx} (hc : InArena ns cur) (bit : Bool) :
    childOf (nodeAt (storeNodes ns v)) nleaf (rootOf ns) cur bit = childOf (listNode ns) nleaf (rootOf ns) cur bit := by
  rw [childOf, childOf, ha.nodeAt_eq_listNode hc]

theorem Arena.inArena_childOf (nleaf cur : Idx) (bit : Bool) :
    InArena ns (childOf (listNode ns) nleaf (rootOf ns) cur bit) := by
  unfold childOf
  split
  · exact .inl rfl
  · split
    · cases bit
      · exact ha.inArena_root
      · exact .inl rfl
    · split
      · exact .inl rfl
      · rename_i n hn
        cases n with
        | leaf w b q => cases bit <;> exact .inl rfl
        | internal w c0 c1 q =>
          obtain ⟨h0, h1⟩ := ha.inArena_children hn
          cases bit
          · exact h0
          · exact h1

/-- The walk over a list of bits in `NODE` is that in the arena. -/
theorem Arena.walkBits_nodeAt (v : Vector Node 511) (nleaf : Idx) {n : Nat} {cur : Idx} (hc : InArena ns cur)
    (bits : List Bool) :
    walkBits (nodeAt (storeNodes ns v)) nleaf (rootOf ns) n cur bits =
      walkBits (listNode ns) nleaf (rootOf ns) n cur bits := by
  induction bits generalizing n cur with
  | nil => cases n <;> rfl
  | cons bit bits ih =>
    cases n with
    | zero => rfl
    | succ n =>
      have hchild := ha.inArena_childOf nleaf cur bit
      rw [walkBits, walkBits, ha.childOf_nodeAt v nleaf hc, ha.nodeAt_eq_listNode hchild]
      cases listNode ns (childOf (listNode ns) nleaf (rootOf ns) cur bit) with
      | none => rfl
      | some m => cases m with
        | leaf w b q => exact congrArg (Except.map (b :: ·)) (ih ha.inArena_root)
        | internal w c0 c1 q => exact ih hchild

end

/-! ## How an operation ends -/

/-- From `s` the operation has come to the end that the result asks for: a successful one with the bytes appended to `OUT`
(R96), or the error's (R204). -/
def EndsAs (s : State) (o : Outcome) : Except ErrKind (List Byte) → Prop
  | .ok out => ∃ u, o = .next u.finish ∧ SameInput s u ∧ Appended s u out
  | .error e => e ≠ .none ∧ ∃ u, o = .next (u.raise e) ∧ SameInput s u

/-- What has been appended before stands before the rest. -/
theorem EndsAs.prepend {s t : State} {o : Outcome} {r : Except ErrKind (List Byte)} {vs : List Byte}
    (hin : SameInput s t) (happ : Appended s t vs) (h : EndsAs t o r) : EndsAs s o (r.map (vs ++ ·)) := by
  cases r with
  | ok out =>
    obtain ⟨u, hu, hu', hout⟩ := h
    exact ⟨u, hu, hin.trans hu', happ.trans hout⟩
  | error e =>
    obtain ⟨he, u, hu, hu'⟩ := h
    exact ⟨he, u, hu, hin.trans hu'⟩

/-- A change of tables and working registers alone comes before. -/
theorem EndsAs.of_registers {s t : State} {o : Outcome} {r : Except ErrKind (List Byte)} (hin : SameInput s t)
    (hl : t.outLen = s.outLen) (hm : t.outMem = s.outMem) (h : EndsAs t o r) : EndsAs s o r := by
  have hpre := h.prepend hin (.of_eq hl hm)
  cases r <;> exact hpre

/-! ## The register walk (R178) -/

/-- Once the total is reached the walk ends well, whatever bits are left (R180). -/
theorem walk_of_total_reached {s : State} (h : ¬ s.emitted < s.total) (n : Nat) : walk n s = .next s.finish := by
  cases n <;> rw [walk, if_neg h]

/-- The walk's registers after a bit that leads to an internal node. -/
def State.walkedTo (s : State) (i : Idx) : State := { s with tpos := s.tpos + 1, cur := i }

/-- The walk's registers and the output after a bit that leads to a leaf. -/
def State.walkedToLeaf (s : State) (b : Byte) : State :=
  { s with
    tpos := s.tpos + 1, emitted := s.emitted + 1, cur := s.root, outLen := s.outLen + 1
    outMem := s.outMem.write s.outLen.toNat b }

theorem startWalk_sameInput (s : State) : SameInput s s.startWalk := ⟨rfl, rfl, rfl, rfl, rfl, rfl⟩

theorem walkedTo_sameInput (s : State) (i : Idx) : SameInput s (s.walkedTo i) := ⟨rfl, rfl, rfl, rfl, rfl, rfl⟩

theorem walkedToLeaf_sameInput (s : State) (b : Byte) : SameInput s (s.walkedToLeaf b) := ⟨rfl, rfl, rfl, rfl, rfl, rfl⟩

theorem walkedToLeaf_appended {s : State} (hcap : s.outLen < s.outCap) (b : Byte) : Appended s (s.walkedToLeaf b) [b] :=
  (emit_appended (emit_of_lt hcap)).congr rfl rfl

section
variable {s : State} {bit : Bool} (hlt : s.emitted < s.total) (hbit : s.bodyBit s.tpos.toNat = some bit) (n : Nat)
include hlt hbit

theorem walk_of_missing (hn : nodeAt s.node (childOf (nodeAt s.node) s.nleaf s.root s.cur bit) = none) :
    walk (n + 1) s = .next (State.raise { s with tpos := s.tpos + 1 } .corruptStream) := by
  rw [walk, if_pos hlt, hbit]
  dsimp only
  rw [hn]

theorem walk_of_internal {w : Weight} {c0 c1 : Idx} {q : Bool}
    (hn : nodeAt s.node (childOf (nodeAt s.node) s.nleaf s.root s.cur bit) = some (.internal w c0 c1 q)) :
    walk (n + 1) s = walk n (s.walkedTo (childOf (nodeAt s.node) s.nleaf s.root s.cur bit)) := by
  rw [walk, if_pos hlt, hbit]
  dsimp only
  rw [hn]
  rfl

theorem walk_of_leaf {w : Weight} {b : Byte} {q : Bool}
    (hn : nodeAt s.node (childOf (nodeAt s.node) s.nleaf s.root s.cur bit) = some (.leaf w b q))
    (hcap : s.outLen < s.outCap) : walk (n + 1) s = walk n (s.walkedToLeaf b) := by
  have hemit : emit b { s with tpos := s.tpos + 1 } = .next _ := emit_of_lt hcap
  rw [walk, if_pos hlt, hbit]
  dsimp only
  rw [hn]
  dsimp only
  rw [hemit]
  rfl

end

/-- The walk that has `m` more symbols to emit ends as the walk over the bits that are left does. -/
theorem walk_endsAs {s : State} {bits : List Bool} {m : Nat}
    (hbits : ∀ j < bits.length, s.bodyBit (s.tpos.toNat + j) = bits[j]?) (hpos : s.tpos.toNat + bits.length < 2 ^ 72)
    (hm : s.total.toNat = s.emitted.toNat + m) (hroom : s.outLen.toNat + bits.length ≤ s.outCap.toNat) :
    EndsAs s (walk bits.length s) (walkBits (nodeAt s.node) s.nleaf s.root m s.cur bits) := by
  induction bits generalizing s m with
  | nil =>
    cases m with
    | zero => exact ⟨s, walk_of_total_reached (by bv_omega) 0, .refl s, .nil s⟩
    | succ m => exact ⟨by simp, s, if_pos (by bv_omega), .refl s⟩
  | cons bit bits ih =>
    cases m with
    | zero => exact ⟨s, walk_of_total_reached (by bv_omega) _, .refl s, .nil s⟩
    | succ m =>
      rw [List.length_cons] at hpos hroom
      have hlt : s.emitted < s.total := by bv_omega
      have hbit : s.bodyBit s.tpos.toNat = some bit := hbits 0 (Nat.zero_lt_succ _)
      have htpos : (s.tpos + 1).toNat = s.tpos.toNat + 1 := by bv_omega
      have hpos' : (s.tpos + 1).toNat + bits.length < 2 ^ 72 := by omega
      have hrest : ∀ j < bits.length, s.bodyBit ((s.tpos + 1).toNat + j) = bits[j]? := fun j hj => by
        rw [htpos, Nat.add_assoc, Nat.add_comm 1]
        exact hbits (j + 1) (Nat.succ_lt_succ hj)
      rw [walkBits]
      cases hn : nodeAt s.node (childOf (nodeAt s.node) s.nleaf s.root s.cur bit) with
      | none => exact ⟨by simp, _, walk_of_missing hlt hbit _ hn, ⟨rfl, rfl, rfl, rfl, rfl, rfl⟩⟩
      | some x => cases x with
        | leaf w b q =>
          have hcap : s.outLen < s.outCap := by bv_omega
          have hout : (s.outLen + 1).toNat + bits.length ≤ s.outCap.toNat := by rw [outLen_succ_toNat hcap]; omega
          have hleft : s.total.toNat = (s.emitted + 1).toNat + m := by bv_omega
          rw [List.length_cons, walk_of_leaf hlt hbit _ hn hcap]
          exact (ih (s := s.walkedToLeaf b) hrest hpos' hleft hout).prepend (walkedToLeaf_sameInput s b)
            (walkedToLeaf_appended hcap b)
        | internal w c0 c1 q =>
          rw [List.length_cons, walk_of_internal hlt hbit _ hn]
          have hout : s.outLen.toNat + bits.length ≤ s.outCap.toNat := by omega
          exact (ih (s := s.walkedTo _) hrest hpos' hm hout).of_registers (walkedTo_sameInput s _) rfl rfl

/-- The bits of the body that lie in `IN` (R177). -/
theorem bodyBit_eq_some {s : State} {t : Nat} (h : 2049 + t / 8 < s.inCap.toNat) :
    s.bodyBit t = some (bodyBitOf (fun j => s.inByte (2049 + j)) t) := by
  rw [State.bodyBit, memReadIn_of_lt h]
  rfl

/-- `D_WALK` ends as the walk over the walkable bits does. -/
theorem execDWalk_endsAs {s : State} (hbody : 2049 + s.bodyLen.toNat ≤ s.inCap.toNat) (hvb : s.vb.toNat ≤ 8)
    (hroom : s.outLen.toNat + walkableBits s.bodyLen.toNat s.vb.toNat ≤ s.outCap.toNat) :
    EndsAs s (execDWalk s) (walkBits (nodeAt s.node) s.nleaf s.root s.total.toNat s.root s.walkable) := by
  have hle := walkableBits_le (n := s.bodyLen.toNat) hvb
  have hlen : s.walkable.length = walkableBits s.bodyLen.toNat s.vb.toNat := by simp [State.walkable]
  have havail : s.startWalk.avail.toNat = s.walkable.length := by
    rw [State.startWalk_avail, BitVec.toNat_ofNat, hlen, Nat.mod_eq_of_lt (by omega)]
  have hbits : ∀ j < s.walkable.length, s.startWalk.bodyBit (s.startWalk.tpos.toNat + j) = s.walkable[j]? := by
    intro j hj
    have hj' : j < walkableBits s.bodyLen.toNat s.vb.toNat := hlen ▸ hj
    rw [show s.startWalk.tpos.toNat = 0 from rfl, Nat.zero_add,
      bodyBit_eq_some (s := s.startWalk) (show 2049 + j / 8 < s.inCap.toNat by omega), State.walkable, List.getElem?_map,
      List.getElem?_range hj']
    rfl
  have hpos : s.startWalk.tpos.toNat + s.walkable.length < 2 ^ 72 := by
    show 0 + s.walkable.length < _
    omega
  have hend := walk_endsAs (s := s.startWalk) (m := s.total.toNat) hbits hpos (Nat.zero_add _).symm (by rw [hlen]; exact hroom)
  rw [execDWalk, havail]
  exact hend.of_registers (startWalk_sameInput s) rfl rfl

end Sys2Proof.Machine
end

section
/-!
Whole operations (spec/40_commands.md R92 to R97, R99, R104): COMPRESS and DECOMPRESS, run stage by stage from the launch, end
as the two functions say.
-/

namespace Sys2Proof.Machine

/-! ## Running a stage -/

section
variable {s t : State} {i : Instr} (hh : s.host = []) (hi : decodePhase s.phase.code = .ok i)
include hh hi

theorem steps_succ_of_exec (h : exec i s = .next t) (k : Nat) : steps (k + 1) s = steps k t :=
  steps_succ_of_step ((step_of_quiet hh hi).trans h) k

theorem steps_one_of_quiet : steps 1 s = exec i s := by
  rw [steps, step_of_quiet hh hi]
  cases exec i s <;> rfl

/-- A stage operation that touches tables and working registers alone, and the stages after it. -/
theorem exists_endsAs_succ {r : Except ErrKind (List Byte)} {n : Nat} (h : exec i s = .next t)
    (hl : t.outLen = s.outLen) (hm : t.outMem = s.outMem) (hrest : ∃ k ≤ n, EndsAs t (steps k t) r) :
    ∃ k ≤ n + 1, EndsAs s (steps k s) r := by
  obtain ⟨k, hk, hend⟩ := hrest
  refine ⟨k + 1, by omega, ?_⟩
  rw [steps_succ_of_exec hh hi h]
  exact hend.of_registers (exec_sameInput h) hl hm

/-- A stage operation that appends to `OUT`, and the stages after it. -/
theorem endsAs_succ_of_appended {r : Except ErrKind (List Byte)} {vs : List Byte} {k : Nat} (h : exec i s = .next t)
    (happ : Appended s t vs) (hrest : EndsAs t (steps k t) r) : EndsAs s (steps (k + 1) s) (r.map (vs ++ ·)) := by
  rw [steps_succ_of_exec hh hi h]
  exact hrest.prepend (exec_sameInput h) happ

/-- A stage operation that ends the operation well with nothing appended. -/
theorem endsAs_of_finish {u : State} (h : exec i s = .next u.finish) (hin : SameInput s u) (hl : u.outLen = s.outLen)
    (hm : u.outMem = s.outMem) : EndsAs s (steps 1 s) (.ok []) := by
  rw [steps_one_of_quiet hh hi]
  exact ⟨u, h, hin, .of_eq hl hm⟩

/-- A stage operation that raises an error. -/
theorem endsAs_of_raise {u : State} {e : ErrKind} (h : exec i s = .next (u.raise e)) (hin : SameInput s u) (he : e ≠ .none) :
    EndsAs s (steps 1 s) (.error e) := by
  rw [steps_one_of_quiet hh hi]
  exact ⟨he, u, h, hin⟩

end

/-! ## The stages of a COMPRESS (R94) -/

/-- The state after `HIST` of a non-empty input (R112). -/
def State.afterHist (s : State) : State := State.goto { s with hist := histogram s.inBytes, iptr := s.inLen } .build

/-- The state after `GEN` (R140). -/
def State.afterGen (s : State) : State :=
  State.goto { s with code := storeCodes (codesOf (nodeAt s.node) s.nleaf s.root) s.code } .cHeader

theorem exec_hist_of_ne_zero {s : State} (hfit : s.inLen ≤ s.inCap) (h0 : s.inLen ≠ 0) :
    exec .hist s = .next s.afterHist :=
  (if_neg (BitVec.not_lt.2 hfit)).trans (if_neg h0)

theorem exec_hist_of_zero {s : State} (hfit : s.inLen ≤ s.inCap) (h0 : s.inLen = 0) :
    exec .hist s = .next (State.finish { s with hist := histogram s.inBytes, iptr := s.inLen }) :=
  (if_neg (BitVec.not_lt.2 hfit)).trans (if_pos h0)

theorem exec_build_of_compress {s : State} (ho : s.op = .compress) : exec .build s = .next (s.build.goto .gen) := by
  simp only [exec, execBuild, ho]

theorem exec_cHeader_of_room {s : State} (hroom : s.outLen.toNat + 2048 ≤ s.outCap.toNat) :
    ∃ t, exec .cHeader s = .next t ∧ t.phase = .cValid ∧ Appended s t (headerBytes s.hist) ∧ t.hist = s.hist ∧
      t.code = s.code := by
  obtain ⟨u, hu⟩ := emitAll_of_le (vs := headerBytes s.hist) (by rwa [length_headerBytes])
  have hexec : exec .cHeader s = .next (u.goto .cValid) := andThen_eq_next.2 ⟨u, hu, rfl⟩
  have happ := emitAll_appended hu
  obtain ⟨-, rfl⟩ := emitAll_eq_next.1 hu
  exact ⟨_, hexec, rfl, happ.congr rfl rfl, rfl, rfl⟩

theorem exec_cValid_of_room {s : State} (hroom : s.outLen < s.outCap) :
    ∃ t, exec .cValid s = .next t ∧ t.phase = .cPack ∧
      Appended s t [BitVec.ofNat 8 (validBitsOf (totalBits s.hist s.code).toNat)] ∧ t.code = s.code := by
  obtain ⟨u, hu⟩ : ∃ u, emit (BitVec.ofNat 8 (validBitsOf (totalBits s.hist s.code).toNat))
      { s with
        totBits := totalBits s.hist s.code
        vb := BitVec.ofNat 8 (validBitsOf (totalBits s.hist s.code).toNat) } = .next u := ⟨_, emit_of_lt hroom⟩
  have hexec : exec .cValid s = .next (u.goto .cPack) := andThen_eq_next.2 ⟨u, hu, rfl⟩
  have happ := emit_appended hu
  obtain ⟨-, rfl⟩ := emit_eq_next.1 hu
  exact ⟨_, hexec, rfl, ⟨happ.outLen, happ.written, happ.others⟩, rfl⟩

/-- The codes of the input's bytes, which decide the body, are those of `codeTable`. -/
def State.HasCodes (s : State) : Prop :=
  ∀ b ∈ s.inBytes, codeAt s.code b = codeAt (codeTable (histogram s.inBytes)) b

theorem length_inBytes_lt (s : State) : s.inBytes.length < 2 ^ 64 := by
  rw [length_inBytes]
  exact s.inLen.isLt

/-- `GEN` gives the input's bytes their codes, whatever `CODE` held. -/
theorem afterGen_hasCodes {s : State} (hhist : s.hist = histogram s.inBytes) (hbuilt : s.Built) : s.afterGen.HasCodes := by
  intro b hb
  show codeAt (storeCodes (codesOf (nodeAt s.node) s.nleaf s.root) s.code) b = codeAt (codeTable (histogram s.inBytes)) b
  have hb0 := histAt_histogram_ne_zero (length_inBytes_lt s) hb
  have hcodes : codesOf (nodeAt s.node) s.nleaf s.root = treeCodes (histogram s.inBytes) := by
    obtain ⟨hnode, hnleaf, -, hroot⟩ := hbuilt
    rw [hnode, hnleaf, hroot, hhist]
    exact (buildNodes_arena (leafSyms_ne_nil hb0)).1.codesOf_nodeAt _ _
  rw [hcodes]
  exact codeAt_storeCodes_of_mem _ _ (exists_mem_treeCodes hb0)

section
variable {s : State} (hcodes : s.HasCodes)
include hcodes

theorem State.HasCodes.congr {t : State} (hin : SameInput s t) (hcode : t.code = s.code) : t.HasCodes := by
  rw [State.HasCodes, hin.inBytes, hcode]
  exact hcodes

theorem State.HasCodes.flatMap_codeAt : s.inBytes.flatMap (codeAt s.code) = bodyBits s.inBytes := List.flatMap_congr hcodes

theorem State.HasCodes.toNat_totalBits :
    (totalBits (histogram s.inBytes) s.code).toNat = (bodyBits s.inBytes).length := by
  have hlen := length_inBytes_lt s
  rw [Machine.toNat_totalBits hlen, hcodes.flatMap_codeAt]
  intro b hb
  rw [hcodes b hb]
  exact length_codeAt_codeTable_le (histAt_histogram_ne_zero hlen hb)

variable (hh : s.host = []) (hfit : s.inLen ≤ s.inCap)
include hh hfit

theorem cPack_endsAs (hp : s.phase = .cPack)
    (hroom : s.outLen.toNat + (pack (bodyBits s.inBytes)).length ≤ s.outCap.toNat) :
    EndsAs s (steps 1 s) (.ok (pack (bodyBits s.inBytes))) := by
  rw [steps_one_of_quiet (i := .cPack) hh (by rw [hp]; rfl)]
  rw [← hcodes.flatMap_codeAt] at hroom ⊢
  exact execCPack_of_room hfit hroom

theorem cValid_endsAs (hp : s.phase = .cValid) (hhist : s.hist = histogram s.inBytes)
    (hroom : s.outLen.toNat + 1 + (pack (bodyBits s.inBytes)).length ≤ s.outCap.toNat) :
    EndsAs s (steps 2 s)
      (.ok (BitVec.ofNat 8 (validBitsOf (bodyBits s.inBytes).length) :: pack (bodyBits s.inBytes))) := by
  obtain ⟨t, ht, htp, happ, hcode⟩ := exec_cValid_of_room (s := s) (show s.outLen.toNat < s.outCap.toNat by omega)
  have hin := exec_sameInput ht
  rw [hhist, hcodes.toNat_totalBits] at happ
  have hrest := cPack_endsAs (hcodes.congr hin hcode) (hin.host.trans hh) (by rw [hin.inLen, hin.inCap]; exact hfit) htp
    (by rw [hin.inBytes, hin.outCap, happ.outLen]; exact hroom)
  rw [hin.inBytes] at hrest
  exact endsAs_succ_of_appended hh (by rw [hp]; rfl) ht happ hrest

/-- `C_HEADER`, `C_VALID` and `C_PACK` append the container and end the operation. -/
theorem cHeader_endsAs (hp : s.phase = .cHeader) (hc : s.Counted)
    (hroom : s.outLen.toNat + (compress s.inBytes).length ≤ s.outCap.toNat) :
    EndsAs s (steps 3 s) (.ok (compress s.inBytes)) := by
  obtain ⟨h0, hhist⟩ := hc
  have hne : s.inBytes ≠ [] := List.ne_nil_of_length_pos (by rw [length_inBytes]; bv_omega)
  have hsize : (compress s.inBytes).length = 2048 + 1 + (pack (bodyBits s.inBytes)).length := by
    rw [length_compress hne, length_pack]
  obtain ⟨t, ht, htp, happ, hth, hcode⟩ := exec_cHeader_of_room (s := s) (by omega)
  have hin := exec_sameInput ht
  have hrest := cValid_endsAs (hcodes.congr hin hcode) (hin.host.trans hh) (by rw [hin.inLen, hin.inCap]; exact hfit) htp
    (by rw [hth, hhist, hin.inBytes])
    (by rw [hin.inBytes, hin.outCap, happ.outLen, length_headerBytes]; omega)
  rw [hin.inBytes] at hrest
  rw [compress_of_ne_nil hne, ← hhist]
  exact endsAs_succ_of_appended hh (by rw [hp]; rfl) ht happ hrest

end

/-- A COMPRESS ends with `compress` of its input appended, in six stages or, for the empty input, in one. -/
theorem compress_endsAs {s : State} (hp : s.phase = .hist) (ho : s.op = .compress) (hh : s.host = [])
    (hfit : s.inLen ≤ s.inCap) (hroom : s.outLen.toNat + (compress s.inBytes).length ≤ s.outCap.toNat) :
    ∃ k ≤ 6, EndsAs s (steps k s) (.ok (compress s.inBytes)) := by
  have hi : decodePhase s.phase.code = .ok .hist := by rw [hp]; rfl
  by_cases h0 : s.inLen = 0
  · have hnil : s.inBytes = [] := List.eq_nil_of_length_eq_zero (by rw [length_inBytes, h0]; rfl)
    refine ⟨1, by omega, ?_⟩
    rw [hnil]
    exact endsAs_of_finish hh hi (exec_hist_of_zero hfit h0) ⟨rfl, rfl, rfl, rfl, rfl, rfl⟩ rfl rfl
  · have hcodes : (s.afterHist.build.goto .gen).afterGen.HasCodes := afterGen_hasCodes rfl s.afterHist.build_built
    have hheader := cHeader_endsAs hcodes hh hfit rfl ⟨h0, rfl⟩ hroom
    have hgen := exists_endsAs_succ (s := s.afterHist.build.goto .gen) (i := .gen) hh rfl rfl rfl rfl ⟨3, le_rfl, hheader⟩
    have hbuild := exists_endsAs_succ (s := s.afterHist) hh rfl (exec_build_of_compress ho) rfl rfl hgen
    exact exists_endsAs_succ hh hi (exec_hist_of_ne_zero hfit h0) rfl rfl hbuild

end Sys2Proof.Machine
end

section
/-!
A DECOMPRESS, run stage by stage (spec/40_commands.md R93, R95), and what the host sees at the end of either command (R97).
-/

namespace Sys2Proof.Machine

/-! ## The input as a container -/

theorem getD_inBytes {s : State} {a : Nat} (ha : a < s.inLen.toNat) : s.inBytes.getD a 0 = s.inByte a := by
  rw [List.getD_eq_getElem _ _ (by rwa [length_inBytes])]
  simp [State.inBytes]

section
variable {s : State} (hm : s.Measured)
include hm

theorem State.Measured.le_toNat : 2049 ≤ s.inLen.toNat := hm.1

theorem State.Measured.toNat_bodyLen : s.bodyLen.toNat = s.inLen.toNat - 2049 := by
  obtain ⟨hlong, hbody⟩ := hm
  rw [hbody]
  bv_omega

theorem State.Measured.containerHist : containerHist s.inBytes = parseHeader s.inByte :=
  parseHeader_congr fun a ha => getD_inBytes (by have := hm.le_toNat; omega)

theorem State.Measured.getD_validBits : s.inBytes.getD 2048 0 = s.inByte 2048 :=
  getD_inBytes (by have := hm.le_toNat; omega)

/-- The bits the walk may read are those of the container. -/
theorem State.Measured.containerBits (hv : s.Validated) : containerBits s.inBytes = s.walkable := by
  obtain ⟨hvb, hlo, hhi⟩ := hv
  have hlen := hm.toNat_bodyLen
  have hle := walkableBits_le (n := s.bodyLen.toNat) (vb := s.vb.toNat) hhi
  rw [Machine.containerBits, State.walkable, List.length_drop, length_inBytes, Config.validBitsOffset, hm.getD_validBits,
    ← hvb, ← hlen]
  refine List.map_congr_left fun t ht => ?_
  have ht := List.mem_range.1 ht
  have hbyte : (s.inBytes.drop 2049).getD (t / 8) 0 = s.inByte (2049 + t / 8) := by
    rw [← getD_inBytes (by omega)]
    simp [List.getD_eq_getElem?_getD]
  rw [bodyBitOf, bodyBitOf, hbyte]

/-- What `decompress` says of a container that passes the header checks, in terms of the registers. -/
theorem State.Measured.decompress (hv : s.Validated) (hh : s.hist = parseHeader s.inByte) :
    decompress s.inBytes = if buildNodes s.hist = [] then .ok []
      else treeWalk s.hist (countSum s.hist) (rootOf (buildNodes s.hist)) s.walkable := by
  have hbits := hm.containerBits hv
  obtain ⟨hvb, hlo, hhi⟩ := hv
  rw [decompress_of_valid (by rw [length_inBytes]; exact hm.le_toNat) (by rwa [hm.getD_validBits, ← hvb])
    (by rwa [hm.getD_validBits, ← hvb]), hbits, hm.containerHist, hh]

end

theorem leafSyms_ne_nil_of_tree {h : Vector Counter 256} (hne : buildNodes h ≠ []) : leafSyms h ≠ [] :=
  fun hk => hne (by rw [buildNodes, leafNodes_eq_map, hk]; rfl)

/-- There is no root exactly where there is no leaf (R122). -/
theorem rootOf_buildNodes_eq_none {h : Vector Counter 256} : rootOf (buildNodes h) = Idx.none ↔ buildNodes h = [] := by
  constructor
  · intro hroot
    by_contra hne
    have hk := leafSyms_ne_nil_of_tree hne
    have hlen := (buildNodes_arena hk).1.length_le
    have htoNat := toNat_rootOf hk
    rw [hroot] at htoNat
    have : Idx.none.toNat = 511 := rfl
    omega
  · intro hnil
    rw [hnil]
    rfl

/-! ## The stages of a DECOMPRESS (R95) -/

/-- The state after `D_SUM` (R175). -/
def State.afterDSum (s : State) : State := State.goto { s with total := totalCount s.hist } .dWalk

/-- The room that R223 gives a DECOMPRESS. -/
def State.HasRoom (s : State) : Prop := s.outLen.toNat + 8 * (s.inLen.toNat - 2049) ≤ s.outCap.toNat

section
variable {s : State} (hh : s.host = []) (hfit : s.inLen ≤ s.inCap) (hroom : s.HasRoom)
include hh hfit hroom

/-- `D_SUM` and `D_WALK` walk the tree that `BUILD` made. -/
theorem dSum_endsAs (hp : s.phase = .dSum) (hm : s.Measured) (hv : s.Validated) (hhist : s.hist = parseHeader s.inByte)
    (hb : s.Built) (hroot : s.root ≠ Idx.none) : EndsAs s (steps 2 s) (decompress s.inBytes) := by
  obtain ⟨hnode, hnleaf, -, hr⟩ := hb
  have hne : buildNodes s.hist ≠ [] := fun h => hroot (by rw [hr, h]; rfl)
  have ha := (buildNodes_arena (leafSyms_ne_nil_of_tree hne)).1
  have hbody := container_fits hfit hm
  have hbits := walkableBits_le (n := s.bodyLen.toNat) (vb := s.vb.toNat) hv.2.2
  have hlen := hm.toNat_bodyLen
  unfold State.HasRoom at hroom
  have hwalk := execDWalk_endsAs (s := s.afterDSum) hbody hv.2.2
    (show s.outLen.toNat + walkableBits s.bodyLen.toNat s.vb.toNat ≤ s.outCap.toNat by omega)
  have hres : walkBits (nodeAt s.node) s.nleaf s.root (totalCount s.hist).toNat s.root s.walkable =
      decompress s.inBytes := by
    have hnodes := ha.walkBits_nodeAt s.node s.nleaf (n := (totalCount s.hist).toNat) ha.inArena_root s.walkable
    rw [hm.decompress hv hhist, if_neg hne, treeWalk, ← toNat_totalCount, ← hnleaf, ← hnodes, ← hnode, ← hr]
  rw [← hres, steps_succ_of_exec (i := .dSum) (t := s.afterDSum) hh (by rw [hp]; rfl) rfl,
    steps_one_of_quiet (s := s.afterDSum) (i := .dWalk) hh rfl]
  exact EndsAs.of_registers (s := s) (t := s.afterDSum) ⟨rfl, rfl, rfl, rfl, rfl, rfl⟩ rfl rfl hwalk

theorem build_endsAs (hp : s.phase = .build) (ho : s.op = .decompress) (hm : s.Measured) (hv : s.Validated)
    (hhist : s.hist = parseHeader s.inByte) : ∃ k ≤ 3, EndsAs s (steps k s) (decompress s.inBytes) := by
  have hi : decodePhase s.phase.code = .ok .build := by rw [hp]; rfl
  by_cases hroot : s.build.root = Idx.none
  · have hexec : exec .build s = .next s.build.finish := by simp only [exec, execBuild, ho, if_pos hroot]
    rw [hm.decompress hv hhist, if_pos (rootOf_buildNodes_eq_none.1 hroot)]
    exact ⟨1, by omega, endsAs_of_finish hh hi hexec ⟨rfl, rfl, rfl, rfl, rfl, rfl⟩ rfl rfl⟩
  · have hexec : exec .build s = .next (s.build.goto .dSum) := by simp only [exec, execBuild, ho, if_neg hroot]
    exact exists_endsAs_succ hh hi hexec rfl rfl
      ⟨2, le_rfl, dSum_endsAs (s := s.build.goto .dSum) hh hfit hroom rfl hm hv hhist s.build_built hroot⟩

theorem dValid_endsAs (hp : s.phase = .dValid) (ho : s.op = .decompress) (hm : s.Measured)
    (hhist : s.hist = parseHeader s.inByte) : ∃ k ≤ 4, EndsAs s (steps k s) (decompress s.inBytes) := by
  have hi : decodePhase s.phase.code = .ok .dValid := by rw [hp]; rfl
  have hread : s.memReadIn 2048 = some (s.inByte 2048) := memReadIn_of_lt (by have := container_fits hfit hm; omega)
  have hexec : exec .dValid s = .next (if s.inByte 2048 < 1 ∨ 8 < s.inByte 2048
      then State.raise { s with vb := s.inByte 2048 } .malformedContainer
      else State.goto { s with vb := s.inByte 2048 } .build) := by simp only [exec, execDValid, hread]
  by_cases hrange : s.inByte 2048 < 1 ∨ 8 < s.inByte 2048
  · rw [if_pos hrange] at hexec
    have hres : decompress s.inBytes = .error .malformedContainer :=
      decompress_of_invalid (by rw [length_inBytes]; exact hm.le_toNat) (by rwa [hm.getD_validBits])
    rw [hres]
    exact ⟨1, by omega, endsAs_of_raise hh hi hexec ⟨rfl, rfl, rfl, rfl, rfl, rfl⟩ (by simp)⟩
  · rw [if_neg hrange] at hexec
    obtain ⟨hlo, hhi⟩ := not_or.1 hrange
    exact exists_endsAs_succ hh hi hexec rfl rfl (build_endsAs (s := State.goto { s with vb := s.inByte 2048 } .build) hh
      hfit hroom rfl ho hm ⟨rfl, BitVec.not_lt.1 hlo, BitVec.not_lt.1 hhi⟩ hhist)

theorem dHeader_endsAs (hp : s.phase = .dHeader) (ho : s.op = .decompress) (hm : s.Measured) :
    ∃ k ≤ 5, EndsAs s (steps k s) (decompress s.inBytes) := by
  have hcap : ¬ s.inCap < 2048 := by have := container_fits hfit hm; bv_omega
  have hexec : exec .dHeader s = .next (State.goto { s with hist := parseHeader s.inByte } .dValid) := if_neg hcap
  exact exists_endsAs_succ hh (by rw [hp]; rfl) hexec rfl rfl
    (dValid_endsAs (s := State.goto { s with hist := parseHeader s.inByte } .dValid) hh hfit hroom rfl ho hm rfl)

/-- A DECOMPRESS ends as `decompress` says of its input, in at most six stages. -/
theorem decompress_endsAs (hp : s.phase = .dCheck) (ho : s.op = .decompress) :
    ∃ k ≤ 6, EndsAs s (steps k s) (decompress s.inBytes) := by
  have hi : decodePhase s.phase.code = .ok .dCheck := by rw [hp]; rfl
  by_cases h0 : s.inLen = 0
  · have hexec : exec .dCheck s = .next s.finish := if_pos h0
    have hnil : s.inBytes = [] := List.eq_nil_of_length_eq_zero (by rw [length_inBytes, h0]; rfl)
    rw [hnil]
    exact ⟨1, by omega, endsAs_of_finish hh hi hexec (.refl s) rfl rfl⟩
  by_cases hshort : s.inLen < 2049
  · have hexec : exec .dCheck s = .next (s.raise .malformedContainer) := (if_neg h0).trans (if_pos hshort)
    have hres : decompress s.inBytes = .error .malformedContainer :=
      decompress_of_short (by rw [length_inBytes]; bv_omega) (by rw [length_inBytes]; bv_omega)
    rw [hres]
    exact ⟨1, by omega, endsAs_of_raise hh hi hexec (.refl s) (by simp)⟩
  · have hexec : exec .dCheck s = .next (State.goto { s with bodyLen := s.inLen - 2049 } .dHeader) :=
      (if_neg h0).trans (if_neg hshort)
    exact exists_endsAs_succ hh hi hexec rfl rfl (dHeader_endsAs
      (s := State.goto { s with bodyLen := s.inLen - 2049 } .dHeader) hh hfit hroom rfl ho ⟨BitVec.not_lt.1 hshort, rfl⟩)

end

/-! ## What the host sees (R35, R97) -/

/-- `STATUS` and `OUT` at the end of an operation with the result. -/
def State.Shows (t : State) : Except ErrKind (List Byte) → Prop
  | .ok out => t.status = 0x02 ∧ t.outputIs out
  | .error .malformedContainer => t.status = 0x06 ∧ t.outLen = 0
  | .error .corruptStream => t.status = 0x0A ∧ t.outLen = 0
  | .error .none => False

/-- What has been appended to an empty output is the output. -/
theorem Appended.outputIs {s u : State} {vs : List Byte} (h : Appended s u vs) (hout : s.outLen = 0) : u.outputIs vs := by
  have hzero : s.outLen.toNat = 0 := by rw [hout]; rfl
  have hlen : u.outLen.toNat = vs.length := by rw [h.outLen, hzero, Nat.zero_add]
  refine List.ext_getElem (by simp [State.outBytes, hlen]) fun j hj _ => ?_
  have hj' : j < vs.length := by simpa [State.outBytes, hlen] using hj
  have hread := h.written j hj'
  rw [hzero, Nat.zero_add] at hread
  simp [State.outBytes, State.outByte, hlen, hj', hread]

/-- `STATUS` after an operation has ended: `BUSY = 0`, `DONE = 1` and the code of `ERR` (R23). -/
theorem State.status_of_ended {t : State} (e : ErrKind) (hp : t.phase = .idle) (hd : t.done = true) (he : t.err = e)
    {v : BitVec 8} (hv : (0 : BitVec 4) ++ e.code ++ BitVec.ofBool true ++ BitVec.ofBool false = v) : t.status = v := by
  rw [State.status, hd, he, (State.busy_eq_false t).2 hp, hv]

/-- An operation that started from an empty output leaves the block idle, its input as it was, and shows the result. -/
theorem EndsAs.exists_shows {s : State} {o : Outcome} {r : Except ErrKind (List Byte)} (h : EndsAs s o r)
    (hout : s.outLen = 0) : ∃ t, o = .next t ∧ SameInput s t ∧ t.phase = .idle ∧ t.Shows r := by
  cases r with
  | ok out =>
    obtain ⟨u, hu, hin, happ⟩ := h
    exact ⟨u.finish, hu, hin.trans ⟨rfl, rfl, rfl, rfl, rfl, rfl⟩, rfl, State.status_of_ended .none rfl rfl rfl rfl,
      happ.outputIs hout⟩
  | error e =>
    obtain ⟨he, u, hu, hin⟩ := h
    refine ⟨u.raise e, hu, hin.trans ⟨rfl, rfl, rfl, rfl, rfl, rfl⟩, rfl, ?_⟩
    cases e with
    | none => exact absurd rfl he
    | malformedContainer => exact ⟨State.status_of_ended .malformedContainer rfl rfl rfl rfl, rfl⟩
    | corruptStream => exact ⟨State.status_of_ended .corruptStream rfl rfl rfl rfl, rfl⟩

theorem toNat_outLen_of_outputIs {t : State} {out : List Byte} (h : t.outputIs out) : t.outLen.toNat = out.length := by
  have hlen := congrArg List.length h
  rwa [State.outBytes, List.length_map, List.length_map, List.length_range] at hlen

/-- The result decides what the host sees. -/
theorem State.Shows.unique {t t' : State} {r : Except ErrKind (List Byte)} (h : t.Shows r) (h' : t'.Shows r) :
    t.status = t'.status ∧ t.outBytes = t'.outBytes ∧ t.outLen = t'.outLen := by
  have hempty : t.outLen = 0 → t'.outLen = 0 → t.outBytes = t'.outBytes ∧ t.outLen = t'.outLen := fun h0 h0' =>
    ⟨by rw [State.outBytes, State.outBytes, h0, h0']; rfl, h0.trans h0'.symm⟩
  cases r with
  | ok out =>
    obtain ⟨hs, ho⟩ := h
    obtain ⟨hs', ho'⟩ := h'
    refine ⟨hs.trans hs'.symm, ho.trans ho'.symm, BitVec.eq_of_toNat_eq ?_⟩
    rw [toNat_outLen_of_outputIs ho, toNat_outLen_of_outputIs ho']
  | error e => cases e with
    | none => exact absurd h id
    | malformedContainer => exact ⟨h.1.trans h'.1.symm, hempty h.2 h'.2⟩
    | corruptStream => exact ⟨h.1.trans h'.1.symm, hempty h.2 h'.2⟩

/-! ## From the launch to the end -/

/-- The state after a launch: accepted, with no transaction left. -/
def State.launched (s : State) (c : Op) : State := State.accept { s with host := [] } c

section
variable {s : State} (hfit : s.inLen ≤ s.inCap)
include hfit

theorem step_of_launches_compress (h : s.launches 0x01) : step s = .next (s.launched .compress) :=
  (step_of_writeCmd_compress h.2).trans (launch_of_idle (s := { s with host := [] }) .compress h.1 hfit)

theorem step_of_launches_decompress (h : s.launches 0x02) : step s = .next (s.launched .decompress) :=
  (step_of_writeCmd_decompress h.2).trans (launch_of_idle (s := { s with host := [] }) .decompress h.1 hfit)

/-- A launched COMPRESS shows `compress` of the input. -/
theorem compress_run (h : s.launches 0x01) (hroom : (compress s.inBytes).length ≤ s.outCap.toNat) :
    ∃ k ≤ 7, ∃ t, steps k s = .next t ∧ SameInput (s.launched .compress) t ∧ t.phase = .idle ∧
      t.Shows (.ok (compress s.inBytes)) := by
  obtain ⟨k, hk, hend⟩ := compress_endsAs (s := s.launched .compress) rfl rfl rfl hfit ((Nat.zero_add _).trans_le hroom)
  exact ⟨k + 1, by omega, by
    rw [steps_succ_of_step (step_of_launches_compress hfit h)]
    exact hend.exists_shows rfl⟩

/-- A launched DECOMPRESS shows what `decompress` says of the input. -/
theorem decompress_run (h : s.launches 0x02) (hroom : 8 * (s.inLen.toNat - 2049) ≤ s.outCap.toNat) :
    ∃ k ≤ 7, ∃ t, steps k s = .next t ∧ SameInput (s.launched .decompress) t ∧ t.phase = .idle ∧
      t.Shows (decompress s.inBytes) := by
  have hroom' : (s.launched .decompress).HasRoom := (Nat.zero_add _).trans_le hroom
  obtain ⟨k, hk, hend⟩ := decompress_endsAs (s := s.launched .decompress) rfl hfit hroom' rfl rfl
  exact ⟨k + 1, by omega, by
    rw [steps_succ_of_step (step_of_launches_decompress hfit h)]
    exact hend.exists_shows rfl⟩

end

/-- Settles O45: the stages of `compress_run`, as the host sees their end. -/
theorem compressRun : Obligations.CompressRun := by
  intro s h hfit hroom
  obtain ⟨k, hk, t, ht, hin, -, hstatus, hout⟩ := compress_run hfit h hroom
  exact ⟨k, hk, t, ht, hstatus, hout, hin.inLen, hin.inMem⟩

/-- Settles O46: the stages of `decompress_run`, as the host sees their end. -/
theorem decompressRun : Obligations.DecompressRun := by
  intro s h hfit hroom
  obtain ⟨k, hk, t, ht, hin, -, hshows⟩ := decompress_run hfit h hroom
  refine ⟨k, hk, t, ht, hin.inLen, hin.inMem, ?_⟩
  cases hr : decompress s.inBytes with
  | ok out => exact hr ▸ hshows
  | error e => cases e <;> exact hr ▸ hshows

/-! ## The empty input (R99) -/

/-- The first stage of either command ends the operation where there is no input (R113, R171). -/
theorem first_stage_of_empty {s : State} (hp : s.phase = .hist ∨ s.phase = .dCheck) (hh : s.host = []) (h0 : s.inLen = 0) :
    EndsAs s (steps 1 s) (.ok []) := by
  rcases hp with hp | hp
  · have hfit : s.inLen ≤ s.inCap := by rw [h0]; exact Nat.zero_le _
    exact endsAs_of_finish hh (by rw [hp]; rfl) (exec_hist_of_zero hfit h0) ⟨rfl, rfl, rfl, rfl, rfl, rfl⟩ rfl rfl
  · exact endsAs_of_finish (i := .dCheck) hh (by rw [hp]; rfl) (if_pos h0) (.refl s) rfl rfl

/-- Settles O48: on no input both functions are `[]`, and both commands end in their first stage. -/
theorem emptyIdentity : Obligations.EmptyIdentity := by
  refine ⟨rfl, rfl, fun s v h hv h0 => ?_⟩
  have hfit : s.inLen ≤ s.inCap := by rw [h0]; exact Nat.zero_le _
  have hstep : ∃ c, step s = .next (s.launched c) := by
    rcases hv with rfl | rfl
    · exact ⟨_, step_of_launches_compress hfit h⟩
    · exact ⟨_, step_of_launches_decompress hfit h⟩
  obtain ⟨c, hstep⟩ := hstep
  have hfirst : (s.launched c).phase = .hist ∨ (s.launched c).phase = .dCheck := by
    cases c
    · exact .inl rfl
    · exact .inr rfl
  obtain ⟨t, ht, -, -, hstatus, hout⟩ := (first_stage_of_empty hfirst rfl h0).exists_shows rfl
  exact ⟨t, (steps_succ_of_step hstep 1).trans ht, hstatus, BitVec.eq_of_toNat_eq (toNat_outLen_of_outputIs hout)⟩

/-! ## The result alone (R104) -/

/-- An idle block with no transaction to come stays as it is (R220). -/
theorem steps_of_idle {s : State} (hh : s.host = []) (hp : s.phase = .idle) (n : Nat) : steps n s = .next s := by
  induction n with
  | zero => rfl
  | succ n ih => rw [steps_succ_of_step (step_of_idle hh hp), ih]

theorem steps_add (m n : Nat) (s : State) : steps (m + n) s = andThen (steps m s) (steps n) := by
  induction m generalizing s with
  | zero => rw [Nat.zero_add, steps, andThen_next]
  | succ m ih =>
    rw [Nat.succ_add, steps, steps, andThen_assoc]
    exact congrArg (andThen (step s)) (funext ih)

/-- A run that has come to rest is at rest after any more steps. -/
theorem steps_of_le {s t : State} {k n : Nat} (h : steps k s = .next t) (hh : t.host = []) (hp : t.phase = .idle)
    (hkn : k ≤ n) : steps n s = .next t := by
  obtain ⟨m, rfl⟩ := Nat.exists_eq_add_of_le hkn
  rw [steps_add, h, andThen_next, steps_of_idle hh hp]

/-- The result of the command word `v` on an input. -/
def resultOf (v : BitVec 8) (bytes : List Byte) : Except ErrKind (List Byte) :=
  if v = 0x01 then .ok (compress bytes) else decompress bytes

/-- Seven steps after a launch the block shows the result. -/
theorem steps_seven_shows {s : State} {v : BitVec 8} (h : s.launches v) (hv : v = 0x01 ∨ v = 0x02)
    (hfit : s.inLen ≤ s.inCap) (hroom : (compress s.inBytes).length ≤ s.outCap.toNat)
    (hroom' : 8 * (s.inLen.toNat - 2049) ≤ s.outCap.toNat) :
    ∃ t, steps 7 s = .next t ∧ t.Shows (resultOf v s.inBytes) := by
  rcases hv with rfl | rfl
  · obtain ⟨k, hk, t, ht, hin, hp, hshows⟩ := compress_run hfit h hroom
    exact ⟨t, steps_of_le ht hin.host hp hk, hshows⟩
  · obtain ⟨k, hk, t, ht, hin, hp, hshows⟩ := decompress_run hfit h hroom'
    exact ⟨t, steps_of_le ht hin.host hp hk, hshows⟩

/-- Settles O52: both blocks show the same result, which decides all that the host sees. -/
theorem resultDependsOnInputAlone : Obligations.ResultDependsOnInputAlone := by
  intro s s' v h h' hv hlen hbytes hfit hfit' hroom hroom' hwalk hwalk'
  obtain ⟨t, ht, hshows⟩ := steps_seven_shows h hv hfit hroom hwalk
  obtain ⟨t', ht', hshows'⟩ := steps_seven_shows h' hv (hlen ▸ hfit') (hbytes ▸ hroom') (hlen ▸ hwalk')
  exact ⟨t, t', ht, ht', hshows.unique (hbytes ▸ hshows')⟩

end Sys2Proof.Machine
end

section
/-!
Stage HIST as the host launches it (spec/41_frequency_analyzer.md R110 to R114): the counts and the frame on a non-empty input,
and the end of the operation on an empty one.
-/

namespace Sys2Proof.Machine

/-- Settles O20: `State.afterHist` has the frame, and no counter wraps as `IN_LEN` bounds the input (R6, R114). -/
theorem histCounts : Obligations.HistCounts := by
  intro s h0 hfit
  have hlen := length_inBytes_lt s
  have hcounts : ∀ b, (histAt s.afterHist.hist b).toNat = s.inBytes.count b := toNat_histAt_histogram hlen
  have hsum : countSum s.afterHist.hist = s.inLen.toNat := (countSum_histogram hlen).trans (length_inBytes s)
  exact ⟨s.afterHist, exec_hist_of_ne_zero hfit h0, rfl, hcounts, hsum⟩

/-- Settles O21: an empty input fits any `IN_CAP`, so `HIST` finishes, which keeps `OUT` (R96, R113). -/
theorem histOfEmptyEnds : Obligations.HistOfEmptyEnds := by
  intro s h0
  have hfit : s.inLen ≤ s.inCap := by rw [h0]; exact Nat.zero_le _
  have hended : EndedOk s (State.finish { s with hist := histogram s.inBytes, iptr := s.inLen }) :=
    ⟨rfl, rfl, rfl, rfl, rfl, rfl, rfl, rfl, rfl⟩
  exact ⟨_, exec_hist_of_zero hfit h0, hended, rfl, rfl⟩

end Sys2Proof.Machine
end

section
/-!
Extraction from the priority structure (spec/42_tree_builder.md R124 to R126): the least key belongs to a node of the structure
that no other one comes before, and a merge pass takes the two first nodes in that order.
-/

namespace Sys2Proof.Machine

/-! ## The order of keys (R124) -/

theorem keyLt_iff {x y : Weight × Nat} : keyLt x y = true ↔ x.1 < y.1 ∨ (x.1 = y.1 ∧ x.2 < y.2) := by simp [keyLt]

theorem not_keyLt_self (x : Weight × Nat) : ¬ keyLt x x = true := by simp [keyLt]

/-- Of two keys that differ in their index one is less. -/
theorem keyLt_of_not_keyLt {x y : Weight × Nat} (h : ¬ keyLt y x = true) (hne : x.2 ≠ y.2) : keyLt x y = true := by
  rw [keyLt_iff] at h ⊢
  bv_omega

/-- What is not less than the greater of two keys is not less than the other one. -/
theorem not_keyLt_of_keyLt {x y z : Weight × Nat} (hxy : keyLt x y = true) (hzy : ¬ keyLt z y = true) :
    ¬ keyLt z x = true := by
  rw [keyLt_iff] at hxy hzy ⊢
  bv_omega

/-! ## Nodes of the priority structure, by index -/

/-- Node `n` stands at index `i` and is in the priority structure. -/
def Queued (ns : List Node) (i : Nat) (n : Node) : Prop := ns[i]? = some n ∧ n.inq = true

theorem Queued.lt_length {ns : List Node} {i : Nat} {n : Node} (h : Queued ns i n) : i < ns.length :=
  (List.getElem?_eq_some_iff.1 h.1).1

theorem Queued.weightAt {ns : List Node} {i : Nat} {n : Node} (h : Queued ns i n) : weightAt ns i = n.w := by
  simp [Machine.weightAt, h.1]

/-- The structure is empty where no node has `inq = 1`. -/
theorem live_eq_nil {ns : List Node} : live ns = [] ↔ ∀ n ∈ ns, n.inq = false := by simp [live]

/-- An extraction leaves every other node in the structure. -/
theorem queued_modify_extracted {ns : List Node} {a i : Nat} {n : Node} :
    Queued (ns.modify a Node.extracted) i n ↔ i ≠ a ∧ Queued ns i n := by
  by_cases hia : i = a
  · subst hia
    have hn : ∀ m, ns[i]? = some m → m.extracted = n → ¬ n.inq = true := by
      rintro m - rfl
      simp
    simpa [Queued] using hn
  · simp [Queued, hia, List.getElem?_modify_ne _ _ (Ne.symm hia)]

/-! ## The least key -/

theorem queued_of_leastKey {ns : List Node} {w : Weight} {a : Nat} (h : leastKey ns 0 = some (w, a)) :
    ∃ n, Queued ns a n ∧ n.w = w := by
  obtain ⟨j, n, hk, hn, hq⟩ := leastKey_eq_some h
  cases hk
  exact ⟨n, by rw [Nat.zero_add]; exact ⟨hn, hq⟩, rfl⟩

/-- No node of the structure has a key less than the least one. -/
theorem not_keyLt_leastKey {ns : List Node} {i j : Nat} {k : Weight × Nat} {n : Node} (h : leastKey ns i = some k)
    (hq : Queued ns j n) : ¬ keyLt (n.w, i + j) k = true := by
  induction ns generalizing i j k with
  | nil => cases hq.1
  | cons m ns ih =>
    rw [leastKey] at h
    cases j with
    | zero =>
      obtain rfl : m = n := by simpa using hq.1
      rw [if_pos hq.2] at h
      split at h
      · cases h
        exact not_keyLt_self _
      · split at h <;> cases h
        · exact not_keyLt_self _
        · assumption
    | succ j =>
      have hrest : Queued ns j n := hq
      rw [show i + (j + 1) = i + 1 + j by omega]
      split at h
      · split at h
        · have hempty := live_eq_nil.1 (leastKey_eq_none.1 ‹_›) n (List.mem_of_getElem? hrest.1)
          exact absurd hrest.2 (by simp [hempty])
        · have hleast := ih ‹leastKey ns (i + 1) = _› hrest
          split at h <;> cases h
          · exact not_keyLt_of_keyLt ‹_› hleast
          · exact hleast
      · exact ih h hrest

/-- Every other node of the structure comes after the one with the least key. -/
theorem keyLt_of_leastKey {ns : List Node} {w : Weight} {a i : Nat} {n : Node} (h : leastKey ns 0 = some (w, a))
    (hq : Queued ns i n) (hne : i ≠ a) : keyLt (w, a) (n.w, i) = true := by
  have hnot := not_keyLt_leastKey h hq
  rw [Nat.zero_add] at hnot
  exact keyLt_of_not_keyLt hnot hne.symm

theorem extractMin_eq_some {ns ns' : List Node} {a : Nat} :
    extractMin ns = some (a, ns') ↔ ∃ w, leastKey ns 0 = some (w, a) ∧ ns' = ns.modify a Node.extracted := by
  unfold extractMin
  cases leastKey ns 0 with
  | none => simp
  | some k =>
    obtain ⟨w, i⟩ := k
    simp only [Option.some.injEq, Prod.mk.injEq]
    constructor
    · rintro ⟨rfl, rfl⟩
      exact ⟨w, ⟨rfl, rfl⟩, rfl⟩
    · rintro ⟨_, ⟨-, rfl⟩, rfl⟩
      exact ⟨rfl, rfl⟩

theorem extractMin_eq_none {ns : List Node} : extractMin ns = none ↔ leastKey ns 0 = none := by
  unfold extractMin
  cases leastKey ns 0 <;> simp

/-- Settles O23: the least key is that of a node in the structure which every other one comes after. -/
theorem extractMinIsLeast : Obligations.ExtractMinIsLeast := by
  intro ns
  have hnone : leastKey ns 0 = none ↔ ∀ n ∈ ns, n.inq = false := leastKey_eq_none.trans live_eq_nil
  refine ⟨fun i ns' h => ?_, extractMin_eq_none.trans hnone, hnone⟩
  obtain ⟨w, hk, rfl⟩ := extractMin_eq_some.1 h
  obtain ⟨n, ⟨hn, hq⟩, rfl⟩ := queued_of_leastKey hk
  refine ⟨n, hn, hq, hk, fun j m hj hm hne => ?_, rfl, by simp [hn], n.inq_extracted, fun j hne => ?_⟩
  · exact keyLt_iff.1 (keyLt_of_leastKey hk ⟨hj, hm⟩ hne)
  · exact List.getElem?_modify_ne _ _ hne.symm

/-! ## A merge pass -/

theorem mergePass_of_leastKey {ns : List Node} {a b : Nat} {wa wb : Weight} (ha : leastKey ns 0 = some (wa, a))
    (hb : leastKey (ns.modify a Node.extracted) 0 = some (wb, b)) :
    mergePass ns = (ns.modify a Node.extracted).modify b Node.extracted ++
      [.internal (wa + wb) (BitVec.ofNat 9 a) (BitVec.ofNat 9 b) true] := by
  obtain ⟨m, hm, rfl⟩ := queued_of_leastKey ha
  obtain ⟨n, hn, rfl⟩ := queued_of_leastKey hb
  simp only [mergePass, extractMin_eq_some.2 ⟨_, ha, rfl⟩, extractMin_eq_some.2 ⟨_, hb, rfl⟩, hm.weightAt,
    (queued_modify_extracted.1 hn).2.weightAt]

/-- Settles O24: the second node extracted was in the structure all along, so it comes after the first. -/
theorem mergePassChildren : Obligations.MergePassChildren := by
  intro ns a b wa wb ha hb
  obtain ⟨n, hn, rfl⟩ := queued_of_leastKey hb
  obtain ⟨hne, hold⟩ := queued_modify_extracted.1 hn
  exact ⟨keyLt_of_leastKey ha hold hne, mergePass_of_leastKey ha hb⟩

end Sys2Proof.Machine
end

section
/-!
The shape of the tree (spec/42_tree_builder.md R128): the leaves keep their places, every node but the root gets one parent, and
the greedy order makes the weights of the internal nodes ascend.
-/

namespace Sys2Proof.Machine

/-! ## What a merge pass takes and adds -/

/-- A merge pass over `ns` takes node `m` at index `a` first and node `n` at index `b` second (R126). -/
structure Takes (ns : List Node) (a b : Nat) (m n : Node) : Prop where
  first : Queued ns a m
  second : Queued ns b n
  ne : a ≠ b
  first_le : ∀ i x, Queued ns i x → m.w ≤ x.w
  second_le : ∀ i x, Queued ns i x → i ≠ a → n.w ≤ x.w
  pass : mergePass ns = (ns.modify a Node.extracted).modify b Node.extracted ++
    [.internal (m.w + n.w) (BitVec.ofNat 9 a) (BitVec.ofNat 9 b) true]

theorem exists_queued_leastKey {ns : List Node} (h : live ns ≠ []) :
    ∃ a n, Queued ns a n ∧ leastKey ns 0 = some (n.w, a) := by
  obtain ⟨⟨w, a⟩, hk⟩ := Option.ne_none_iff_exists'.1 (mt (leastKey_eq_none (i := 0)).1 h)
  obtain ⟨n, hn, rfl⟩ := queued_of_leastKey hk
  exact ⟨a, n, hn, hk⟩

/-- The node with the least key has the least weight. -/
theorem w_le_of_leastKey {ns : List Node} {w : Weight} {a i : Nat} {n : Node} (h : leastKey ns 0 = some (w, a))
    (hq : Queued ns i n) : w ≤ n.w := by
  have hnot := not_keyLt_leastKey h hq
  rw [keyLt_iff, not_or] at hnot
  exact BitVec.not_lt.1 hnot.1

theorem exists_takes {ns : List Node} (h : 2 ≤ (live ns).length) : ∃ a b m n, Takes ns a b m n := by
  obtain ⟨a, m, hm, ha⟩ := exists_queued_leastKey (List.ne_nil_of_length_pos (by omega : 0 < (live ns).length))
  have hlen := (live_modify_extracted hm.1 hm.2).length_eq
  rw [List.length_cons] at hlen
  obtain ⟨b, n, hn, hb⟩ := exists_queued_leastKey (ns := ns.modify a Node.extracted)
    (List.ne_nil_of_length_pos (by omega))
  obtain ⟨hne, hold⟩ := queued_modify_extracted.1 hn
  exact ⟨a, b, m, n, hm, hold, hne.symm, fun i x hx => w_le_of_leastKey ha hx,
    fun i x hx hi => w_le_of_leastKey hb (queued_modify_extracted.2 ⟨hi, hx⟩), mergePass_of_leastKey ha hb⟩

/-- Node `i` is internal, with weight `w` and children `c0` and `c1`. -/
def InternalAt (ns : List Node) (i : Nat) (w : Weight) (c0 c1 : Idx) : Prop :=
  (plain ns)[i]? = some (.internal w c0 c1 false)

theorem internalAt_iff {ns : List Node} {i : Nat} {w : Weight} {c0 c1 : Idx} :
    InternalAt ns i w c0 c1 ↔ ∃ q, ns[i]? = some (.internal w c0 c1 q) := by
  rw [InternalAt, getElem?_plain]
  cases ns[i]? with
  | none => simp
  | some n => cases n <;> simp [Node.extracted]

theorem InternalAt.lt_length {ns : List Node} {i : Nat} {w : Weight} {c0 c1 : Idx} (h : InternalAt ns i w c0 c1) :
    i < ns.length := by
  simpa using (List.getElem?_eq_some_iff.1 h).1

theorem not_internalAt_leafNodes (h : Vector Counter 256) (i : Nat) (w : Weight) (c0 c1 : Idx) :
    ¬ InternalAt (leafNodes h) i w c0 c1 := by
  rw [internalAt_iff, leafNodes_eq_map, List.getElem?_map]
  cases (leafSyms h)[i]? <;> simp

theorem isChild_iff {ns : List Node} {j i : Nat} :
    IsChild ns j i ↔ ∃ w c0 c1, InternalAt ns j w c0 c1 ∧ (c0.toNat = i ∨ c1.toNat = i) := Iff.rfl

section
variable {ns : List Node} {a b : Nat} {m n : Node} (ht : Takes ns a b m n)
include ht

theorem Takes.plain_mergePass : plain (mergePass ns) =
    plain ns ++ [.internal (m.w + n.w) (BitVec.ofNat 9 a) (BitVec.ofNat 9 b) false] := by
  rw [ht.pass, plain_append, plain_modify_extracted, plain_modify_extracted]
  rfl

theorem Takes.internalAt_mergePass {i : Nat} {w : Weight} {c0 c1 : Idx} :
    InternalAt (mergePass ns) i w c0 c1 ↔ InternalAt ns i w c0 c1 ∨
      (i = ns.length ∧ w = m.w + n.w ∧ c0 = BitVec.ofNat 9 a ∧ c1 = BitVec.ofNat 9 b) := by
  rw [InternalAt, ht.plain_mergePass, getElem?_concat_eq_some, length_plain, Node.internal.injEq]
  simp [InternalAt, eq_comm]

theorem Takes.queued_mergePass {i : Nat} {x : Node} (h : Queued (mergePass ns) i x) :
    (i ≠ a ∧ i ≠ b ∧ Queued ns i x) ∨ (i = ns.length ∧ x.w = m.w + n.w) := by
  obtain ⟨hx, hq⟩ := h
  rw [ht.pass, getElem?_concat_eq_some, List.length_modify, List.length_modify] at hx
  rcases hx with hx | ⟨rfl, rfl⟩
  · obtain ⟨hb, ha, hold⟩ : i ≠ b ∧ i ≠ a ∧ Queued ns i x := by
      rw [← queued_modify_extracted, ← queued_modify_extracted]
      exact ⟨hx, hq⟩
    exact .inl ⟨ha, hb, hold⟩
  · exact .inr ⟨rfl, rfl⟩

variable {h : Vector Counter 256} (ha : Arena h ns)
include ha

theorem Takes.isChild_mergePass {j i : Nat} :
    IsChild (mergePass ns) j i ↔ IsChild ns j i ∨ (j = ns.length ∧ (i = a ∨ i = b)) := by
  have hta := ha.toNat_index ht.first.lt_length
  have htb := ha.toNat_index ht.second.lt_length
  simp only [isChild_iff, ht.internalAt_mergePass]
  constructor
  · rintro ⟨w, c0, c1, hold | ⟨rfl, -, rfl, rfl⟩, hc⟩
    · exact .inl ⟨w, c0, c1, hold, hc⟩
    · rw [hta, htb] at hc
      exact .inr ⟨rfl, hc.imp Eq.symm Eq.symm⟩
  · rintro (⟨w, c0, c1, hold, hc⟩ | ⟨rfl, hi⟩)
    · exact ⟨w, c0, c1, .inl hold, hc⟩
    · exact ⟨_, _, _, .inr ⟨rfl, rfl, rfl, rfl⟩, by rw [hta, htb]; exact hi.imp Eq.symm Eq.symm⟩

/-- The two weights taken are part of the counters' sum, so they add up without overflow (R6). -/
theorem Takes.toNat_add : (m.w + n.w).toNat = m.w.toNat + n.w.toNat := by
  have hrest := queued_modify_extracted.2 ⟨ht.ne.symm, ht.second⟩
  have hfirst := ((live_modify_extracted ht.first.1 ht.first.2).map fun x => x.w.toNat).sum_eq
  have hsecond := ((live_modify_extracted hrest.1 hrest.2).map fun x => x.w.toNat).sum_eq
  simp only [List.map_cons, List.sum_cons] at hfirst hsecond
  have hweight := ha.weight
  have := countSum_lt h
  unfold liveWeight at hweight
  rw [BitVec.toNat_add, Nat.mod_eq_of_lt (by omega)]

end

/-- A property of the leaves that every merge pass keeps holds of the tree. -/
theorem buildNodes_induction {h : Vector Counter 256} {P : List Node → Prop} (hk : leafSyms h ≠ [])
    (leaves : P (leafNodes h))
    (pass : ∀ ns a b m n, Arena h ns → Takes ns a b m n → P ns → P (mergePass ns)) : P (buildNodes h) := by
  have loop : ∀ k ns, Arena h ns → (live ns).length = k + 1 → P ns → P (mergeLoop k ns) := by
    intro k
    induction k with
    | zero => exact fun ns _ _ hp => hp
    | succ k ih =>
      intro ns ha hl hp
      obtain ⟨a, b, m, n, ht⟩ := exists_takes (ns := ns) (by omega)
      obtain ⟨hpass, hlen⟩ := ha.mergePass (by omega)
      exact ih _ hpass (by omega) (pass ns a b m n ha ht hp)
  have := List.length_pos_iff.2 hk
  exact loop _ _ (.leafNodes hk) (by rw [live_leafNodes, length_leafNodes]; omega) leaves

/-! ## The leaves keep their places -/

theorem leafNodes_prefix_buildNodes {h : Vector Counter 256} (hk : leafSyms h ≠ []) :
    plain (leafNodes h) <+: plain (buildNodes h) := by
  refine buildNodes_induction (P := fun ns => plain (leafNodes h) <+: plain ns) hk (List.prefix_refl _) ?_
  intro ns a b m n _ ht hp
  rw [ht.plain_mergePass]
  exact hp.trans (List.prefix_append _ _)

/-- Node `i` below `NLEAF` is the leaf of the `i`-th byte value with a counter, and has that counter as weight (R121). -/
theorem exists_leaf_buildNodes {h : Vector Counter 256} {i : Nat} {b : Byte} (hb : (leafSyms h)[i]? = some b) :
    ∃ q, (buildNodes h)[i]? = some (.leaf ((histAt h b).setWidth 72) b q) := by
  have hk : leafSyms h ≠ [] := List.ne_nil_of_mem (List.mem_of_getElem? hb)
  have hleaf : (plain (leafNodes h))[i]? = some (.leaf ((histAt h b).setWidth 72) b false) := by
    rw [getElem?_plain, leafNodes_eq_map, List.getElem?_map, hb]
    rfl
  have hplain := (List.prefix_iff_getElem?.1 (leafNodes_prefix_buildNodes hk)) i (List.getElem?_eq_some_iff.1 hleaf).1
  rw [(List.getElem?_eq_some_iff.1 hleaf).2, getElem?_plain, Option.map_eq_some_iff] at hplain
  obtain ⟨x, hx, he⟩ := hplain
  cases x <;> cases he
  exact ⟨_, hx⟩

/-! ## One parent -/

theorem Arena.isChild_lt_length {h : Vector Counter 256} {ns : List Node} (ha : Arena h ns) {j i : Nat}
    (hc : IsChild ns j i) : j < ns.length ∧ i < ns.length := by
  obtain ⟨w, c0, c1, hj, hc⟩ := isChild_iff.1 hc
  obtain ⟨m, n, hm, hn, -⟩ := ha.children j w c0 c1 hj
  refine ⟨hj.lt_length, ?_⟩
  rcases hc with rfl | rfl
  · simpa using (List.getElem?_eq_some_iff.1 hm).1
  · simpa using (List.getElem?_eq_some_iff.1 hn).1

/-- No node is a child twice: a node in the structure is no child yet, and the two nodes a pass takes are different. -/
structure OneParent (ns : List Node) : Prop where
  children_ne : ∀ j w c0 c1, InternalAt ns j w c0 c1 → c0 ≠ c1
  not_queued : ∀ j i x, IsChild ns j i → ¬ Queued ns i x
  unique : ∀ j j' i, IsChild ns j i → IsChild ns j' i → j = j'

theorem not_isChild_leafNodes (h : Vector Counter 256) (j i : Nat) : ¬ IsChild (leafNodes h) j i :=
  fun ⟨w, c0, c1, hj, _⟩ => not_internalAt_leafNodes h j w c0 c1 hj

theorem oneParent_leafNodes (h : Vector Counter 256) : OneParent (leafNodes h) where
  children_ne j w c0 c1 hj := absurd hj (not_internalAt_leafNodes h j w c0 c1)
  not_queued j i _ hc := absurd hc (not_isChild_leafNodes h j i)
  unique j _ i hc := absurd hc (not_isChild_leafNodes h j i)

theorem OneParent.mergePass {h : Vector Counter 256} {ns : List Node} {a b : Nat} {m n : Node} (ha : Arena h ns)
    (ht : Takes ns a b m n) (hp : OneParent ns) : OneParent (mergePass ns) := by
  have taken : ∀ j i, IsChild ns j i → ¬ (i = a ∨ i = b) := by
    rintro j i hc (rfl | rfl)
    · exact hp.not_queued j _ m hc ht.first
    · exact hp.not_queued j _ n hc ht.second
  constructor
  · intro j w c0 c1 hj
    rcases ht.internalAt_mergePass.1 hj with hold | ⟨-, -, rfl, rfl⟩
    · exact hp.children_ne j w c0 c1 hold
    · intro he
      have := congrArg BitVec.toNat he
      rw [ha.toNat_index ht.first.lt_length, ha.toNat_index ht.second.lt_length] at this
      exact ht.ne this
  · intro j i x hc hx
    rcases (ht.isChild_mergePass ha).1 hc with hold | ⟨-, hi⟩
    · rcases ht.queued_mergePass hx with ⟨-, -, hq⟩ | ⟨rfl, -⟩
      · exact hp.not_queued j i x hold hq
      · exact absurd (ha.isChild_lt_length hold).2 (lt_irrefl _)
    · have := ht.first.lt_length
      have := ht.second.lt_length
      rcases ht.queued_mergePass hx with ⟨hia, hib, -⟩ | ⟨rfl, -⟩ <;> omega
  · intro j j' i hc hc'
    rcases (ht.isChild_mergePass ha).1 hc with hold | ⟨rfl, hi⟩ <;>
      rcases (ht.isChild_mergePass ha).1 hc' with hold' | ⟨rfl, hi'⟩
    · exact hp.unique j j' i hold hold'
    · exact absurd hi' (taken j i hold)
    · exact absurd hi (taken j' i hold')
    · rfl

theorem buildNodes_oneParent {h : Vector Counter 256} (hk : leafSyms h ≠ []) : OneParent (buildNodes h) :=
  buildNodes_induction hk (oneParent_leafNodes h) fun _ _ _ _ _ ha ht hp => hp.mergePass ha ht

/-! ## Ascending weights -/

/-- The greedy order: no merge made so far weighs more than any merge still possible, so the merges' weights ascend. -/
structure Greedy (ns : List Node) : Prop where
  le_add : ∀ j w c0 c1, InternalAt ns j w c0 c1 → ∀ i i' x x', Queued ns i x → Queued ns i' x' → i ≠ i' →
    w.toNat ≤ x.w.toNat + x'.w.toNat
  mono : ∀ i j v c0 c1 w d0 d1, InternalAt ns i v c0 c1 → InternalAt ns j w d0 d1 → i ≤ j → v.toNat ≤ w.toNat

theorem greedy_leafNodes (h : Vector Counter 256) : Greedy (leafNodes h) where
  le_add j w c0 c1 hj := absurd hj (not_internalAt_leafNodes h j w c0 c1)
  mono i _ v c0 c1 _ _ _ hi := absurd hi (not_internalAt_leafNodes h i v c0 c1)

/-- The two nodes a pass takes weigh no more than any two nodes in the structure after it. -/
theorem Takes.add_le {h : Vector Counter 256} {ns : List Node} {a b : Nat} {m n : Node} (ha : Arena h ns)
    (ht : Takes ns a b m n) {i i' : Nat} {x x' : Node} (hx : Queued (mergePass ns) i x)
    (hx' : Queued (mergePass ns) i' x') (hne : i ≠ i') : m.w.toNat + n.w.toNat ≤ x.w.toNat + x'.w.toNat := by
  have hsum := ht.toNat_add ha
  rcases ht.queued_mergePass hx with ⟨hia, -, hq⟩ | ⟨rfl, hw⟩
  · rcases ht.queued_mergePass hx' with ⟨-, -, hq'⟩ | ⟨-, hw'⟩
    · exact (Nat.add_comm _ _).trans_le (Nat.add_le_add (ht.second_le i x hq hia) (ht.first_le i' x' hq'))
    · rw [hw', hsum]
      exact Nat.le_add_left _ _
  · rw [hw, hsum]
    exact Nat.le_add_right _ _

theorem Greedy.mergePass {h : Vector Counter 256} {ns : List Node} {a b : Nat} {m n : Node} (ha : Arena h ns)
    (ht : Takes ns a b m n) (hg : Greedy ns) : Greedy (mergePass ns) := by
  have hsum := ht.toNat_add ha
  have old_le : ∀ j w c0 c1, InternalAt ns j w c0 c1 → w.toNat ≤ m.w.toNat + n.w.toNat := fun j w c0 c1 hj =>
    hg.le_add j w c0 c1 hj a b m n ht.first ht.second ht.ne
  constructor
  · intro j w c0 c1 hj i i' x x' hx hx' hne
    refine le_trans ?_ (ht.add_le ha hx hx' hne)
    rcases ht.internalAt_mergePass.1 hj with hold | ⟨-, rfl, -, -⟩
    · exact old_le j w c0 c1 hold
    · exact hsum.le
  · intro i j v c0 c1 w d0 d1 hi hj hij
    rcases ht.internalAt_mergePass.1 hj with hjold | ⟨-, rfl, -, -⟩
    · rcases ht.internalAt_mergePass.1 hi with hiold | ⟨rfl, -⟩
      · exact hg.mono i j v c0 c1 w d0 d1 hiold hjold hij
      · exact absurd hjold.lt_length (by omega)
    · rw [hsum]
      rcases ht.internalAt_mergePass.1 hi with hiold | ⟨-, rfl, -, -⟩
      · exact old_le i v c0 c1 hiold
      · exact hsum.le

theorem buildNodes_greedy {h : Vector Counter 256} (hk : leafSyms h ≠ []) : Greedy (buildNodes h) :=
  buildNodes_induction hk (greedy_leafNodes h) fun _ _ _ _ _ ha ht hg => hg.mergePass ha ht

/-! ## The shape -/

theorem Arena.exists_internalAt {h : Vector Counter 256} {ns : List Node} (ha : Arena h ns) {i : Nat}
    (hi : (leafSyms h).length ≤ i) (hlt : i < ns.length) : ∃ w c0 c1, InternalAt ns i w c0 c1 := by
  have hn := List.getElem?_eq_getElem hlt
  cases e : ns[i] with
  | internal w c0 c1 q => exact ⟨w, c0, c1, internalAt_iff.2 ⟨q, by rw [hn, e]⟩⟩
  | leaf w b q =>
    have hsym := ha.leaf_iff.1 ⟨w, q, by rw [hn, e]⟩
    exact absurd (List.getElem?_eq_some_iff.1 hsym).1 (by omega)

/-- Once one node is left in the structure, every node but the last has been taken from it. -/
theorem Arena.inq_of_not_last {h : Vector Counter 256} {ns : List Node} (ha : Arena h ns) (hl : (live ns).length = 1)
    {i : Nat} {n : Node} (hn : ns[i]? = some n) (hi : i + 1 < ns.length) : n.inq = false := by
  obtain ⟨ms, x, rfl, hx⟩ := ha.last
  have hms : live ms = [] := by simpa [live_append, live, hx] using hl
  rw [List.length_append, List.length_singleton] at hi
  rw [List.getElem?_append_left (by omega)] at hn
  exact live_eq_nil.1 hms n (List.mem_of_getElem? hn)

/-- A node is a child of those nodes that have it as a branch; a leaf has the sentinel for both (R27). -/
theorem isChild_iff_branch {ns : List Node} {j i : Nat} (hi : i < 511) :
    IsChild ns j i ↔ ∃ n : Node, ns[j]? = some n ∧ (n.c0.toNat = i ∨ n.c1.toNat = i) := by
  rw [isChild_iff]
  constructor
  · rintro ⟨w, c0, c1, hj, hc⟩
    obtain ⟨q, hj⟩ := internalAt_iff.1 hj
    exact ⟨_, hj, hc⟩
  · rintro ⟨n, hn, hc⟩
    cases n with
    | internal w c0 c1 q => exact ⟨w, c0, c1, internalAt_iff.2 ⟨q, hn⟩, hc⟩
    | leaf w b q =>
      have hnone : Idx.none.toNat = i := hc.elim id id
      exact absurd hnone hi.ne'

theorem existsUnique_parent {h : Vector Counter 256} (hk : leafSyms h ≠ []) {i : Nat}
    (hi : i + 1 < (buildNodes h).length) : ∃! j, IsChild (buildNodes h) j i := by
  obtain ⟨ha, hl⟩ := buildNodes_arena hk
  have hn := List.getElem?_eq_getElem (Nat.lt_of_succ_lt hi)
  obtain ⟨j, hj⟩ := (buildNodes_linked hk).parent i _ hn (ha.inq_of_not_last hl hn hi)
  exact ⟨j, hj, fun j' hj' => (buildNodes_oneParent hk).unique j' j i hj' hj⟩

theorem children_lt_of_internalAt {h : Vector Counter 256} (hk : leafSyms h ≠ []) {i : Nat} {w : Weight} {c0 c1 : Idx}
    (hi : InternalAt (buildNodes h) i w c0 c1) : c0.toNat < i ∧ c1.toNat < i :=
  have before := (buildNodes_linked hk).before i
  ⟨before _ ⟨w, c0, c1, hi, .inl rfl⟩, before _ ⟨w, c0, c1, hi, .inr rfl⟩⟩

theorem weightAt_buildNodes_mono {h : Vector Counter 256} (hk : leafSyms h ≠ []) {i j : Nat}
    (hi : (leafSyms h).length ≤ i) (hij : i ≤ j) (hj : j < (buildNodes h).length) :
    (weightAt (buildNodes h) i).toNat ≤ (weightAt (buildNodes h) j).toNat := by
  have ha := (buildNodes_arena hk).1
  obtain ⟨v, c0, c1, hv⟩ := ha.exists_internalAt hi (by omega)
  obtain ⟨w, d0, d1, hw⟩ := ha.exists_internalAt (hi.trans hij) hj
  rw [weightAt_of_plain hv, weightAt_of_plain hw]
  exact (buildNodes_greedy hk).mono i j v c0 c1 w d0 d1 hv hw hij

/-- Settles O25: the leaves keep their places, and `Linked`, `OneParent` and `Greedy` hold of the tree. -/
theorem treeShape : Obligations.TreeShape := by
  rintro h ⟨b₀, hb₀⟩
  have hk := leafSyms_ne_nil hb₀
  have hpos := List.length_pos_iff.2 hk
  have hcount := length_leafSyms_le h
  have hlen := length_buildNodes hk
  have hroot := toNat_rootOf hk
  simp only [length_leafNodes]
  refine ⟨hpos, hcount, by omega, by omega, fun i hi => ?_, fun i hi hlt => ?_, fun j hj => ?_, fun i j hi hij hj => ?_⟩
  · have hb : (leafSyms h)[i]? = some (leafSyms h)[i] := List.getElem?_eq_getElem hi
    obtain ⟨q, hn⟩ := exists_leaf_buildNodes hb
    exact ⟨_, q, hb, hn⟩
  · obtain ⟨w, c0, c1, hn⟩ := (buildNodes_arena hk).1.exists_internalAt hi (by omega)
    obtain ⟨h0, h1⟩ := children_lt_of_internalAt hk hn
    obtain ⟨q, hq⟩ := internalAt_iff.1 hn
    exact ⟨w, c0, c1, q, hq, h0, h1, (buildNodes_oneParent hk).children_ne i w c0 c1 hn⟩
  · simpa only [isChild_iff_branch (show j < 511 by omega)] using existsUnique_parent hk (i := j) (by omega)
  · exact weightAt_buildNodes_mono hk hi hij (by omega)

end Sys2Proof.Machine
end

section
/-!
Stage BUILD as a step of the machine (spec/42_tree_builder.md R120, R130): the registers it writes, the entries it keeps, and where
it goes in either command.
-/

namespace Sys2Proof.Machine

/-- There is no tree exactly where there is no counter to count (R122). -/
theorem buildNodes_eq_nil {h : Vector Counter 256} : buildNodes h = [] ↔ ∀ b, histAt h b = 0 := by
  constructor
  · intro hnil b
    by_contra hb
    exact buildNodes_ne_nil (leafSyms_ne_nil hb) hnil
  · intro hzero
    by_contra hne
    obtain ⟨b, hb⟩ := List.exists_mem_of_ne_nil _ (leafSyms_ne_nil_of_tree hne)
    exact mem_leafSyms.1 hb (hzero b)

/-- Every arena fits `NODE`, the empty one too. -/
theorem length_buildNodes_le (h : Vector Counter 256) : (buildNodes h).length ≤ 511 := by
  by_cases hnil : buildNodes h = []
  · simp [hnil]
  · exact (buildNodes_arena (leafSyms_ne_nil_of_tree hnil)).1.length_le

theorem toNat_build_nnode (s : State) : s.build.nnode.toNat = (buildNodes s.hist).length := by
  have := length_buildNodes_le s.hist
  rw [State.build_nnode, BitVec.toNat_ofNat, Nat.mod_eq_of_lt (by omega)]

/-- A store keeps the entries after the nodes it stores. -/
theorem getElem?_storeNodes_of_le {ns : List Node} {i : Nat} (hi : ns.length ≤ i) (v : Vector Node 511) :
    (storeNodes ns v)[i]? = v[i]? := by
  by_cases hlt : i < 511
  · rw [getElem?_storeNodes ns v i hlt, List.getElem?_eq_none hi, Option.getD_none, Vector.getElem?_eq_getElem hlt]
  · rw [Vector.getElem?_eq_none (by omega), Vector.getElem?_eq_none (by omega)]

theorem build_node_of_nnode_le {s : State} {i : Nat} (hi : s.build.nnode.toNat ≤ i) : s.build.node[i]? = s.node[i]? := by
  rw [toNat_build_nnode] at hi
  rw [State.build_node, getElem?_storeNodes_of_le hi]

theorem build_root_eq_none {s : State} : s.build.root = Idx.none ↔ ∀ b, histAt s.hist b = 0 := by
  rw [State.build_root, rootOf_buildNodes_eq_none, buildNodes_eq_nil]

theorem exec_build_of_decompress {s : State} (ho : s.op = .decompress) :
    exec .build s = .next (if s.build.root = Idx.none then s.build.finish else s.build.goto .dSum) := by
  simp only [exec, execBuild, ho]
  split <;> rfl

/-- Settles O22: `BUILD` goes on from `State.build`, or ends there where `ROOT` is `NONE`, that is without a counter. -/
theorem buildFrame : Obligations.BuildFrame := by
  intro s
  refine ⟨fun ho => ?_, fun ho hb => ?_, fun ho hz => ?_⟩
  · exact ⟨_, exec_build_of_compress ho, rfl, rfl, rfl, rfl, rfl, fun i hi => build_node_of_nnode_le hi⟩
  · have hroot : s.build.root ≠ Idx.none := by
      rw [Ne, build_root_eq_none, not_forall]
      exact hb
    have hexec := exec_build_of_decompress ho
    rw [if_neg hroot] at hexec
    exact ⟨_, hexec, rfl, rfl, rfl, rfl, rfl, hroot, fun i hi => build_node_of_nnode_le hi⟩
  · have hexec := exec_build_of_decompress ho
    rw [if_pos (build_root_eq_none.2 hz)] at hexec
    have hended : EndedOk s s.build.finish := ⟨rfl, rfl, rfl, rfl, rfl, rfl, rfl, rfl, rfl⟩
    exact ⟨_, hexec, hended, rfl, rfl⟩

/-- The entries below `NNODE` are the nodes of the histogram's arena, whatever `NODE` held before. -/
theorem nodeAt_build {s : State} {i : Idx} (hi : i.toNat < s.build.nnode.toNat) :
    nodeAt s.build.node i = (buildNodes s.hist)[i.toNat]? := by
  rw [toNat_build_nnode] at hi
  rw [State.build_node, nodeAt_storeNodes (length_buildNodes_le s.hist) hi]

/-- Settles O27: the registers and the nodes are those of `buildNodes`, a function of the histogram. -/
theorem buildReadsOnlyHist : Obligations.BuildReadsOnlyHist := by
  intro s t hst
  have hnnode : s.build.nnode = t.build.nnode := by rw [State.build_nnode, State.build_nnode, hst]
  refine ⟨by rw [State.build_nleaf, State.build_nleaf, hst], hnnode, by rw [State.build_root, State.build_root, hst], ?_⟩
  intro i hi
  rw [nodeAt_build hi, nodeAt_build (hnnode ▸ hi), hst]

end Sys2Proof.Machine
end

section
/-!
Stage GEN (spec/43_code_generator.md R140 to R145): its step, the codes it assigns, and the code set, which is prefix-free, of
bounded lengths and complete.
-/

namespace Sys2Proof.Machine

/-! ## The step (R140) -/

theorem exec_gen (s : State) : exec .gen s = .next s.afterGen := rfl

theorem afterGen_code (s : State) :
    s.afterGen.code = storeCodes (codesOf (nodeAt s.node) s.nleaf s.root) s.code := rfl

/-- Settles O28: `State.afterGen` is the state with a new code table, at `C_HEADER`. -/
theorem genFrame : Obligations.GenFrame := fun s => ⟨s.afterGen, exec_gen s, rfl⟩

/-! ## The codes assigned (R141, R142) -/

theorem leadsTo_of_mem_codesOf {node : Idx → Option Node} {nleaf root : Idx} (h0 : nleaf ≠ 0) (h1 : nleaf ≠ 1) {b : Byte}
    {c : Code} (hc : (b, c) ∈ codesOf node nleaf root) : LeadsTo node root c b := by
  rw [codesOf, if_neg h0, if_neg h1] at hc
  obtain ⟨p, rfl, -, hp⟩ := mem_visit.1 hc
  exact hp

/-- From a `NODE` that `BUILD` has written `GEN` takes the codes of the histogram's tree. -/
theorem codesOf_build {s : State} (hk : leafSyms s.hist ≠ []) :
    codesOf (nodeAt s.build.node) s.build.nleaf s.build.root = treeCodes s.hist := by
  rw [State.build_node, State.build_nleaf, State.build_root, (buildNodes_arena hk).1.codesOf_nodeAt, treeCodes]

theorem toNat_build_nleaf (s : State) : s.build.nleaf.toNat = (leafSyms s.hist).length := by
  have := length_leafSyms_le s.hist
  rw [State.build_nleaf, length_leafNodes, BitVec.toNat_ofNat, Nat.mod_eq_of_lt (by omega)]

/-- A path in the tree leads to no byte value but those with a counter. -/
theorem histAt_ne_zero_of_leadsTo {h : Vector Counter 256} (hk : leafSyms h ≠ []) {i : Idx} {p : List Bool} {b : Byte}
    (hp : LeadsTo (listNode (buildNodes h)) i p b) : histAt h b ≠ 0 := by
  obtain ⟨l, w, q, -, hl⟩ := hp
  exact mem_leafSyms.1 (List.mem_of_getElem? ((buildNodes_arena hk).1.leaf_iff.1 ⟨w, q, hl⟩))

/-- Only byte values with a counter get a code. -/
theorem histAt_ne_zero_of_mem_treeCodes {h : Vector Counter 256} (hk : leafSyms h ≠ []) {b : Byte} {c : Code}
    (hc : (b, c) ∈ treeCodes h) : histAt h b ≠ 0 := by
  obtain ⟨a, ha⟩ := List.exists_mem_of_ne_nil _ hk
  rcases leafSyms_cases (mem_leafSyms.1 ha) with hs | h2
  · rw [treeCodes_of_single hs, List.mem_singleton] at hc
    cases hc
    exact mem_leafSyms.1 ha
  · exact histAt_ne_zero_of_leadsTo hk ((mem_treeCodes h2).1 hc).2

/-- Settles O29: what `GEN` stores are the codes of `codesOf`, which in a tree of two leaves or more are paths to leaves. -/
theorem genAssignsPaths : Obligations.GenAssignsPaths := by
  rintro s ⟨b₀, hb₀⟩
  have hk := leafSyms_ne_nil hb₀
  have hcodes := codesOf_build hk
  have coded : ∀ b, histAt s.hist b ≠ 0 →
      (b, codeAt s.build.afterGen.code b) ∈ codesOf (nodeAt s.build.node) s.build.nleaf s.build.root := fun b hb =>
    mem_of_storeCodes _ (by rw [hcodes]; exact exists_mem_treeCodes hb)
  refine ⟨_, exec_gen s.build, fun b hb => ?_, fun h2 b hb => ?_, fun h1 b hb => ?_⟩
  · rw [afterGen_code, hcodes]
    refine codeAt_storeCodes_of_not_mem _ fun c hc hcb => ?_
    exact histAt_ne_zero_of_mem_treeCodes hk hc (hcb ▸ hb)
  · rw [toNat_build_nleaf, ← length_leafNodes] at h2
    obtain ⟨h0, h1⟩ := nleaf_ne h2 (by simpa using length_leafSyms_le s.hist)
    exact leadsTo_of_mem_codesOf h0 h1 (coded b hb)
  · have hone : (leafSyms s.hist).length = 1 := by rw [← toNat_build_nleaf, h1]; rfl
    have hs : leafSyms s.hist = [b] := (leafSyms_cases hb).resolve_right (by omega)
    have hmem := coded b hb
    rw [hcodes, treeCodes_of_single hs, List.mem_singleton] at hmem
    exact congrArg Prod.snd hmem

/-! ## Prefix-free (R144) -/

/-- A path that has come to a leaf leads no further. -/
theorem eq_of_leadsTo_append {node : Idx → Option Node} {i : Idx} {p r : List Bool} {a b : Byte}
    (ha : LeadsTo node i p a) (hb : LeadsTo node i (p ++ r) b) : r = [] ∧ b = a := by
  obtain ⟨l, w, q, hl, hleaf⟩ := ha
  rw [LeadsTo, follow_append hl] at hb
  exact (leadsTo_of_leaf hleaf).1 hb

/-- Settles O30: two counters make two leaves, and a path to a leaf is no part of a path to another one. -/
theorem codesPrefixFree : Obligations.CodesPrefixFree := by
  rintro h a b ha hb hab ⟨r, hr⟩
  have h2 : 2 ≤ (leafSyms h).length := by
    refine (leafSyms_cases ha).resolve_left fun hs => hab ?_
    have hmem := mem_leafSyms.2 hb
    rw [hs, List.mem_singleton] at hmem
    exact hmem.symm
  have hpath := leadsTo_codeAt h2 hb
  rw [← hr] at hpath
  exact hab (eq_of_leadsTo_append (leadsTo_codeAt h2 ha) hpath).2.symm

/-! ## One path to each node -/

theorem follow_concat {node : Idx → Option Node} {i l : Idx} {p : List Bool} {bit : Bool}
    (h : follow node i (p ++ [bit]) = some l) :
    ∃ j w c0 c1 q, follow node i p = some j ∧ node j = some (.internal w c0 c1 q) ∧ (if bit then c1 else c0) = l := by
  induction p generalizing i with
  | nil =>
    rw [List.nil_append, follow] at h
    split at h
    · exact ⟨i, _, _, _, _, rfl, ‹_›, Option.some.inj h⟩
    · cases h
  | cons bit' p ih =>
    rw [List.cons_append, follow] at h
    split at h
    · rename_i hi
      simp only [follow, hi]
      exact ih h
    · cases h

theorem not_isChild_rootOf {h : Vector Counter 256} (hk : leafSyms h ≠ []) (j : Nat) :
    ¬ IsChild (buildNodes h) j (rootOf (buildNodes h)).toNat := by
  intro hc
  have hlt := (buildNodes_arena hk).1.isChild_lt_length hc
  have hbefore := (buildNodes_linked hk).before _ _ hc
  have := toNat_rootOf hk
  omega

/-- A path with a bit does not lead back to the root. -/
theorem follow_concat_ne_root {h : Vector Counter 256} (hk : leafSyms h ≠ []) {i : Idx} (p : List Bool) (bit : Bool) :
    follow (listNode (buildNodes h)) i (p ++ [bit]) ≠ some (rootOf (buildNodes h)) := by
  intro hp
  obtain ⟨j, w, c0, c1, q, -, hj, hc⟩ := follow_concat hp
  exact not_isChild_rootOf hk j.toNat (hc ▸ isChild_of_internal hj bit)

theorem OneParent.bit_unique {ns : List Node} (ho : OneParent ns) {j : Nat} {w : Weight} {c0 c1 : Idx} {q : Bool}
    (hj : ns[j]? = some (.internal w c0 c1 q)) {bit bit' : Bool}
    (hc : (if bit then c1 else c0) = if bit' then c1 else c0) : bit = bit' := by
  have hne : c0 ≠ c1 := ho.children_ne j w c0 c1 (internalAt_iff.2 ⟨q, hj⟩)
  match bit, bit', hc with
  | false, false, _ => rfl
  | true, true, _ => rfl
  | false, true, hc => exact absurd hc hne
  | true, false, hc => exact absurd hc.symm hne

/-- Every node has one parent, so one path alone leads to it from the root. -/
theorem follow_root_injective {h : Vector Counter 256} (hk : leafSyms h ≠ []) {p p' : List Bool} {l : Idx}
    (hp : follow (listNode (buildNodes h)) (rootOf (buildNodes h)) p = some l)
    (hp' : follow (listNode (buildNodes h)) (rootOf (buildNodes h)) p' = some l) : p = p' := by
  have ho := buildNodes_oneParent hk
  induction p using List.reverseRecOn generalizing p' l with
  | nil =>
    cases hp
    rcases List.eq_nil_or_concat' p' with rfl | ⟨r, bit, rfl⟩
    · rfl
    · exact absurd hp' (follow_concat_ne_root hk r bit)
  | append_singleton p bit ih =>
    rcases List.eq_nil_or_concat' p' with rfl | ⟨p', bit', rfl⟩
    · cases hp'
      exact absurd hp (follow_concat_ne_root hk p bit)
    · obtain ⟨j, w, c0, c1, q, hj, hn, hc⟩ := follow_concat hp
      obtain ⟨j', w', d0, d1, q', hj', hn', hc'⟩ := follow_concat hp'
      obtain rfl : j = j' := BitVec.eq_of_toNat_eq
        (ho.unique _ _ l.toNat (hc ▸ isChild_of_internal hn bit) (hc' ▸ isChild_of_internal hn' bit'))
      cases hn.symm.trans hn'
      rw [ih hj hj', ho.bit_unique hn (hc.trans hc'.symm)]

theorem leadsTo_root_injective {h : Vector Counter 256} (hk : leafSyms h ≠ []) {p p' : List Bool} {b : Byte}
    (hp : LeadsTo (listNode (buildNodes h)) (rootOf (buildNodes h)) p b)
    (hp' : LeadsTo (listNode (buildNodes h)) (rootOf (buildNodes h)) p' b) : p = p' := by
  have hb := mem_leafSyms.2 (histAt_ne_zero_of_leadsTo hk hp)
  obtain ⟨l, w, q, hl, hleaf⟩ := hp
  obtain ⟨l', w', q', hl', hleaf'⟩ := hp'
  obtain rfl : l = l' := ((buildNodes_arena hk).1.existsUnique_leaf hb).unique ⟨w, q, hleaf⟩ ⟨w', q', hleaf'⟩
  exact follow_root_injective hk hl hl'

/-! ## The code set, symbol by symbol -/

/-- The traversal lists no code twice. -/
theorem nodup_visit (node : Idx → Option Node) (d : Nat) (i : Idx) (path : List Bool) : (visit node d i path).Nodup := by
  induction d generalizing i path with
  | zero =>
    rw [visit]
    split <;> simp
  | succ d ih =>
    rw [visit]
    split
    · exact List.nodup_singleton _
    · refine (ih _ _).append (ih _ _) ?_
      rintro ⟨b, c⟩ h0 h1
      obtain ⟨p, rfl, -⟩ := mem_visit.1 h0
      obtain ⟨p', he, -⟩ := mem_visit.1 h1
      simp at he
    · exact List.nodup_nil

/-- With two leaves or more the codes assigned are, each once, those of the byte values with a counter. -/
theorem treeCodes_perm {h : Vector Counter 256} (h2 : 2 ≤ (leafSyms h).length) :
    (treeCodes h).Perm ((leafSyms h).map fun b => (b, codeAt (codeTable h) b)) := by
  have hk : leafSyms h ≠ [] := List.ne_nil_of_length_pos (by omega)
  have hnodup : (treeCodes h).Nodup := treeCodes_of_two_le h2 ▸ nodup_visit _ _ _ _
  have hnodup' : ((leafSyms h).map fun b => (b, codeAt (codeTable h) b)).Nodup :=
    (nodup_leafSyms h).map fun a b hab => congrArg Prod.fst hab
  refine (List.perm_ext_iff_of_nodup hnodup hnodup').2 fun ⟨b, c⟩ => ?_
  simp only [List.mem_map, mem_leafSyms, Prod.mk.injEq]
  constructor
  · intro hc
    have hp := ((mem_treeCodes h2).1 hc).2
    have hb := histAt_ne_zero_of_leadsTo hk hp
    exact ⟨b, hb, rfl, leadsTo_root_injective hk (leadsTo_codeAt h2 hb) hp⟩
  · rintro ⟨b, hb, rfl, rfl⟩
    exact mem_treeCodes_codeAt hb

/-! ## Lengths (R131, R145) -/

theorem length_codeAt_codeTable_lt {h : Vector Counter 256} (h2 : 2 ≤ (leafSyms h).length) {b : Byte}
    (hb : histAt h b ≠ 0) : (codeAt (codeTable h) b).length < (leafSyms h).length := by
  have hk := leafSyms_ne_nil hb
  have hnodes := length_buildNodes hk
  have hroot := toNat_rootOf hk
  obtain ⟨l, w, q, hl, -⟩ := leadsTo_codeAt h2 hb
  rcases (buildNodes_arena hk).1.length_follow_le (buildNodes_linked hk) hl with hnil | hle
  · rw [hnil, List.length_nil]
    omega
  · omega

/-! ## Completeness (R145) -/

/-- The sum of `2^(-len)` over the codes, times `2^m`. -/
def kraftSum (m : Nat) (cs : List (Byte × Code)) : Nat := (cs.map fun c => 2 ^ (m - c.2.length)).sum

theorem kraftSum_append (m : Nat) (cs ds : List (Byte × Code)) :
    kraftSum m (cs ++ ds) = kraftSum m cs + kraftSum m ds := by
  rw [kraftSum, List.map_append, List.sum_append]
  rfl

theorem kraftSum_singleton (m : Nat) (c : Byte × Code) : kraftSum m [c] = 2 ^ (m - c.2.length) := List.sum_singleton

/-- The codes under a node that `path` leads to share out `2^(-|path|)`: an internal node halves it between its children. A
child stands before its parent, so the `d` bits left suffice to come down among the leaves, which stand first. -/
theorem Arena.kraftSum_visit {h : Vector Counter 256} {ns : List Node} (ha : Arena h ns) (hk : Linked ns) {m d : Nat}
    {i : Idx} {path : List Bool} (hi : i.toNat < ns.length) (hd : i.toNat < (leafSyms h).length + d)
    (hm : path.length + d ≤ m) : kraftSum m (visit (listNode ns) d i path) = 2 ^ (m - path.length) := by
  induction d generalizing i path with
  | zero =>
    obtain ⟨w, q, hleaf⟩ := ha.leaf_iff.2 (List.getElem?_eq_getElem hd)
    rw [visit, listNode, hleaf]
    exact kraftSum_singleton m _
  | succ d ih =>
    have hn : listNode ns i = some ns[i.toNat] := List.getElem?_eq_getElem hi
    rw [visit, hn]
    cases e : ns[i.toNat] with
    | leaf w b q => exact kraftSum_singleton m _
    | internal w c0 c1 q =>
      rw [e] at hn
      have child : ∀ bit : Bool, kraftSum m (visit (listNode ns) d (if bit then c1 else c0) (path ++ [bit])) =
          2 ^ (m - (path.length + 1)) := by
        intro bit
        have hbefore := hk.before _ _ (isChild_of_internal hn bit)
        have := ih (i := if bit then c1 else c0) (path := path ++ [bit]) (by omega) (by omega) (by simp; omega)
        rwa [List.length_append] at this
      calc
        kraftSum m (visit (listNode ns) d c0 (path ++ [false]) ++ visit (listNode ns) d c1 (path ++ [true]))
          = 2 ^ (m - (path.length + 1)) + 2 ^ (m - (path.length + 1)) := by
            rw [kraftSum_append]
            exact congrArg₂ (· + ·) (child false) (child true)
        _ = 2 ^ (m - (path.length + 1) + 1) := by rw [pow_succ, mul_two]
        _ = 2 ^ (m - path.length) := by congr 1; omega

theorem kraftSum_treeCodes {h : Vector Counter 256} (h2 : 2 ≤ (leafSyms h).length) :
    kraftSum 255 (treeCodes h) = 2 ^ 255 := by
  have hk : leafSyms h ≠ [] := List.ne_nil_of_length_pos (by omega)
  have hnodes := length_buildNodes hk
  have hroot := toNat_rootOf hk
  have hcount := length_leafSyms_le h
  rw [treeCodes_of_two_le h2]
  exact (buildNodes_arena hk).1.kraftSum_visit (buildNodes_linked hk) (by omega) (by omega) (Nat.zero_add _).le

/-- Settles O31: each bit of a path leads further down among the `k - 1` internal nodes, which gives the bounds; the sum is the
traversal's, as `treeCodes` lists each symbol's code once. -/
theorem codeLengths : Obligations.CodeLengths := by
  intro h
  rw [length_leafNodes]
  refine ⟨fun h2 => ⟨fun b hb => ?_, ?_⟩, fun h1 b hb => ?_⟩
  · exact ⟨one_le_length_codeAt_codeTable hb, Nat.le_sub_one_of_lt (length_codeAt_codeTable_lt h2 hb),
      length_codeAt_codeTable_le hb⟩
  · have hsum := ((treeCodes_perm h2).map fun c => 2 ^ (255 - c.2.length)).sum_eq
    rw [List.map_map] at hsum
    exact hsum.symm.trans (kraftSum_treeCodes h2)
  · rw [codeAt_codeTable_of_single ((leafSyms_cases hb).resolve_right (by omega))]
    rfl

end Sys2Proof.Machine
end

section
/-!
Stages C_HEADER, C_VALID and C_PACK one by one (spec/44_encoder.md R151 to R157): what each appends, its frame, and `NB` at the
end of the packing loop.
-/

namespace Sys2Proof.Machine

/-! ## C_HEADER (R151) -/

/-- Where `C_HEADER` goes on to `C_VALID`, nothing else than `OUT` has changed (R94). -/
theorem exec_cHeader_frame {s t : State} (h : exec .cHeader s = .next t) :
    t = { s with outMem := t.outMem, outLen := t.outLen, phase := .cValid } := by
  obtain ⟨u, hu, hgoto⟩ := andThen_eq_next.1 h
  obtain ⟨-, rfl⟩ := emitAll_eq_next.1 hu
  cases hgoto
  rfl

/-- Settles O32: the header is appended from address 0, where its byte `8n + b` is byte `b` of counter `n`. -/
theorem cHeaderWrites : Obligations.CHeaderWrites := by
  intro s hout hroom
  have hout' : s.outLen.toNat = 0 := by rw [hout]; rfl
  have hroom' : 2048 ≤ s.outCap.toNat := hroom
  obtain ⟨t, ht, -, happ, -, -⟩ := exec_cHeader_of_room (s := s) (by omega)
  obtain ⟨hlen, hwritten, hothers⟩ := happ
  simp only [hout', length_headerBytes, Nat.zero_add] at hlen hwritten hothers
  refine ⟨t, ht, ?_, fun n b hn hb => ?_, fun a ha => hothers a (.inr ha)⟩
  · have hlen' : t.outLen = 2048 := BitVec.eq_of_toNat_eq hlen
    rw [← hlen']
    exact exec_cHeader_frame ht
  · rw [hwritten _ (by omega), getElem?_headerBytes _ hn hb]
    rfl

/-! ## C_VALID (R152, R153) -/

/-- Settles O33: the codes of a histogram have 1 to 255 bits, so no sum of their lengths wraps (R6). -/
theorem totalBitsIsBodyLength : Obligations.TotalBitsIsBodyLength := by
  intro bytes _ hlen
  have hcodes : ∀ b ∈ bytes, (codeAt (codeTable (histogram bytes)) b).length ≤ 255 := fun _ hb =>
    length_codeAt_codeTable_le (histAt_histogram_ne_zero hlen hb)
  exact ⟨toNat_totalBits hlen hcodes, length_le_length_bodyBits hlen, length_bodyBits_le hlen⟩

/-- Where `C_VALID` goes on to `C_PACK`, its two registers are set and nothing else than `OUT` has changed (R94). -/
theorem exec_cValid_frame {s t : State} (h : exec .cValid s = .next t) :
    t = { s with
      totBits := totalBits s.hist s.code
      vb := BitVec.ofNat 8 (validBitsOf (totalBits s.hist s.code).toNat)
      outMem := t.outMem, outLen := t.outLen, phase := .cPack } := by
  obtain ⟨u, hu, hgoto⟩ := andThen_eq_next.1 h
  obtain ⟨-, rfl⟩ := emit_eq_next.1 hu
  cases hgoto
  rfl

theorem validBitsOf_of_mod_eq_zero {n : Nat} (h : n % 8 = 0) : validBitsOf n = 8 := if_pos h

theorem validBitsOf_of_mod_ne_zero {n : Nat} (h : n % 8 ≠ 0) : validBitsOf n = n % 8 := if_neg h

/-- Settles O34: the frame gives `TOTBITS` and `VB`, which is the byte appended. -/
theorem cValidWrites : Obligations.CValidWrites := by
  intro s hroom
  obtain ⟨t, ht, -, happ, -⟩ := exec_cValid_of_room hroom
  have hframe := exec_cValid_frame ht
  have htot : t.totBits = totalBits s.hist s.code := by rw [hframe]
  have hvb : t.vb = BitVec.ofNat 8 (validBitsOf t.totBits.toNat) := by rw [htot, hframe]
  refine ⟨t, ht, ?_, fun h0 => ?_, fun h0 => ?_, ?_⟩
  · rw [hvb, htot]
    exact hframe
  · rw [hvb, validBitsOf_of_mod_eq_zero h0]
    rfl
  · rw [hvb, toNat_validBitsOf, validBitsOf_of_mod_ne_zero h0]
  · rw [hvb, htot]
    exact happ

/-! ## C_PACK (R154, R156, R157) -/

/-- `NB` counts the bits of the byte in the making. -/
theorem packBit_nb {b : Bool} {s t : State} {n : Nat} (h : packBit b s = .next t) (hs : s.nb.toNat = n % 8) :
    t.nb.toNat = (n + 1) % 8 := by
  by_cases hfull : s.nb + 1 = 8
  · have hmod : (n + 1) % 8 = 0 := by bv_omega
    obtain ⟨u, -, ht⟩ := andThen_eq_next.1 ((if_pos hfull).symm.trans h)
    cases ht
    exact hmod.symm
  · rw [packBit_of_ne b hfull] at h
    cases h
    show (s.nb + 1).toNat = _
    bv_omega

theorem packBits_nb {bs : List Bool} {s t : State} {n : Nat} (h : packBits bs s = .next t) (hs : s.nb.toNat = n % 8) :
    t.nb.toNat = (n + bs.length) % 8 := by
  induction bs generalizing s n with
  | nil =>
    cases h
    exact hs
  | cons b bs ih =>
    obtain ⟨u, hu, ht⟩ := andThen_eq_next.1 h
    rw [ih ht (packBit_nb hu hs), List.length_cons, Nat.add_assoc, Nat.add_comm 1]

theorem packBits_code {bs : List Bool} {s t : State} (h : packBits bs s = .next t) : t.code = s.code := by
  rw [packBits_frame h]

theorem packBytes_nb {bs : List Byte} {s t : State} {n : Nat} (h : packBytes bs s = .next t) (hs : s.nb.toNat = n % 8) :
    t.nb.toNat = (n + (bs.flatMap (codeAt s.code)).length) % 8 := by
  induction bs generalizing s n with
  | nil =>
    cases h
    exact hs
  | cons b bs ih =>
    obtain ⟨u, hu, ht⟩ := andThen_eq_next.1 h
    have hnb := packBits_nb hu hs
    have hrest := ih ht hnb
    rw [hrest, packBits_code hu, List.flatMap_cons, List.length_append, Nat.add_assoc]

/-- Settles O35: both sides are the length of the code string modulo 8. -/
theorem packerLeavesValidBits : Obligations.PackerLeavesValidBits := by
  intro s t hhist hcodes h
  rw [hhist, toNat_totalBits (length_inBytes_lt s) fun b _ => hcodes b, packBytes_nb (n := 0) h rfl, Nat.zero_add]

/-- Settles O36: the packer's run ends in `State.finish`, which keeps the input and `OUT`. -/
theorem cPackWrites : Obligations.CPackWrites := by
  intro s hfit hroom
  obtain ⟨u, hu, hin, happ⟩ := execCPack_of_room hfit hroom
  have hended : EndedOk s u.finish := ⟨rfl, rfl, rfl, hin.inLen, hin.inMem, hin.inCap, hin.outCap, hin.host, hin.era⟩
  exact ⟨u.finish, hu, hended, happ.congr rfl rfl⟩

end Sys2Proof.Machine
end

section
/-!
Stages D_CHECK, D_HEADER, D_VALID, D_SUM and D_WALK one by one (spec/45_decoder.md R171 to R186): what each changes and how it
ends, and what the walk over a list of bits emits.
-/

namespace Sys2Proof.Machine

/-! ## The two ends of an operation (R96, R204) -/

theorem endedOk_finish {s u : State} (h : SameInput s u) : EndedOk s u.finish :=
  ⟨rfl, rfl, rfl, h.inLen, h.inMem, h.inCap, h.outCap, h.host, h.era⟩

theorem outByte_raise (s : State) (e : ErrKind) (a : Nat) : (s.raise e).outByte a = none := if_neg (Nat.not_lt_zero a)

theorem endedErr_raise {s u : State} (h : SameInput s u) (e : ErrKind) : EndedErr s (u.raise e) e :=
  ⟨rfl, rfl, rfl, rfl, outByte_raise u e, h.inLen, h.inMem, h.inCap, h.outCap, h.host, h.era⟩

/-! ## D_CHECK (R171) -/

theorem exec_dCheck_of_zero {s : State} (h0 : s.inLen = 0) : exec .dCheck s = .next s.finish := if_pos h0

theorem exec_dCheck_of_short {s : State} (h0 : s.inLen ≠ 0) (h : s.inLen < 2049) :
    exec .dCheck s = .next (s.raise .malformedContainer) := (if_neg h0).trans (if_pos h)

theorem exec_dCheck_of_long {s : State} (h : 2049 ≤ s.inLen) :
    exec .dCheck s = .next { s with bodyLen := s.inLen - 2049, phase := .dHeader } :=
  (if_neg (by bv_omega)).trans (if_neg (BitVec.not_lt.2 h))

/-- Settles O37: one rule of `D_CHECK` for each range of `IN_LEN`. -/
theorem dCheckLength : Obligations.DCheckLength := by
  refine fun s => ⟨fun h0 => ?_, fun hlo hhi => ?_, fun hlong => ?_⟩
  · exact ⟨s.finish, exec_dCheck_of_zero h0, endedOk_finish (.refl s), rfl, rfl⟩
  · exact ⟨_, exec_dCheck_of_short (by bv_omega) (by bv_omega), endedErr_raise (.refl s) _⟩
  · exact ⟨_, exec_dCheck_of_long hlong, rfl, BitVec.toNat_sub_of_le hlong⟩

/-! ## D_HEADER (R172) -/

theorem exec_dHeader_of_room {s : State} (h : 2048 ≤ s.inCap) :
    exec .dHeader s = .next { s with hist := parseHeader s.inByte, phase := .dValid } := if_neg (BitVec.not_lt.2 h)

/-- Settles O38: `HIST` holds the parsed header, whose counters `headerRoundTrip` gives (R75). -/
theorem dHeaderParses : Obligations.DHeaderParses := by
  intro s hroom
  obtain ⟨-, hcounter, -, -⟩ := headerRoundTrip
  exact ⟨_, exec_dHeader_of_room hroom, rfl, hcounter s.inByte⟩

/-! ## D_VALID (R173) -/

theorem exec_dValid_of_room {s : State} (h : 2048 < s.inCap) :
    exec .dValid s = .next (if s.inByte 2048 < 1 ∨ 8 < s.inByte 2048
      then State.raise { s with vb := s.inByte 2048 } .malformedContainer
      else { s with vb := s.inByte 2048, phase := .build }) := by
  have hread : s.memReadIn Config.validBitsOffset = some (s.inByte 2048) := memReadIn_of_lt h
  simp only [exec, execDValid, hread]
  rfl

/-- Settles O39: the byte is below 1 or above 8, or it is `VB`. -/
theorem dValidRange : Obligations.DValidRange := by
  refine fun s hroom => ⟨fun hbad => ?_, fun hlo hhi => ?_⟩
  · have hrange : s.inByte 2048 < 1 ∨ 8 < s.inByte 2048 := hbad.imp (fun h => by bv_omega) fun h => by bv_omega
    have hexec := exec_dValid_of_room hroom
    rw [if_pos hrange] at hexec
    exact ⟨_, hexec, endedErr_raise ⟨rfl, rfl, rfl, rfl, rfl, rfl⟩ _⟩
  · have hrange : ¬ (s.inByte 2048 < 1 ∨ 8 < s.inByte 2048) := not_or.2 ⟨BitVec.not_lt.2 hlo, BitVec.not_lt.2 hhi⟩
    rw [exec_dValid_of_room hroom, if_neg hrange]

/-! ## D_SUM (R175) -/

theorem exec_dSum (s : State) : exec .dSum s = .next { s with total := totalCount s.hist, phase := .dWalk } := rfl

/-- After `BUILD` the root weighs as much as all the counters together (R36 (e)). -/
theorem exists_root_w_eq_totalCount {s : State} (hk : leafSyms s.hist ≠ []) :
    ∃ n, nodeAt s.build.node s.build.root = some n ∧ totalCount s.hist = n.w := by
  obtain ⟨ha, hl⟩ := buildNodes_arena hk
  obtain ⟨n, hn, hw⟩ := ha.root hl
  exact ⟨n, ((nodeAt_build_eq_some ha).2 hn).2, BitVec.eq_of_toNat_eq ((toNat_totalCount s.hist).trans hw.symm)⟩

/-- Settles O40: no sum of 256 counters wraps, and the root's weight is the same sum. -/
theorem dSumTotals : Obligations.DSumTotals := by
  refine fun s => ⟨_, exec_dSum s, rfl, toNat_totalCount s.hist, ?_⟩
  rintro u rfl ⟨b, hb⟩
  exact exists_root_w_eq_totalCount (leafSyms_ne_nil hb)

/-! ## The children of a node (R179, R182) -/

theorem childOf_of_single (node : Idx → Option Node) (root i : Idx) (bit : Bool) :
    childOf node 1 root i bit = if bit then Idx.none else root := rfl

/-- The branches of an internal node lead to nodes below `NNODE`. -/
theorem branch_lt_nnode {s : State} (hk : leafSyms s.hist ≠ []) {i : Idx} {w : Weight} {c0 c1 : Idx} {q : Bool}
    (hi : i.toNat < s.build.nnode.toNat) (hn : nodeAt s.build.node i = some (.internal w c0 c1 q)) (bit : Bool) :
    (if bit then c1 else c0).toNat < s.build.nnode.toNat := by
  have ha := (buildNodes_arena hk).1
  obtain ⟨m, n, hm, hn, -⟩ := ha.children_of_internal ((nodeAt_build_eq_some ha).1 ⟨hi, hn⟩)
  cases bit
  · exact ((nodeAt_build_eq_some ha).2 hm).1
  · exact ((nodeAt_build_eq_some ha).2 hn).1

/-- Settles O42: `child` is the node's own branch but in a single-leaf tree, where it is the root or missing. -/
theorem childMissingOnlySingleLeaf : Obligations.ChildMissingOnlySingleLeaf := by
  rintro s ⟨b, hb⟩ t
  refine ⟨fun h2 i w c0 c1 q bit hi hn => ?_, fun h1 => ?_⟩
  · have hchild := childOf_of_internal (nleaf := t.nleaf) (root := t.root) (by bv_omega) (by bv_omega) hn bit
    rw [hchild]
    exact ⟨rfl, branch_lt_nnode (leafSyms_ne_nil hb) hi hn bit⟩
  · rw [h1, childOf_of_single, childOf_of_single]
    exact ⟨rfl, rfl⟩

/-!
## The walk over a list of bits (R178, R180, R183, R184)

The cases of an induction over `walkBits`: the total is reached, the bits are exhausted, the child is missing, it is a leaf, it is
an internal node.
-/

theorem map_eq_ok {r : Except ErrKind (List Byte)} {f : List Byte → List Byte} {out : List Byte} :
    r.map f = .ok out ↔ ∃ rest, r = .ok rest ∧ f rest = out := by
  cases r <;> simp [Except.map]

theorem eq_error_of_map {r : Except ErrKind (List Byte)} {f : List Byte → List Byte} {e : ErrKind}
    (h : r.map f = .error e) : r = .error e := by
  cases r <;> cases h; rfl

section
variable {node : Idx → Option Node} {nleaf root cur : Idx} {n : Nat} {bits : List Bool} {out : List Byte}

theorem length_of_walkBits (h : walkBits node nleaf root n cur bits = .ok out) : out.length = n := by
  fun_induction walkBits node nleaf root n cur bits generalizing out with
  | case1 => cases h; rfl
  | case2 | case3 => cases h
  | case4 n cur bit bits w b q hn ih =>
    obtain ⟨rest, hrest, rfl⟩ := map_eq_ok.1 h
    rw [List.length_cons, ih hrest]
  | case5 n cur bit bits w c0 c1 q hn ih => exact ih h

theorem walkBits_append (h : walkBits node nleaf root n cur bits = .ok out) (more : List Bool) :
    walkBits node nleaf root n cur (bits ++ more) = .ok out := by
  fun_induction walkBits node nleaf root n cur bits generalizing out with
  | case1 => rw [walkBits, h]
  | case2 | case3 => cases h
  | case4 n cur bit bits w b q hn ih =>
    obtain ⟨rest, hrest, rfl⟩ := map_eq_ok.1 h
    rw [List.cons_append, walkBits, hn]
    exact map_eq_ok.2 ⟨rest, ih hrest, rfl⟩
  | case5 n cur bit bits w c0 c1 q hn ih =>
    rw [List.cons_append, walkBits, hn]
    exact ih h

/-- Every byte that the walk emits is the byte value of a leaf. -/
theorem exists_leaf_of_mem_walkBits (h : walkBits node nleaf root n cur bits = .ok out) :
    ∀ b ∈ out, ∃ i w q, node i = some (.leaf w b q) := by
  fun_induction walkBits node nleaf root n cur bits generalizing out with
  | case1 => cases h; exact List.forall_mem_nil _
  | case2 | case3 => cases h
  | case4 n cur bit bits w b q hn ih =>
    obtain ⟨rest, hrest, rfl⟩ := map_eq_ok.1 h
    exact List.forall_mem_cons.2 ⟨⟨_, w, q, hn⟩, ih hrest⟩
  | case5 n cur bit bits w c0 c1 q hn ih => exact ih h

/-- The only error of the walk is CorruptStream (R181, R182). -/
theorem eq_corruptStream_of_walkBits {e : ErrKind} (h : walkBits node nleaf root n cur bits = .error e) :
    e = .corruptStream := by
  fun_induction walkBits node nleaf root n cur bits with
  | case1 => cases h
  | case2 | case3 => cases h; rfl
  | case4 n cur bit bits w b q hn ih => exact ih (eq_error_of_map h)
  | case5 n cur bit bits w c0 c1 q hn ih => exact ih h

end

/-- Settles O43: `length_of_walkBits` and `walkBits_append`, each by induction over the walk. -/
theorem excessBitsIgnored : Obligations.ExcessBitsIgnored := fun _ _ _ _ _ _ more _ h =>
  ⟨length_of_walkBits h, walkBits_append h more⟩

/-! ## D_WALK (R178) -/

/-- Settles O41: the register walk ends as the walk over the walkable bits, whose one error is CorruptStream. -/
theorem dWalkResult : Obligations.DWalkResult := by
  intro s hbody _ hvb hroom
  have hend := execDWalk_endsAs hbody hvb hroom
  cases hwalk : walkBits (nodeAt s.node) s.nleaf s.root s.total.toNat s.root s.walkable with
  | ok out =>
    rw [hwalk] at hend
    obtain ⟨u, hu, hin, happ⟩ := hend
    exact ⟨u.finish, hu, endedOk_finish hin, happ.congr rfl rfl⟩
  | error e =>
    obtain rfl := eq_corruptStream_of_walkBits hwalk
    rw [hwalk] at hend
    obtain ⟨-, u, hu, hin⟩ := hend
    exact ⟨_, hu, rfl, endedErr_raise hin _⟩

/-! ## The output of a DECOMPRESS (R186) -/

theorem countSum_eq_zero_of_no_tree {h : Vector Counter 256} (hnil : buildNodes h = []) : countSum h = 0 := by
  have hk : leafSyms h = [] := by_contra fun hk => buildNodes_ne_nil hk hnil
  rw [← sum_leafSyms, hk]
  rfl

theorem histAt_ne_zero_of_mem_treeWalk {h : Vector Counter 256} (hk : leafSyms h ≠ []) {n : Nat} {cur : Idx}
    {bits : List Bool} {out : List Byte} (hw : treeWalk h n cur bits = .ok out) : ∀ b ∈ out, histAt h b ≠ 0 := by
  intro b hb
  obtain ⟨i, w, q, hleaf⟩ := exists_leaf_of_mem_walkBits hw b hb
  exact histAt_ne_zero_of_leadsTo hk (leadsTo_nil.2 ⟨w, q, hleaf⟩)

theorem validBits_of_decompress {c out : List Byte} (hlen : 2049 ≤ c.length) (h : decompress c = .ok out) :
    1 ≤ c.getD 2048 0 ∧ c.getD 2048 0 ≤ 8 := by
  by_contra hrange
  rw [not_and_or, BitVec.not_le, BitVec.not_le] at hrange
  rw [decompress_of_invalid hlen hrange] at h
  cases h

/-- Settles O44: a container with a tree is walked for as many symbols as the counters sum to; without one nothing is
counted. -/
theorem decodedOutput : Obligations.DecodedOutput := by
  intro c out hlen hdec
  obtain ⟨hlo, hhi⟩ := validBits_of_decompress hlen hdec
  rw [decompress_of_valid hlen hlo hhi] at hdec
  by_cases htree : buildNodes (containerHist c) = []
  · rw [if_pos htree] at hdec
    cases hdec
    exact ⟨(countSum_eq_zero_of_no_tree htree).symm, List.forall_mem_nil _⟩
  · rw [if_neg htree] at hdec
    exact ⟨length_of_walkBits hdec, histAt_ne_zero_of_mem_treeWalk (leafSyms_ne_nil_of_tree htree) hdec⟩

end Sys2Proof.Machine
end

section
/-!
The errors over all instructions (spec/60_exceptions.md R200 to R204): which instruction raises which error, on what condition,
and the state an error end leaves. `exec_cases` says that only `raise` gives an error; the two causes of MalformedContainer are
read off the rules of D_CHECK and D_VALID.
-/

namespace Sys2Proof.Machine

section
variable {i : Instr} {s t : State}

/-- Of the ways an instruction ends, only `raise` leaves an error that was not there before (R200, R204). -/
theorem raised_of_err (hs : s.err = .none) (h : exec i s = .next t) (he : t.err ≠ .none) :
    EndedErr s t t.err ∧
      ((t.err = .malformedContainer ∧ (i = .dCheck ∨ i = .dValid)) ∨ (t.err = .corruptStream ∧ i = .dWalk)) := by
  cases exec_cases h with
  | ignored _ _ same => exact absurd (same ▸ hs) he
  | accepted c _ _ _ eq => exact absurd (eq ▸ rfl) he
  | goto u p _ worked _ eq => exact absurd (eq ▸ worked.err.trans hs) he
  | finish u _ _ eq => exact absurd (eq ▸ rfl) he
  | raise u e cause worked eq => exact eq ▸ ⟨endedErr_raise worked.sameInput e, cause⟩

/-! ## The causes of MalformedContainer (R201) -/

/-- D_CHECK raises it where `IN_LEN` is not 0 and below the threshold 2049 (R171). -/
theorem dCheck_malformed_iff (hs : s.err = .none) (h : exec .dCheck s = .next t) :
    t.err = .malformedContainer ↔ 1 ≤ s.inLen ∧ s.inLen ≤ 2048 := by
  by_cases h0 : s.inLen = 0
  · rw [exec_dCheck_of_zero h0] at h
    cases h
    exact iff_of_false (by simp) (by bv_omega)
  by_cases hshort : s.inLen < 2049
  · rw [exec_dCheck_of_short h0 hshort] at h
    cases h
    exact iff_of_true rfl (by bv_omega)
  · rw [exec_dCheck_of_long (BitVec.not_lt.1 hshort)] at h
    cases h
    exact iff_of_false (by simp [hs]) (by bv_omega)

/-- D_VALID answers a next state only where `IN` has the valid-bits byte (R34). -/
theorem lt_inCap_of_exec_dValid (h : exec .dValid s = .next t) : 2048 < s.inCap := by
  by_contra hroom
  have hread : s.memReadIn Config.validBitsOffset = none := if_neg hroom
  simp only [exec, execDValid, hread] at h
  cases h

/-- D_VALID raises it where the valid-bits byte is not 1 to 8 (R173). -/
theorem dValid_malformed_iff (hs : s.err = .none) (h : exec .dValid s = .next t) :
    t.err = .malformedContainer ↔ s.inByte 2048 = 0 ∨ 9 ≤ s.inByte 2048 := by
  have hrange : s.inByte 2048 < 1 ∨ 8 < s.inByte 2048 ↔ s.inByte 2048 = 0 ∨ 9 ≤ s.inByte 2048 := by bv_omega
  rw [exec_dValid_of_room (lt_inCap_of_exec_dValid h)] at h
  rw [← hrange]
  split at h <;> cases h
  next hbad => exact iff_of_true rfl hbad
  next hgood => exact iff_of_false (by simp [hs]) hgood

end

/-! ## The two statements -/

/-- Settles O17: `raised_of_err` names the instruction, and the instruction's own rule the condition. -/
theorem errorCauses : Obligations.ErrorCauses := by
  intro i s t hs h
  refine ⟨⟨fun hm => ?_, ?_⟩, fun hc => ?_⟩
  · obtain ⟨-, ⟨-, rfl | rfl⟩ | ⟨hc, -⟩⟩ := raised_of_err hs h (by simp [hm])
    · exact .inl ⟨rfl, (dCheck_malformed_iff hs h).1 hm⟩
    · exact .inr ⟨rfl, (dValid_malformed_iff hs h).1 hm⟩
    · cases hm.symm.trans hc
  · rintro (⟨rfl, hlen⟩ | ⟨rfl, hvalid⟩)
    · exact (dCheck_malformed_iff hs h).2 hlen
    · exact (dValid_malformed_iff hs h).2 hvalid
  · obtain ⟨-, ⟨hm, -⟩ | ⟨-, hi⟩⟩ := raised_of_err hs h (by simp [hc])
    · cases hm.symm.trans hc
    · exact hi

/-- Settles O18: `raised_of_err` gives the end, and the raised error is one of the two with codes 1 and 2. -/
theorem errorEndVoidsOutput : Obligations.ErrorEndVoidsOutput := by
  intro i s t hs h he
  obtain ⟨hend, hcause⟩ := raised_of_err hs h he
  exact ⟨hend, hcause.imp (fun hm => congrArg ErrKind.code hm.1) fun hc => congrArg ErrKind.code hc.1⟩

end Sys2Proof.Machine
end

section
/-!
Reset (spec/10_state.md R38, spec/70_reset_and_hazards.md R220, R222): what the reset state and the state after a reset show the
host, and the step a reset makes.
-/

namespace Sys2Proof.Machine

/-- `STATUS` reads 0 in an idle block without `DONE` and without an error (R23). -/
theorem State.status_of_cleared {s : State} (hp : s.phase = .idle) (hd : s.done = false) (he : s.err = .none) :
    s.status = 0 := by
  rw [State.status, hd, he, (State.busy_eq_false s).2 hp]
  decide

/-- With `OUT_LEN` 0 no byte of `OUT` has a value (R34). -/
theorem State.outByte_of_empty {s : State} (h : s.outLen = 0) (a : Nat) : s.outByte a = none :=
  if_neg (by simp [h])

/-- A reset is the host port's, in every state of the block (R222). -/
theorem step_of_reset {s : State} {rest : List HostMove} (h : s.host = .reset :: rest) :
    step s = .next ({ s with host := rest } : State).resetEvent :=
  step_of_move h nofun nofun

/-- Settles O7: the fields are those of `State.reset`, whose flags are clear, and an idle block without a transaction waits. -/
theorem resetLeavesIdle : Obligations.ResetLeavesIdle :=
  ⟨rfl, State.status_of_cleared rfl rfl rfl, rfl, rfl, rfl, step_of_idle rfl rfl⟩

/-- Settles O8: the step is `step_of_reset`, and `State.resetEvent` leaves the flags clear and `OUT` empty. -/
theorem resetFromAnyState : Obligations.ResetFromAnyState :=
  fun _ _ h => ⟨_, step_of_reset h, rfl, State.status_of_cleared rfl rfl rfl, rfl, rfl, State.outByte_of_empty rfl, rfl, rfl,
    rfl⟩

end Sys2Proof.Machine
end
